-- ==== Sys2Proof/Word.lean ====
section
/-! DEFINITION. The word types of the BSL3 Huffman codec block (spec/00_scope.md rules R10 to R13): bytes,
32-bit register words, FileIds, 9-bit arena indices and bit sequences in stream order. -/

namespace Sys2Proof

/-- A byte of a file, of a staging buffer or of a byte-array window. -/
abbrev Byte := BitVec 8

/-- A host register word (spec/10_state.md rule R50: "Every register is 32 bits"). -/
abbrev Word := BitVec 32

/-- FILEID_WIDTH = 32 bits (spec/00_scope.md rule R9): the number by which the host names a file. -/
abbrev FileId := BitVec 32

/-- An index into the tree arena, 9 bits (spec/10_state.md rule R39). -/
abbrev NodeIx := BitVec 9

/-- A BitSeq (spec/00_scope.md rule R12): the head is the first bit in stream order. -/
abbrev BitSeq := List Bool

end Sys2Proof
end

