-- ==== Sys2Proof/Config.lean ====
section
/-! DEFINITION. The parameters of spec/00_scope.md rule R9 (fixed numbers), and the values the spec leaves open
(opaque constants without a body: nothing in Lean can tell what they are; notes/assumptions/3.md to 6.md). -/

namespace Sys2Proof.Config

/-- READ_CAP: the capacity in bytes of a read slot's staging buffer. -/
def readCap : Nat := 4096

/-- MAX_XFER_BITS: the most bits one BS_READ or BS_WRITE moves. -/
def maxXferBits : Nat := 8192

/-- HEADER_BITS: the header of an encoded file is 256 times 4 bytes. -/
def headerBits : Nat := 8192

/-- SYMBOLS: the size of the alphabet. -/
def symbols : Nat := 256

/-- NODE_CAP: the number of entries of the tree arena. -/
def nodeCap : Nat := 511

/-- REG_WINDOW: the size in bytes of the host register window. -/
def regWindow : Nat := 0x4000

/-- The constant of the ID register (spec/10_state.md rule R52). -/
def idValue : Word := 0x48554646

/-- BLOCK_BASE (spec/20_memory.md rule R90): where the platform puts the window on the host's bus. Left open. -/
opaque blockBase : Nat

/-- IO_FAIL (spec/20_memory.md rule R106): whether the n-th storage request asked of the storage fails, where the
oracle's answer is not given by the state's plan. Left open, "with no law". -/
opaque ioFails : Nat → Bool

/-- The "unspecified byte sequence" a file holds after a failed write, truncate or sync (spec/20_memory.md rules
R104, R105), and after a broken duty of rule R370. The argument is the state's count of free values taken. -/
opaque unspecifiedBytes : Nat → List Byte

/-- What a register of the unreliable group reads as while BUSY = 1 (spec/70_reset_and_hazards.md rule R372). -/
opaque busyWord : Nat → Word

/-- The value a field of n bits takes when the rules store v in it and v does not fit. Rule R10 promises that "the
rule says what happens when it does not"; for the 64-bit offsets and counters no rule does, so the value is open. -/
opaque misfit (n v : Nat) : BitVec n

/-- How far a command got (in storage requests) when another agent changed a bound file under it (rule R370). -/
opaque raceReach : Nat → Nat

/-- Which of a command's possible completions is reported when another agent changed a bound file under it (R370). -/
opaque racePick : Nat → Nat

end Sys2Proof.Config
end

