-- ==== Sys2Proof/Syntax.lean ====
section
/-! DEFINITION. The commands of the block as syntax: the eight rows of spec/opcode_table.json, their operands S and D,
and the fields of a raw command word (spec/30_encoding.md rules R130 to R133). -/

namespace Sys2Proof

/-- The stream slot number S of a stream command, 0 or 1 (spec/30_encoding.md rule R130). -/
inductive SlotId
  | s0
  | s1
  deriving DecidableEq, Repr

/-- The direction D of BS_OPEN: 0 = READ, 1 = WRITE (spec/30_encoding.md rule R130). -/
inductive Dir
  | read
  | write
  deriving DecidableEq, Repr

/-- The eight commands (spec/30_encoding.md rule R133). Operands in ARG0, ARG1, DATA_IN and CONFIG are not part of
the word: the core reads them from the command latch. -/
inductive Instr
  /-- BS_OPEN, OP 0x01: bind a slot to the file ARG0 in a direction. -/
  | bsOpen (slot : SlotId) (dir : Dir)
  /-- BS_WRITE, OP 0x02: append ARG0 bits of DATA_IN to a write slot. -/
  | bsWrite (slot : SlotId)
  /-- BS_FLUSH, OP 0x03: write a write slot's accumulator to storage and empty it. -/
  | bsFlush (slot : SlotId)
  /-- BS_READ, OP 0x04: read up to ARG0 bits from a read slot. -/
  | bsRead (slot : SlotId)
  /-- BS_REWIND, OP 0x05: return a read slot to the start of its file. -/
  | bsRewind (slot : SlotId)
  /-- BS_CLEAR, OP 0x06: truncate a write slot's file. -/
  | bsClear (slot : SlotId)
  /-- ENCODE, OP 0x10: compress file ARG0 into file ARG1. -/
  | encodeFile
  /-- DECODE, OP 0x11: decompress file ARG0 into file ARG1. -/
  | decodeFile
  deriving DecidableEq, Repr

/-- A command word split into its fields (spec/30_encoding.md rule R130): any 32 bits. -/
structure CmdFields where
  /-- bits 7:0, the opcode -/
  op  : BitVec 8
  /-- bit 8, the stream slot number -/
  s   : BitVec 1
  /-- bit 9, the direction -/
  d   : BitVec 1
  /-- bits 31:10, reserved, must be 0 -/
  rsv : BitVec 22
  deriving DecidableEq, Repr

end Sys2Proof
end

