-- ==== Sys2Proof/Machine/State.lean ====
section
/-! DEFINITION. The state of the machine: everything spec/10_state.md gives the block (rule R30), the files of the
storage agent (spec/20_memory.md rule R100), and what the spec calls parameters of the step relation (spec/00_scope.md
rule R5: the oracle, the host's accesses), held as plain data. Reset is spec/10_state.md rule R75. -/

namespace Sys2Proof.Machine

/-- SLOT[s].MODE (R31): CLOSED = 0, READ = 1, WRITE = 2; "3 is never held". -/
inductive Mode
  | closed
  | read
  | write
  deriving DecidableEq, Repr

/-- A stream slot (R31). BUF, VALID, CUR, FPOS mean something in mode READ; ACC, WCUR, WPOS in mode WRITE. -/
structure Slot where
  /-- MODE: the slot's direction, or no stream -/
  mode  : Mode
  /-- FILE: the file the slot is bound to -/
  file  : FileId
  /-- BUF: the staging buffer -/
  buf   : List Byte
  /-- VALID: bytes populated by the last refill -/
  valid : BitVec 13
  /-- CUR: bit offset into BUF -/
  cur   : BitVec 16
  /-- FPOS: file offset of the byte the next refill reads first -/
  fpos  : BitVec 64
  /-- ACC: the bits appended since the last flush, the newest first; `Slot.acc` is ACC in stream order -/
  accRev : BitSeq
  /-- WCUR: the bit cursor of a write slot -/
  wcur  : BitVec 64
  /-- WPOS: file offset at which the next flush writes -/
  wpos  : BitVec 64
  deriving DecidableEq, Repr

/-- The reset value of a slot (R75). -/
def Slot.reset : Slot :=
  { mode := .closed, file := 0, buf := [], valid := 0, cur := 0, fpos := 0, accRev := [], wcur := 0, wpos := 0 }

/-- An entry of the tree arena (R39). SYM means something iff LEAF, LEFT and RIGHT iff not. -/
structure Node where
  weight : BitVec 64
  leaf   : Bool
  sym    : Byte
  left   : NodeIx
  right  : NodeIx
  deriving DecidableEq, Repr

/-- The reset value of an arena entry (R75). -/
def Node.reset : Node := { weight := 0, leaf := false, sym := 0, left := 0, right := 0 }

/-- The tree arena NODE with LEAF_COUNT and NODE_COUNT (R39, R40), and the BUILD work list W (R43). -/
structure Tree where
  node      : Vector Node 511
  leafCount : BitVec 9
  nodeCount : BitVec 9
  work      : List NodeIx
  deriving DecidableEq, Repr

/-- The reset value of the tree (R75). -/
def Tree.reset : Tree :=
  { node := Vector.replicate 511 Node.reset, leafCount := 0, nodeCount := 0, work := [] }

/-- The decoder's stop rule (R58): CONFIG.STOP 0 and 1. -/
inductive StopRule
  | symbolCount
  | eofOnly
  deriving DecidableEq, Repr

/-- The command latch (R44): the operands of the command being executed, copied at acceptance. -/
structure Latch where
  op    : BitVec 8
  s     : BitVec 1
  d     : BitVec 1
  arg0  : Word
  arg1  : Word
  datIn : Vector Byte 1024
  deriving DecidableEq, Repr

/-- The reset value of the latch (R75). -/
def Latch.reset : Latch :=
  { op := 0, s := 0, d := 0, arg0 := 0, arg1 := 0, datIn := Vector.replicate 1024 0 }

/-- The error codes of STATUS.ERR (spec/60_exceptions.md rule R320), codes 0 to 9 in order. -/
inductive ErrCode
  | noError
  | invalidMode
  | io
  | malformedHeader
  | illegalCmd
  | notOpen
  | xferLen
  | countOverflow
  | protocol
  | aliased
  deriving DecidableEq, Repr

/-- The phases of STATUS.PHASE (spec/30_encoding.md rule R140), codes 0 to 9 in order. -/
inductive Phase
  | idle
  | setup
  | count
  | build
  | writeHeader
  | encodeBody
  | readHeader
  | decodeBody
  | flush
  | done
  deriving DecidableEq, Repr

/-- The fields of STATUS (R54): the block's flags and its condition code (R72). -/
structure Status where
  busy  : Bool
  done  : Bool
  ovr   : Bool
  err   : ErrCode
  phase : Phase
  deriving DecidableEq, Repr

/-- STATUS reads 0 after reset (R75). -/
def Status.reset : Status := { busy := false, done := false, ovr := false, err := .noError, phase := .idle }

/-- The storage (spec/20_memory.md rule R100): "a partial map FILES : FileId → ByteSeq", as a list in one canonical
form, FileIds strictly rising. An unlisted FileId names no file. -/
abbrev Memory := List (FileId × List Byte)

/-- The storage oracle's answer to one request (spec/20_memory.md rule R106). -/
inductive IoAnswer
  /-- the request is performed -/
  | done
  /-- the request fails with IO, and a write, truncate or sync leaves its file unspecified (R104, R105) -/
  | failed
  /-- the request fails with IO and changes nothing: a failure that happens to leave the file as it was, and what a
  reset that comes before the request looks like to the storage (spec/70_reset_and_hazards.md rule R362) -/
  | notReached
  deriving DecidableEq, Repr

/-- The Io-failure oracle IO_FAIL (R106), a parameter of the step relation (R5): the answers to the coming requests as
far as they are planned, then one answer for every later request if one is given, else the open `Config.ioFails`. -/
structure IoOracle where
  planned : List IoAnswer
  rest    : Option IoAnswer
  /-- how many requests have been asked: the argument of `Config.ioFails` -/
  asked   : Nat
  deriving DecidableEq, Repr

/-- The width of a host access (spec/20_memory.md rules R91, R92). -/
inductive Width
  | byte
  | half
  | word
  | double
  deriving DecidableEq, Repr

/-- What reaches the block next, in order (spec/00_scope.md rule R4, spec/20_memory.md rule R118): the host's accesses
to the window, the core's turn, the reset input, and changes of storage by another agent. -/
inductive Input
  /-- a host read of the given width at a window offset -/
  | read (w : Width) (off : Nat)
  /-- a host write of the given width at a window offset; a narrower write takes the low bits -/
  | write (w : Width) (off : Nat) (v : Word)
  /-- the host statement `wait` (spec/30_encoding.md rule R145): STATUS is read until BUSY reads 0 -/
  | wait
  /-- the core takes its transition now: the running command runs to its completion (nothing if none runs) -/
  | core
  /-- the reset input is asserted (spec/70_reset_and_hazards.md rule R360); if a command is running it had completed
  this many of its storage requests (rule R362, a free choice) -/
  | reset (requestsDone : Nat)
  /-- another agent sets the contents of a file (rules R364, R370) -/
  | fileChange (f : FileId) (bytes : List Byte)
  deriving DecidableEq, Repr

/-- The block's answer to the last host access (spec/20_memory.md rules R91, R92). -/
inductive Response
  /-- no access has been answered since reset -/
  | none
  /-- a read returned this word -/
  | data (v : Word)
  /-- a write was taken -/
  | written
  /-- "a bus error response": the host-side fault of rule R92 -/
  | busError
  deriving DecidableEq, Repr

/-- The whole state (R30), the storage (R100) and the environment (R5). -/
structure State where
  /-- SLOT[0] (R31) -/
  slot0      : Slot
  /-- SLOT[1] (R31) -/
  slot1      : Slot
  /-- FREQ[0..255] (R37) -/
  freq       : Vector Word 256
  /-- TOTAL (R38) -/
  total      : BitVec 64
  /-- NODE, LEAF_COUNT, NODE_COUNT and W (R39, R40, R43) -/
  tree       : Tree
  /-- CODE_LEN[0..255] (R42) -/
  codeLen    : Vector Byte 256
  /-- CODE_BITS[0..255] (R42) -/
  codeBits   : Vector (BitVec 256) 256
  /-- WALK (R43) -/
  walk       : NodeIx
  /-- EMITTED (R43) -/
  emitted    : BitVec 64
  /-- STOP_L (R43) -/
  stopL      : StopRule
  /-- the command latch (R44) -/
  latch      : Latch
  /-- STATUS (R54) -/
  status     : Status
  /-- ARG0 (R55) -/
  arg0       : Word
  /-- ARG1 (R56) -/
  arg1       : Word
  /-- RESULT_BITS (R57) -/
  resultBits : Word
  /-- CONFIG.STOP (R58) -/
  stop       : StopRule
  /-- DATA_IN[0..1023] (R67) -/
  dataIn     : Vector Byte 1024
  /-- DATA_OUT[0..1023] (R68) -/
  dataOut    : Vector Byte 1024
  /-- FILES, the storage agent's (R100) -/
  files      : Memory
  /-- the storage oracle (R106) -/
  io         : IoOracle
  /-- what reaches the block next -/
  inputs     : List Input
  /-- the answer to the last host access -/
  response   : Response
  /-- another agent has changed a file the running command is bound to (R370) -/
  raced      : Bool
  /-- how many free values have been taken: the argument of the open constants of Config -/
  taken      : Nat
  deriving DecidableEq, Repr

/-- The machine right after reset (R75, R360), with no file in storage and nothing planned for the oracle, the host or
the other agents (notes/assumptions/1.md, 2.md). -/
def State.reset : State where
  slot0      := Slot.reset
  slot1      := Slot.reset
  freq       := Vector.replicate 256 0
  total      := 0
  tree       := Tree.reset
  codeLen    := Vector.replicate 256 0
  codeBits   := Vector.replicate 256 0
  walk       := 0
  emitted    := 0
  stopL      := .symbolCount
  latch      := Latch.reset
  status     := Status.reset
  arg0       := 0
  arg1       := 0
  resultBits := 0
  stop       := .symbolCount
  dataIn     := Vector.replicate 1024 0
  dataOut    := Vector.replicate 1024 0
  files      := []
  io         := { planned := [], rest := none, asked := 0 }
  inputs     := []
  response   := .none
  raced      := false
  taken      := 0

/-- Why a step stops the machine. No command ends in a fault: "every command completes" (spec/93). -/
inductive Fault
  /-- Raised by `step` for a host access at an offset of 0x4000 or more: the address is not in the block's window, and
  "the block's base address and what surrounds the window are the platform's" (spec/20_memory.md rule R116). Safe: the
  model stops where the platform goes on. -/
  | outsideWindow
  deriving DecidableEq, Repr

/-- Why a step has no meaning. -/
inductive Refusal
  /-- Raised only by an arm of `exec` whose instruction has no meaning yet; no arm is left so. Safe. -/
  | notModelled (mnemonic : String)
  deriving DecidableEq, Repr

end Sys2Proof.Machine
end

