-- ==== Sys2Proof/Machine/Flags.lean ====
section
/-! DEFINITION. The flags and condition codes of STATUS (spec/10_state.md rules R54, R72; spec/60_exceptions.md rules
R320, R328 to R330): their codes, their changes at acceptance, at a lost CMD write and at completion, and the word. -/

namespace Sys2Proof.Machine

/-- The code of STATUS.ERR (R320). -/
def ErrCode.code : ErrCode → BitVec 4
  | .noError => 0
  | .invalidMode => 1
  | .io => 2
  | .malformedHeader => 3
  | .illegalCmd => 4
  | .notOpen => 5
  | .xferLen => 6
  | .countOverflow => 7
  | .protocol => 8
  | .aliased => 9

/-- The code of STATUS.PHASE (R140). -/
def Phase.code : Phase → BitVec 4
  | .idle => 0
  | .setup => 1
  | .count => 2
  | .build => 3
  | .writeHeader => 4
  | .encodeBody => 5
  | .readHeader => 6
  | .decodeBody => 7
  | .flush => 8
  | .done => 9

/-- The code of SLOT[s].MODE (R31). -/
def Mode.code : Mode → BitVec 2
  | .closed => 0
  | .read => 1
  | .write => 2

/-- The bit CONFIG.STOP (R58). -/
def StopRule.bit : StopRule → BitVec 1
  | .symbolCount => 0
  | .eofOnly => 1

/-- R328: STATUS at the acceptance of a command. -/
def Status.accepted : Status := { busy := true, done := false, ovr := false, err := .noError, phase := .idle }

/-- R329: STATUS after a CMD write that was ignored because BUSY was 1. -/
def Status.overrun (st : Status) : Status := { st with ovr := true }

/-- R330: STATUS at the completion of a command. OVR keeps its value until the next acceptance (R329). -/
def Status.completed (st : Status) (e : ErrCode) (p : Phase) : Status :=
  { busy := false, done := true, ovr := st.ovr, err := e, phase := p }

/-- R54: the STATUS word, bits 31:12 and 3 reserved and 0. -/
def Status.word (st : Status) : Word :=
  (0 : BitVec 20) ++ st.phase.code ++ st.err.code ++ (0 : BitVec 1) ++ BitVec.ofBool st.ovr ++ BitVec.ofBool st.done
    ++ BitVec.ofBool st.busy

/-- R372: the STATUS word while BUSY = 1: BUSY, OVR and the reserved bits read exactly; DONE, ERR and PHASE read as
bits of the open word `any`. -/
def Status.busyWord (st : Status) (any : Word) : Word :=
  (0 : BitVec 20) ++ any.extractLsb' 8 4 ++ any.extractLsb' 4 4 ++ (0 : BitVec 1) ++ BitVec.ofBool st.ovr
    ++ any.extractLsb' 1 1 ++ BitVec.ofBool st.busy

end Sys2Proof.Machine
end

