-- ==== Sys2Proof/WellFormed.lean ====
section
/-! DEFINITION. Which command words are legal (spec/30_encoding.md rules R133, R134). A term of Instr is legal by its
type (a slot is 0 or 1, a direction READ or WRITE); what can be ill-formed is the raw word, and each clause of rule
R134 is one check on its fields. -/

namespace Sys2Proof

/-- The opcodes of the six stream commands (spec/30_encoding.md rule R133). -/
def streamOps : List (BitVec 8) := [0x01, 0x02, 0x03, 0x04, 0x05, 0x06]

/-- The opcodes of the two sessions (spec/30_encoding.md rule R133). -/
def sessionOps : List (BitVec 8) := [0x10, 0x11]

/-- R134: "any word with RSV ≠ 0" is illegal. -/
def CmdFields.reservedClear (f : CmdFields) : Bool := f.rsv == 0

/-- R134: OP values outside the opcode map are illegal. -/
def CmdFields.opKnown (f : CmdFields) : Bool := streamOps.contains f.op || sessionOps.contains f.op

/-- R134: "a stream command other than BS_OPEN with D = 1", and a session with D = 1, are illegal. -/
def CmdFields.dirAllowed (f : CmdFields) : Bool := f.d == 0 || f.op == 0x01

/-- R134: "ENCODE or DECODE with S = 1" is illegal. -/
def CmdFields.slotAllowed (f : CmdFields) : Bool := f.s == 0 || !sessionOps.contains f.op

/-- A legal command word: it passes the four checks of rule R134. -/
def CmdFields.wellFormed (f : CmdFields) : Bool :=
  f.reservedClear && f.opKnown && f.dirAllowed && f.slotAllowed

/-- Every Instr is a legal command: its operands cannot leave the fields of the word. -/
def Instr.wellFormed (_ : Instr) : Bool := true

end Sys2Proof
end

