-- ==== Sys2Proof/Decode.lean ====
section
/-! DEFINITION. Reading a command word (spec/30_encoding.md rules R130 to R135): a total decoder that names why a word
is illegal, and after it the encoder, written from the same opcode map. -/

namespace Sys2Proof

/-- Why a command word is illegal (spec/30_encoding.md rule R134, clause by clause). -/
inductive Reject
  /-- RSV, bits 31:10, is not 0 -/
  | reservedBits
  /-- OP is 0x00, 0x07 to 0x0F or 0x12 to 0xFF -/
  | unknownOpcode
  /-- D = 1 on a command other than BS_OPEN -/
  | directionBit
  /-- S = 1 on ENCODE or DECODE -/
  | slotBit
  deriving DecidableEq, Repr

/-- The fields of a command word (R130). -/
def fieldsOf (w : Word) : CmdFields where
  op  := w.extractLsb' 0 8
  s   := w.extractLsb' 8 1
  d   := w.extractLsb' 9 1
  rsv := w.extractLsb' 10 22

/-- The word with the given fields (R130). -/
def wordOf (f : CmdFields) : Word := f.rsv ++ f.d ++ f.s ++ f.op

/-- R131: "s = CMD[8] (zero-extended to a slot index 0 or 1)". -/
def slotOfBit (b : BitVec 1) : SlotId := if b = 0 then .s0 else .s1

/-- R131: "d = CMD[9]: 0 selects MODE READ, 1 selects MODE WRITE". -/
def dirOfBit (b : BitVec 1) : Dir := if b = 0 then .read else .write

/-- The bit S of a slot number. -/
def bitOfSlot : SlotId → BitVec 1
  | .s0 => 0
  | .s1 => 1

/-- The bit D of a direction. -/
def bitOfDir : Dir → BitVec 1
  | .read => 0
  | .write => 1

/-- A command that takes S and not D. -/
def streamInstr (f : CmdFields) (i : SlotId → Instr) : Except Reject Instr :=
  if f.d = 0 then .ok (i (slotOfBit f.s)) else .error .directionBit

/-- A command that takes neither S nor D. -/
def sessionInstr (f : CmdFields) (i : Instr) : Except Reject Instr :=
  if f.s ≠ 0 then .error .slotBit else if f.d ≠ 0 then .error .directionBit else .ok i

/-- R133, R135: the command the fields select, or why they select none. -/
def decodeFields (f : CmdFields) : Except Reject Instr :=
  if f.rsv ≠ 0 then .error .reservedBits
  else if f.op = 0x01 then .ok (.bsOpen (slotOfBit f.s) (dirOfBit f.d))
  else if f.op = 0x02 then streamInstr f .bsWrite
  else if f.op = 0x03 then streamInstr f .bsFlush
  else if f.op = 0x04 then streamInstr f .bsRead
  else if f.op = 0x05 then streamInstr f .bsRewind
  else if f.op = 0x06 then streamInstr f .bsClear
  else if f.op = 0x10 then sessionInstr f .encodeFile
  else if f.op = 0x11 then sessionInstr f .decodeFile
  else .error .unknownOpcode

/-- R135: "A decoder of command words is total". -/
def decode (w : Word) : Except Reject Instr := decodeFields (fieldsOf w)

/-- The instruction the decoder reads from the low `nbits` bits of `w` (a command word is one 32-bit word written to
CMD; bits above it are none). -/
def decodeTableWord (nbits w : Nat) : Option Instr :=
  match decode (BitVec.ofNat 32 (w % 2 ^ nbits)) with
  | .ok i => some i
  | .error _ => none

/-- R133: the OP value of each command. -/
def opcodeOf : Instr → BitVec 8
  | .bsOpen _ _ => 0x01
  | .bsWrite _ => 0x02
  | .bsFlush _ => 0x03
  | .bsRead _ => 0x04
  | .bsRewind _ => 0x05
  | .bsClear _ => 0x06
  | .encodeFile => 0x10
  | .decodeFile => 0x11

/-- The field S of each command: 0 where the command takes none. -/
def slotBitOf : Instr → BitVec 1
  | .bsOpen s _ => bitOfSlot s
  | .bsWrite s => bitOfSlot s
  | .bsFlush s => bitOfSlot s
  | .bsRead s => bitOfSlot s
  | .bsRewind s => bitOfSlot s
  | .bsClear s => bitOfSlot s
  | .encodeFile => 0
  | .decodeFile => 0

/-- The field D of each command: 0 for all but BS_OPEN. -/
def dirBitOf : Instr → BitVec 1
  | .bsOpen _ d => bitOfDir d
  | .bsWrite _ => 0
  | .bsFlush _ => 0
  | .bsRead _ => 0
  | .bsRewind _ => 0
  | .bsClear _ => 0
  | .encodeFile => 0
  | .decodeFile => 0

/-- The command word of an instruction (R133, "The full command words"). -/
def encode (i : Instr) : Word :=
  wordOf { op := opcodeOf i, s := slotBitOf i, d := dirBitOf i, rsv := 0 }

/-- The column `match` of the opcode map (R133). -/
def matchOf : Instr → Word
  | .bsOpen _ _ => 0x00000001
  | .bsWrite _ => 0x00000002
  | .bsFlush _ => 0x00000003
  | .bsRead _ => 0x00000004
  | .bsRewind _ => 0x00000005
  | .bsClear _ => 0x00000006
  | .encodeFile => 0x00000010
  | .decodeFile => 0x00000011

/-- The column `mask` of the opcode map (R133). -/
def maskOf : Instr → Word
  | .bsOpen _ _ => 0xFFFFFCFF
  | .bsWrite _ => 0xFFFFFEFF
  | .bsFlush _ => 0xFFFFFEFF
  | .bsRead _ => 0xFFFFFEFF
  | .bsRewind _ => 0xFFFFFEFF
  | .bsClear _ => 0xFFFFFEFF
  | .encodeFile => 0xFFFFFFFF
  | .decodeFile => 0xFFFFFFFF

end Sys2Proof
end

