-- ==== Sys2Proof/Machine/Bits.lean ====
section
/-! DEFINITION. Bit sequences, packing and byte order (spec/00_scope.md rules R10 to R13), and the store of a number
into a field of a given width (rule R10). -/

namespace Sys2Proof.Machine

/-- R10: "a value stored into a field of width N is first checked to fit". A number that fits is stored; where it does
not fit and no rule says what happens, the field takes an open value (notes/assumptions/6.md). -/
def store (n v : Nat) : BitVec n :=
  if v < 2 ^ n then BitVec.ofNat n v else Config.misfit n v

/-- The number whose bit k is the k-th bit of the sequence: the sum of `x_k * 2^k`. -/
def bitsToNat : BitSeq → Nat
  | [] => 0
  | b :: bs => b.toNat + 2 * bitsToNat bs

/-- The byte whose bit i is the i-th bit of a sequence of at most 8 bits, 0 beyond its end. -/
def byteOfBits (x : BitSeq) : Byte := BitVec.ofNat 8 (bitsToNat x)

/-- The bits of a value in stream order, bit 0 first (R110). -/
def bitsOf {n : Nat} (v : BitVec n) : BitSeq := (List.range n).map v.getLsbD

/-- R12: `pack(x)`, the bytes of a bit sequence, "byte-packed little-bit-endian". -/
def pack : BitSeq → List Byte
  | [] => []
  | b0 :: b1 :: b2 :: b3 :: b4 :: b5 :: b6 :: b7 :: rest =>
    byteOfBits [b0, b1, b2, b3, b4, b5, b6, b7] :: pack rest
  | short => [byteOfBits short]

/-- R12: `unpack(bytes, n)`, the first n bits of a byte sequence. -/
def unpack (bytes : List Byte) (n : Nat) : BitSeq := (bytes.flatMap bitsOf).take n

/-- R13: `LE32(v)`. -/
def le32 (v : Word) : List Byte :=
  [v.extractLsb' 0 8, v.extractLsb' 8 8, v.extractLsb' 16 8, v.extractLsb' 24 8]

/-- R13: `fromLE32(b0, b1, b2, b3)`. -/
def fromLe32 (b0 b1 b2 b3 : Byte) : Word :=
  BitVec.ofNat 32 (b0.toNat + 256 * b1.toNat + 65536 * b2.toNat + 16777216 * b3.toNat)

/-- `ceil(a/8)` (R10). -/
def ceilDiv8 (a : Nat) : Nat := (a + 7) / 8

/-- `bytes[i]`, 0 beyond the end. -/
def byteAt (bytes : List Byte) (i : Nat) : Byte := bytes.getD i 0

/-- Entry i of a table, and the given value beyond its end (no rule reads there). -/
def entry {α : Type} {n : Nat} (t : Vector α n) (i : Nat) (dflt : α) : α := t[i]?.getD dflt

/-- The word of a byte-array window at byte offset i, little-endian (spec/20_memory.md rule R96). -/
def windowWord {n : Nat} (t : Vector Byte n) (i : Nat) : Word :=
  fromLe32 (entry t i 0) (entry t (i + 1) 0) (entry t (i + 2) 0) (entry t (i + 3) 0)

/-- A byte-array window after a 32-bit write at byte offset i (R96). -/
def setWindowWord {n : Nat} (t : Vector Byte n) (i : Nat) (v : Word) : Vector Byte n :=
  (((t.setIfInBounds i (v.extractLsb' 0 8)).setIfInBounds (i + 1) (v.extractLsb' 8 8)).setIfInBounds (i + 2)
    (v.extractLsb' 16 8)).setIfInBounds (i + 3) (v.extractLsb' 24 8)

/-- The 256 byte values in increasing order: "for v in 0..255" (spec/00_scope.md rule R14). -/
def symbols : List Byte := (List.range Config.symbols).map (BitVec.ofNat 8)

end Sys2Proof.Machine
end

