-- ==== Sys2Proof/Machine/Operands.lean ====
section
/-! DEFINITION. The operand forms of the commands (spec/30_encoding.md rules R131, R132): "All operands are read from
the command latch". The slot and the direction come with the instruction; here are ARG0, ARG1 and DATA_IN. -/

namespace Sys2Proof.Machine

/-- The computations of the core (spec/00_scope.md rule R16): `raise E` keeps the state reached so far. -/
abbrev Cmd (α : Type) := EStateM ErrCode State α

/-- R131: the MODE that D selects. -/
def modeOfDir : Dir → Mode
  | .read => .read
  | .write => .write

/-- ARG0 as a FileId: BS_OPEN's file, a session's input file (R132). -/
def State.operandFile (s : State) : FileId := s.latch.arg0

/-- ARG1 as a FileId: a session's output file (R132). -/
def State.operandOutFile (s : State) : FileId := s.latch.arg1

/-- ARG0 as a bit count, "compared ... without truncation" (R131). -/
def State.operandBits (s : State) : Nat := s.latch.arg0.toNat

/-- DATA_IN as the first n bits of the byte sequence DATIN_L[0..1023] (R131, R164). -/
def State.operandData (s : State) (n : Nat) : BitSeq := unpack s.latch.datIn.toList n

/-- The range check of a bit count: `if L > 8192: raise XFER_LEN` (R164, R174, R323). -/
def checkXfer (n : Nat) : Cmd Unit :=
  if n > Config.maxXferBits then throw .xferLen else pure ()

/-- The fields of the latched command word. An accepted legal word has RSV = 0 (R134), so OP_L, S_L and D_L are all of
it. -/
def State.latchedFields (s : State) : CmdFields :=
  { op := s.latch.op, s := s.latch.s, d := s.latch.d, rsv := 0 }

end Sys2Proof.Machine
end

