-- ==== Sys2Proof/Machine/Ops.lean ====
section
/-! DEFINITION. The operations the commands share: the storage and its requests (spec/20_memory.md rules R100 to R107),
the slots (spec/40_bitstream.md rules R160 to R178), acceptance, completion and session close (spec/60_exceptions.md
rules R328 to R332), reset (spec/70_reset_and_hazards.md rule R360). -/

namespace Sys2Proof.Machine

/-! ## The storage -/

/-- The canonical form of the storage: FileIds strictly rising. -/
abbrev Memory.wf (m : Memory) : Prop := m.Pairwise (fun a b => a.1 < b.1)

/-- FILES[f], if f names a file. -/
def Memory.lookup : Memory → FileId → Option (List Byte)
  | [], _ => none
  | (g, bytes) :: m, f => if g = f then some bytes else Memory.lookup m f

/-- `FILES[f] <- bytes`, keeping the canonical form. -/
def Memory.update : Memory → FileId → List Byte → Memory
  | [], f, bytes => [(f, bytes)]
  | (g, old) :: m, f, bytes =>
    if f < g then (f, bytes) :: (g, old) :: m
    else if f = g then (f, bytes) :: m
    else (g, old) :: Memory.update m f bytes

/-- The contents of f, empty where f names no file. -/
def Memory.contents (m : Memory) (f : FileId) : List Byte := (m.lookup f).getD []

/-- One byte of the storage: byte i of FILES[f], if there is one. -/
def Memory.readByte (m : Memory) (f : FileId) (i : Nat) : Option Byte := (m.contents f)[i]?

/-- R102: `if f is absent, FILES[f] <- empty`. -/
def Memory.create (m : Memory) (f : FileId) : Memory :=
  if (m.lookup f).isSome then m else m.update f []

/-- R104: the file after `bytes` is written at offset `off`: a gap is filled with 0, the length becomes
`max(L, off + n)`. -/
def splice (old : List Byte) (off : Nat) (bytes : List Byte) : List Byte :=
  let padded := old ++ List.replicate (off - old.length) 0
  padded.take off ++ bytes ++ padded.drop (off + bytes.length)

/-! ## The oracle -/

/-- The oracle's answer to the next request, and the oracle after it (R106). -/
def IoOracle.next (o : IoOracle) : IoAnswer × IoOracle :=
  match o.planned with
  | a :: later => (a, { o with planned := later, asked := o.asked + 1 })
  | [] =>
    (match o.rest with
      | some a => a
      | none => if Config.ioFails o.asked then .failed else .done,
     { o with asked := o.asked + 1 })

/-- The oracle after k requests. -/
def IoOracle.skip : Nat → IoOracle → IoOracle
  | 0, o => o
  | k + 1, o => IoOracle.skip k o.next.2

/-- The answers to the next k requests. -/
def IoOracle.answers : Nat → IoOracle → List IoAnswer
  | 0, _ => []
  | k + 1, o => o.next.1 :: IoOracle.answers k o.next.2

/-- The oracle of a command that is cut short after k requests: the first k answers stand and no later request is
performed (spec/70_reset_and_hazards.md rule R362). -/
def IoOracle.cutAfter (k : Nat) (o : IoOracle) : IoOracle :=
  { o with planned := o.answers k, rest := some .notReached }

/-- Ask the oracle about the next storage request. -/
def ask : Cmd IoAnswer :=
  modifyGet fun s => (s.io.next.1, { s with io := s.io.next.2 })

/-- FILES[f] is left "holding an unspecified byte sequence (any value, of any length)" (R104, R105). -/
def spoil (f : FileId) : Cmd Unit :=
  modify fun s => { s with files := s.files.update f (Config.unspecifiedBytes s.taken), taken := s.taken + 1 }

/-- A request that changes file f: performed, failed leaving the file unspecified, or failed changing nothing. -/
def mutate (f : FileId) (change : Memory → Memory) : Cmd Unit := do
  match ← ask with
  | .done => modify fun s => { s with files := change s.files }
  | .failed => spoil f; throw .io
  | .notReached => throw .io

/-- R101: `StOpen(f, READ) or raise IO`. -/
def stOpenRead (f : FileId) : Cmd Unit := do
  let a ← ask
  let s ← get
  if (s.files.lookup f).isSome ∧ a = .done then pure () else throw .io

/-- R102: `StOpen(f, WRITE) or raise IO`. A failed open "changes nothing". -/
def stOpenWrite (f : FileId) : Cmd Unit := do
  let a ← ask
  if a = .done then modify fun s => { s with files := s.files.create f } else throw .io

/-- R103: `StRead(f, off, max) or raise IO`. -/
def stRead (f : FileId) (off max : Nat) : Cmd (List Byte) := do
  let a ← ask
  let s ← get
  if a = .done then pure (((s.files.contents f).drop off).take max) else throw .io

/-- R104: `StWrite(f, off, bytes) or raise IO`. -/
def stWrite (f : FileId) (off : Nat) (bytes : List Byte) : Cmd Unit :=
  mutate f fun m => m.update f (splice (m.contents f) off bytes)

/-- R105: `StTruncate(f) or raise IO`. -/
def stTruncate (f : FileId) : Cmd Unit :=
  mutate f fun m => m.update f []

/-- R105: `StSync(f) or raise IO`: "on success it changes nothing a model observes". -/
def stSync (f : FileId) : Cmd Unit :=
  mutate f fun m => m

/-! ## The slots -/

/-- SLOT[s]. -/
def State.slot (s : State) : SlotId → Slot
  | .s0 => s.slot0
  | .s1 => s.slot1

/-- `SLOT[s] <- x`. -/
def State.setSlot (s : State) (i : SlotId) (x : Slot) : State :=
  match i with
  | .s0 => { s with slot0 := x }
  | .s1 => { s with slot1 := x }

/-- SLOT[i], as a read of the core. -/
def getSlot (i : SlotId) : Cmd Slot := do return (← get).slot i

/-- SLOT[i] <- x, as a write of the core. -/
def putSlot (i : SlotId) (x : Slot) : Cmd Unit := modify fun s => s.setSlot i x

/-- R160: `CheckSlot(s, m)`. -/
def checkSlot (i : SlotId) (m : Mode) : Cmd Unit := do
  let x ← getSlot i
  if x.mode = .closed then throw .notOpen
  else if x.mode ≠ m then throw .invalidMode
  else pure ()

/-- R161: `CloseSlot(s)`: "bits in ACC are discarded, not written". -/
def State.closeSlot (s : State) (i : SlotId) : State := s.setSlot i Slot.reset

/-- A fresh stream in a direction on a file (R162). -/
def Slot.opened (d : Dir) (f : FileId) : Slot := { Slot.reset with mode := modeOfDir d, file := f }

/-- R162: the body of BS_OPEN, `OpenSlot(s, d, f)` of R261. -/
def openSlot (i : SlotId) (d : Dir) (f : FileId) : Cmd Unit := do
  modify fun s => s.closeSlot i
  match d with
  | .read => stOpenRead f
  | .write => stOpenWrite f
  putSlot i (Slot.opened d f)

/-- ACC as a bit sequence in stream order (R31). -/
def Slot.acc (x : Slot) : BitSeq := x.accRev.reverse

/-- R165: a write slot after `AppendBits`: `ACC <- ACC ++ x`, on the list that holds the newest bit first. -/
def Slot.append (x : Slot) (bits : BitSeq) : Slot :=
  { x with accRev := bits.reverse ++ x.accRev, wcur := store 64 (x.wcur.toNat + bits.length) }

/-- R165: `AppendBits(s, x)`. -/
def appendBits (i : SlotId) (bits : BitSeq) : Cmd Unit :=
  modify fun s => s.setSlot i ((s.slot i).append bits)

/-- The slot after its accumulator of n bytes has reached storage (R167). -/
def Slot.flushed (x : Slot) (n : Nat) : Slot :=
  { x with wpos := store 64 (x.wpos.toNat + n), accRev := [], wcur := 0 }

/-- R167: `FlushSlot(s)`. -/
def flushSlot (i : SlotId) : Cmd Unit := do
  let x ← getSlot i
  let bytes := pack x.acc
  if bytes.length > 0 then stWrite x.file x.wpos.toNat bytes
  stSync x.file
  putSlot i (x.flushed bytes.length)

/-- R170: the body of BS_CLEAR: truncate the slot's file, WPOS <- 0. -/
def truncateSlot (i : SlotId) : Cmd Unit := do
  let x ← getSlot i
  stTruncate x.file
  putSlot i { x with wpos := 0 }

/-- R178: a read slot returned to the start of its file. -/
def Slot.rewound (x : Slot) : Slot := { x with buf := [], valid := 0, cur := 0, fpos := 0 }

/-- R178: the body of BS_REWIND. -/
def rewindSlot (i : SlotId) : Cmd Unit := modify fun s => s.setSlot i (s.slot i).rewound

/-- R172: a read slot after a refill that read the bytes r. -/
def Slot.refilled (x : Slot) (r : List Byte) : Slot :=
  { x with buf := r, valid := store 13 r.length, cur := 0, fpos := store 64 (x.fpos.toNat + r.length) }

/-- R172: `Refill(s)`. -/
def refill (i : SlotId) : Cmd Unit := do
  let x ← getSlot i
  let r ← stRead x.file x.fpos.toNat Config.readCap
  putSlot i (x.refilled r)

/-- `SLOT[s].VALID * 8`: the bits of the chunk in the staging buffer. -/
def Slot.validBits (x : Slot) : Nat := 8 * x.valid.toNat

/-- The bits of the staging buffer from bit c on, in stream order: `BUF[c div 8][c mod 8]` is the first (R173). -/
def Slot.bitsFrom (x : Slot) (c : Nat) : BitSeq := ((x.buf.drop (c / 8)).flatMap bitsOf).drop (c % 8)

/-- R173, `repeat k times`: the next k bits from the cursor on, and the slot with CUR advanced past them. -/
def Slot.takeBits (k : Nat) (x : Slot) : BitSeq × Slot :=
  ((x.bitsFrom x.cur.toNat).take k, { x with cur := store 16 (x.cur.toNat + k) })

/-- R173: `Take(s, out, size)`, answering `out` with the taken bits after it. -/
def take (i : SlotId) (out : BitSeq) (size : Nat) : Cmd BitSeq :=
  modifyGet fun s =>
    let x := s.slot i
    let r := x.takeBits (min (size - out.length) (x.validBits - x.cur.toNat))
    (out ++ r.1, s.setSlot i r.2)

/-- R173, the loop `while len(out) < size`. Each round either ends the read or takes at least one bit, so `size`
rounds are enough; the first argument counts them down. -/
def readMore : Nat → SlotId → BitSeq → Nat → Cmd BitSeq
  | 0, _, out, _ => pure out
  | k + 1, i, out, size =>
    if out.length < size then do
      refill i
      let x ← getSlot i
      if x.valid = 0 then pure out
      else do
        let out ← take i out size
        readMore k i out size
    else pure out

/-- R173, from the first `Take` on. -/
def readChunks (i : SlotId) (size : Nat) : Cmd BitSeq := do
  let out ← take i [] size
  readMore size i out size

/-- R173: `ReadBits(s, size)`. -/
def readBits (i : SlotId) (size : Nat) : Cmd BitSeq := do
  let x ← getSlot i
  if x.cur.toNat = x.validBits then do
    refill i
    let x ← getSlot i
    if x.valid = 0 then pure [] else readChunks i size
  else readChunks i size

/-! ## Acceptance, completion, session close: what the block has in place of taking an exception and returning -/

/-- R328: `Accept(w)`, up to running the command. -/
def accept (w : Word) (s : State) : State :=
  { s with
    latch := { op := (fieldsOf w).op, s := (fieldsOf w).s, d := (fieldsOf w).d,
               arg0 := s.arg0, arg1 := s.arg1, datIn := s.dataIn }
    stopL := s.stop
    status := Status.accepted
    raced := false }

/-- R330, R331, R335: the completion of a command with an error or none, in a phase: the one exceptional transfer of
control, which "saves exactly STATUS.ERR and STATUS.PHASE". -/
def complete (e : ErrCode) (p : Phase) (s : State) : State :=
  { s with status := s.status.completed e p, stopL := .symbolCount, raced := false }

/-- R332: the session close, "before STATUS is written". -/
def closeSession (s : State) : State :=
  { (s.closeSlot .s0).closeSlot .s1 with walk := 0, emitted := 0 }

/-- R328, R329, R321: a host write of w to CMD. A word that comes while BUSY = 1 is lost; an illegal word "completes at
once"; a legal one is accepted and runs when the core takes its transition. -/
def submit (w : Word) (s : State) : State :=
  if s.status.busy then { s with status := s.status.overrun }
  else match decode w with
    | .ok _ => accept w s
    | .error _ => complete .illegalCmd .idle (accept w s)

/-- The run of a stream command: it completes with PHASE = IDLE and closes no slot (R330, R332). -/
def runStream (body : Cmd Unit) (s : State) : State :=
  match body s with
  | .ok _ t => complete .noError .idle t
  | .error e t => complete e .idle t

/-- The run of a session: its phases in order; a `raise` completes it with the phase in force, else PHASE = DONE
(R260, R290, R330); both slots are closed either way (R332). -/
def runSession : List (Phase × Cmd Unit) → State → State
  | [], s => complete .noError .done (closeSession s)
  | (p, body) :: later, s =>
    match body s with
    | .ok _ t => runSession later t
    | .error e t => complete e p (closeSession t)

/-- R360, R361: the reset input: every element of the block to its reset value, every file kept. The environment (the
oracle, the inputs to come, the count of free values) is not the block's. -/
def blockReset (s : State) : State :=
  { State.reset with files := s.files, io := s.io, inputs := s.inputs, taken := s.taken }

end Sys2Proof.Machine
end

