-- ==== Sys2Proof/Machine/Tree.lean ====
section
/-! DEFINITION. The tree builder and the code table generator (spec/41_huffman_tree.md rules R223 to R231): internal
operations of the sessions' BUILD phase. -/

namespace Sys2Proof.Machine

/-- FREQ[v]. -/
def freqOf (freq : Vector Word 256) (v : Byte) : Word := entry freq v.toNat 0

/-- NODE[i]. -/
def Tree.nodeAt (t : Tree) (i : NodeIx) : Node := entry t.node i.toNat Node.reset

/-- `NODE[n] <- x`. -/
def Tree.setNode (t : Tree) (n : Nat) (x : Node) : Tree := { t with node := t.node.setIfInBounds n x }

/-- R223: `FREQ[0] + ... + FREQ[255]`, exactly. -/
def freqSum (freq : Vector Word 256) : Nat := (symbols.map fun v => (freqOf freq v).toNat).sum

/-- The leaf of a symbol (R224). -/
def leafOf (freq : Vector Word 256) (v : Byte) : Node :=
  { weight := (freqOf freq v).setWidth 64, leaf := true, sym := v, left := 0, right := 0 }

/-- R224, the loop `for v in 0..255`: one leaf for each symbol with a count, from arena entry n on. Answers the arena
and the next free entry. -/
def addLeaves (freq : Vector Word 256) : List Byte → Tree → Nat → Tree × Nat
  | [], t, n => (t, n)
  | v :: vs, t, n =>
    if freqOf freq v ≠ 0 then addLeaves freq vs (t.setNode n (leafOf freq v)) (n + 1)
    else addLeaves freq vs t n

/-- The entry of least weight among `best` and the list, the earliest of those that tie (R225, PopMin). -/
def Tree.leastOf (t : Tree) (best : NodeIx) : List NodeIx → NodeIx
  | [] => best
  | i :: is => t.leastOf (if (t.nodeAt i).weight < (t.nodeAt best).weight then i else best) is

/-- R225: `PopMin(W)`: the node index at the smallest position of least weight, and W without that position. -/
def Tree.popMin (t : Tree) : List NodeIx → Option (NodeIx × List NodeIx)
  | [] => none
  | i :: is => let a := t.leastOf i is; some (a, (i :: is).erase a)

/-- The internal node over the children a and b (R225): "WEIGHT: NODE[a].WEIGHT + NODE[b].WEIGHT". -/
def Tree.mergedNode (t : Tree) (a b : NodeIx) : Node :=
  { weight := store 64 ((t.nodeAt a).weight.toNat + (t.nodeAt b).weight.toNat), leaf := false, sym := 0,
    left := a, right := b }

/-- R225, the loop `while len(W) >= 2`. Each round makes W one shorter, so its length in rounds is enough; the first
argument counts them down. Answers the arena and the next free entry. -/
def mergeLoop : Nat → Tree → Nat → Tree × Nat
  | 0, t, n => (t, n)
  | k + 1, t, n =>
    match t.popMin t.work with
    | none => (t, n)
    | some (a, w) =>
      match t.popMin w with
      | none => (t, n)
      | some (b, w') =>
        mergeLoop k { t.setNode n (t.mergedNode a b) with work := w' ++ [store 9 n] } (n + 1)

/-- R223 to R225: the arena built from FREQ, with LEAF_COUNT and NODE_COUNT. W "is working storage of the BUILD phase
only" and is empty again at its end (R43). -/
def Tree.build (freq : Vector Word 256) : Tree :=
  let leaves := addLeaves freq symbols Tree.reset 0
  let start := { leaves.1 with leafCount := store 9 leaves.2, work := (List.range leaves.2).map (store 9) }
  let merged := mergeLoop leaves.2 start leaves.2
  { merged.1 with nodeCount := store 9 merged.2, work := [] }

/-- R223 to R225: `BuildTree()`. It clears the code table, in both sessions. -/
def State.buildTree (s : State) : State :=
  { s with
    codeLen := Vector.replicate 256 0
    codeBits := Vector.replicate 256 0
    total := store 64 (freqSum s.freq)
    tree := Tree.build s.freq }

/-- `BuildTree()` as a phase's work. -/
def buildTree : Cmd Unit := modify State.buildTree

/-- The root (R40): NODE[NODE_COUNT - 1], where NODE_COUNT is not 0. -/
def Tree.root (t : Tree) : NodeIx := t.nodeCount - 1

/-- The code table CODE_LEN and CODE_BITS (R42). -/
abbrev CodeTable := Vector Byte 256 × Vector (BitVec 256) 256

/-- The code of a leaf's symbol: `CODE_LEN <- len(path)`, `CODE_BITS <- sum(path_k * 2^k)` (R228). -/
def CodeTable.assign (c : CodeTable) (v : Byte) (path : BitSeq) : CodeTable :=
  (c.1.setIfInBounds v.toNat (store 8 path.length), c.2.setIfInBounds v.toNat (store 256 (bitsToNat path)))

/-- R228: `Visit(i, path)`, left before right. A child's index is below its parent's, so a walk from entry i goes at
most i deep; the first argument bounds the depth. -/
def visit (t : Tree) : Nat → NodeIx → BitSeq → CodeTable → CodeTable
  | 0, _, _, c => c
  | k + 1, i, path, c =>
    if (t.nodeAt i).leaf then c.assign (t.nodeAt i).sym path
    else visit t k (t.nodeAt i).right (path ++ [true]) (visit t k (t.nodeAt i).left (path ++ [false]) c)

/-- R228, R230: the code table of a tree, over the table c. -/
def Tree.codes (t : Tree) (c : CodeTable) : CodeTable :=
  if t.nodeCount = 0 then c
  else if t.leafCount = 1 then c.assign (t.nodeAt 0).sym [false]
  else visit t Config.nodeCap t.root [] c

/-- R228: `DeriveCodes()` (ENCODE only). -/
def State.deriveCodes (s : State) : State :=
  { s with
    codeLen := (s.tree.codes (s.codeLen, s.codeBits)).1
    codeBits := (s.tree.codes (s.codeLen, s.codeBits)).2 }

/-- `DeriveCodes()` as a phase's work. -/
def deriveCodes : Cmd Unit := modify State.deriveCodes

/-- The code of a symbol as a bit sequence: CODE_BITS[v][0] to CODE_BITS[v][CODE_LEN[v]-1] (R266). -/
def State.codeOf (s : State) (v : Byte) : BitSeq :=
  (bitsOf (entry s.codeBits v.toNat 0)).take (entry s.codeLen v.toNat 0).toNat

end Sys2Proof.Machine
end

