-- ==== Sys2Proof/Machine/Header.lean ====
section
/-! DEFINITION. The header of an encoded file, the serialised frequency table (spec/41_huffman_tree.md rules R232,
R233), and the setup both sessions share (spec/42_encoder.md rule R261). -/

namespace Sys2Proof.Machine

/-- R232: `HeaderBytes()`. -/
def headerBytes (freq : Vector Word 256) : List Byte := symbols.flatMap fun v => le32 (freqOf freq v)

/-- R265, the loop `for v in 0..255`: "256 appends of 32 bits each". -/
def writeCounts : List Byte → Cmd Unit
  | [] => pure ()
  | v :: vs => do
    let s ← get
    appendBits .s1 (unpack (le32 (freqOf s.freq v)) 32)
    writeCounts vs

/-- R265: `WriteHeader()`. -/
def writeHeader : Cmd Unit := writeCounts symbols

/-- The little-endian words of a byte sequence, four bytes each (R13). -/
def wordsOf : List Byte → List Word
  | b0 :: b1 :: b2 :: b3 :: rest => fromLe32 b0 b1 b2 b3 :: wordsOf rest
  | _ => []

/-- R233: `ParseHeader(h)` for a 1024-byte sequence: FREQ[v] is its v-th word. -/
def parseHeader (h : List Byte) : Vector Word 256 :=
  let words := wordsOf h
  Vector.ofFn fun v => words.getD v 0

/-- R261: `EncSetup(fin, fout)`, with fin = ARG0_L and fout = ARG1_L. -/
def encSetup : Cmd Unit := do
  modify fun s => (s.closeSlot .s0).closeSlot .s1
  let s ← get
  if s.operandFile = s.operandOutFile then throw .aliased
  else do
    openSlot .s1 .write s.operandOutFile
    truncateSlot .s1
    openSlot .s0 .read s.operandFile

/-- A bound on the rounds of a session's loop over its input (R330: "each loop ... is bounded by the length of its input
file"): every round but the last consumes at least one bit of the input file or of the staging buffer. -/
def State.loopBound (s : State) : Nat :=
  8 * (s.files.contents s.slot0.file).length + s.slot0.validBits + 1

end Sys2Proof.Machine
end

