-- ==== Sys2Proof/Machine/Decoder.lean ====
section
/-! DEFINITION. DECODE (spec/43_decoder.md): the header reader, the tree walker, the symbol output sequencer. -/

namespace Sys2Proof.Machine

/-- R292: `ReadHeader()`. -/
def readHeader : Cmd Unit := do
  let x ← readBits .s0 Config.headerBits
  if x.length < Config.headerBits then throw .malformedHeader
  else modify fun s => { s with freq := parseHeader (pack x) }

/-- R297: `Emit(v)`. -/
def emit (v : Byte) : Cmd Unit := do
  appendBits .s1 (unpack [v] 8)
  modify fun s => { s with emitted := store 64 (s.emitted.toNat + 1) }

/-- R298: the child a body bit leads to: "a 0 bit moves WALK to NODE[WALK].LEFT, a 1 bit to NODE[WALK].RIGHT". -/
def Tree.child (t : Tree) (i : NodeIx) (b : Bool) : NodeIx :=
  if b then (t.nodeAt i).right else (t.nodeAt i).left

/-- R294, R298, R299: what one body bit does: an absent root is MALFORMED_HEADER, a single leaf is emitted whatever the
bit, else the walk descends and emits the leaf it reaches. -/
def walkBit (b : Bool) : Cmd Unit := do
  let s ← get
  if s.tree.nodeCount = 0 then throw .malformedHeader
  else if s.tree.leafCount = 1 then emit (s.tree.nodeAt 0).sym
  else do
    let w := s.tree.child s.walk b
    set { s with walk := w }
    if (s.tree.nodeAt w).leaf then do
      emit (s.tree.nodeAt w).sym
      modify fun s => { s with walk := s.tree.root }
    else pure ()

/-- R294, R295: the loop of `DecodeBody()`. The first argument bounds the rounds. -/
def walkLoop : Nat → Cmd Unit
  | 0 => pure ()
  | k + 1 => do
    let s ← get
    if s.stopL = .symbolCount ∧ s.emitted = s.total then pure ()
    else do
      let x ← readBits .s0 1
      match x with
      | [] => pure ()
      | b :: _ => do
        walkBit b
        walkLoop k

/-- R294: `DecodeBody()`. -/
def decodeBody : Cmd Unit := do
  modify fun s => { s with emitted := 0, walk := if s.tree.nodeCount = 0 then 0 else s.tree.root }
  let s ← get
  walkLoop s.loopBound

/-- R290: the phases of DECODE in order. -/
def decodePhases : List (Phase × Cmd Unit) :=
  [(.setup, encSetup),
   (.readHeader, readHeader),
   (.build, buildTree),
   (.decodeBody, decodeBody),
   (.flush, flushSlot .s1)]

/-- DECODE (R290). -/
def execDecode (s : State) : Host.Outcome State Fault Refusal := .next (runSession decodePhases s)

end Sys2Proof.Machine
end

