-- ==== Sys2Proof/Machine/Encoder.lean ====
section
/-! DEFINITION. ENCODE (spec/42_encoder.md): the frequency counter, the header writer, the symbol-to-bits mapper. -/

namespace Sys2Proof.Machine

/-- R263, one counted byte: `if FREQ[v] = 2^32 - 1: raise COUNT_OVERFLOW`, else `FREQ[v] <- FREQ[v] + 1`. -/
def countByte (v : Byte) : Cmd Unit := do
  let s ← get
  if freqOf s.freq v = 0xFFFFFFFF then throw .countOverflow
  else set { s with freq := s.freq.setIfInBounds v.toNat (freqOf s.freq v + 1) }

/-- R263 and R266, the loop over the input 8 bits at a time to end-of-file. The first argument bounds the rounds. -/
def eachByte (act : Byte → Cmd Unit) : Nat → Cmd Unit
  | 0 => pure ()
  | k + 1 => do
    let x ← readBits .s0 8
    if x.length = 0 then pure ()
    else do
      act (byteOfBits x)
      eachByte act k

/-- R263: `CountFrequencies()`. -/
def countFrequencies : Cmd Unit := do
  modify fun s => { s with freq := Vector.replicate 256 0 }
  let s ← get
  eachByte countByte s.loopBound
  rewindSlot .s0

/-- R266, one mapped byte: `if CODE_LEN[v] = 0: raise PROTOCOL`, else its code's bits are appended. -/
def mapByte (v : Byte) : Cmd Unit := do
  let s ← get
  if entry s.codeLen v.toNat 0 = 0 then throw .protocol
  else appendBits .s1 (s.codeOf v)

/-- R266: `EncodeBody()`. -/
def encodeBody : Cmd Unit := do
  let s ← get
  eachByte mapByte s.loopBound

/-- R264: PHASE BUILD of ENCODE. -/
def buildAndDerive : Cmd Unit := do
  buildTree
  deriveCodes

/-- R260: the phases of ENCODE in order. -/
def encodePhases : List (Phase × Cmd Unit) :=
  [(.setup, encSetup),
   (.count, countFrequencies),
   (.build, buildAndDerive),
   (.writeHeader, writeHeader),
   (.encodeBody, encodeBody),
   (.flush, flushSlot .s1)]

/-- ENCODE (R260). -/
def execEncode (s : State) : Host.Outcome State Fault Refusal := .next (runSession encodePhases s)

end Sys2Proof.Machine
end

