-- ==== Sys2Proof/Machine/Stream.lean ====
section
/-! DEFINITION. The six bit-stream commands (spec/40_bitstream.md). Each body is the pseudocode of its rule; each
meaning runs it and completes with PHASE = IDLE. -/

namespace Sys2Proof.Machine

/-- R162, with f = ARG0_L. -/
def bsOpenBody (i : SlotId) (d : Dir) : Cmd Unit := do
  let s ← get
  openSlot i d s.operandFile

/-- R164, with L = ARG0_L and bits_in = DATIN_L. -/
def bsWriteBody (i : SlotId) : Cmd Unit := do
  checkSlot i .write
  let s ← get
  checkXfer s.operandBits
  appendBits i (s.operandData s.operandBits)

/-- R166. -/
def bsFlushBody (i : SlotId) : Cmd Unit := do
  checkSlot i .write
  flushSlot i

/-- DATA_OUT after a read that delivered the bits out (R176): `pack(out)`, then zeros to 1024 bytes. -/
def packedOut (out : BitSeq) : Vector Byte 1024 :=
  let bytes := pack out
  Vector.ofFn fun k => byteAt bytes k

/-- R176: `WriteReadResult(out)`. -/
def writeReadResult (out : BitSeq) : Cmd Unit :=
  modify fun s => { s with resultBits := store 32 out.length, dataOut := packedOut out }

/-- R174, with size = ARG0_L. -/
def bsReadBody (i : SlotId) : Cmd Unit := do
  checkSlot i .read
  let s ← get
  checkXfer s.operandBits
  let out ← readBits i s.operandBits
  writeReadResult out

/-- R178. -/
def bsRewindBody (i : SlotId) : Cmd Unit := do
  checkSlot i .read
  rewindSlot i

/-- R170. -/
def bsClearBody (i : SlotId) : Cmd Unit := do
  checkSlot i .write
  truncateSlot i

/-- BS_OPEN (R162). -/
def execBsOpen (i : SlotId) (d : Dir) (s : State) : Host.Outcome State Fault Refusal :=
  .next (runStream (bsOpenBody i d) s)

/-- BS_WRITE (R164). -/
def execBsWrite (i : SlotId) (s : State) : Host.Outcome State Fault Refusal :=
  .next (runStream (bsWriteBody i) s)

/-- BS_FLUSH (R166). -/
def execBsFlush (i : SlotId) (s : State) : Host.Outcome State Fault Refusal :=
  .next (runStream (bsFlushBody i) s)

/-- BS_READ (R174). -/
def execBsRead (i : SlotId) (s : State) : Host.Outcome State Fault Refusal :=
  .next (runStream (bsReadBody i) s)

/-- BS_REWIND (R178). -/
def execBsRewind (i : SlotId) (s : State) : Host.Outcome State Fault Refusal :=
  .next (runStream (bsRewindBody i) s)

/-- BS_CLEAR (R170). -/
def execBsClear (i : SlotId) (s : State) : Host.Outcome State Fault Refusal :=
  .next (runStream (bsClearBody i) s)

end Sys2Proof.Machine
end

