-- ==== Sys2Proof/Machine/Dispatch.lean ====
section
/-! DEFINITION. exec: one arm per command of spec/opcode_table.json. -/

namespace Sys2Proof.Machine

def exec (i : Instr) (s : State) : Host.Outcome State Fault Refusal :=
  match i with
  | .bsOpen slot dir => Sys2Proof.Machine.execBsOpen slot dir s
  | .bsWrite slot => Sys2Proof.Machine.execBsWrite slot s
  | .bsFlush slot => Sys2Proof.Machine.execBsFlush slot s
  | .bsRead slot => Sys2Proof.Machine.execBsRead slot s
  | .bsRewind slot => Sys2Proof.Machine.execBsRewind slot s
  | .bsClear slot => Sys2Proof.Machine.execBsClear slot s
  | .encodeFile => Sys2Proof.Machine.execEncode s
  | .decodeFile => Sys2Proof.Machine.execDecode s

end Sys2Proof.Machine
end

