-- ==== Sys2Proof/Machine/Window.lean ====
section
/-! DEFINITION. The host register window (spec/10_state.md rules R50 to R71) and the host's accesses to it
(spec/20_memory.md rules R90 to R97; spec/70_reset_and_hazards.md rule R372). -/

namespace Sys2Proof.Machine

/-- The registers of the window's map (R50); a window of words is one register per word. -/
inductive Reg
  | id
  | cmd
  | status
  | arg0
  | arg1
  | resultBits
  | config
  | streamInfo
  | totalLo
  | totalHi
  | treeInfo
  | slotFile (i : SlotId)
  | slotCursor (i : SlotId)
  | slotCount (i : SlotId)
  | slotFpos (i : SlotId)
  /-- FREQ[v] -/
  | freq (v : Nat)
  /-- the word of DATA_IN at byte offset i -/
  | dataIn (i : Nat)
  /-- the word of DATA_OUT at byte offset i -/
  | dataOut (i : Nat)
  /-- the word of CODE_LEN at byte offset i -/
  | codeLen (i : Nat)
  /-- word m of CODE_BITS[v] -/
  | codeBits (v m : Nat)
  | reserved
  deriving DecidableEq, Repr

/-- The registers of the words 0 to 19 of the window (R50). -/
def headReg : Nat → Reg
  | 0 => .id
  | 1 => .cmd
  | 2 => .status
  | 3 => .arg0
  | 4 => .arg1
  | 5 => .resultBits
  | 6 => .config
  | 7 => .streamInfo
  | 8 => .totalLo
  | 9 => .totalHi
  | 10 => .treeInfo
  | 11 => .reserved
  | 12 => .slotFile .s0
  | 13 => .slotCursor .s0
  | 14 => .slotCount .s0
  | 15 => .slotFpos .s0
  | 16 => .slotFile .s1
  | 17 => .slotCursor .s1
  | 18 => .slotCount .s1
  | 19 => .slotFpos .s1
  | _ => .reserved

/-- The register at a 4-aligned offset below 0x4000 (R50, R71). -/
def regAt (off : Nat) : Reg :=
  if off < 0x0400 then headReg (off / 4)
  else if off < 0x0800 then .freq ((off - 0x0400) / 4)
  else if off < 0x0C00 then .dataIn (off - 0x0800)
  else if off < 0x1000 then .dataOut (off - 0x0C00)
  else if off < 0x1100 then .codeLen (off - 0x1000)
  else if off < 0x2000 then .reserved
  else .codeBits ((off - 0x2000) / 32) ((off - 0x2000) % 32 / 4)

/-- Sn_CURSOR (R63). -/
def Slot.cursorWord (x : Slot) : Word :=
  match x.mode with
  | .closed => 0
  | .read => x.cur.setWidth 32
  | .write => x.wcur.setWidth 32

/-- Sn_COUNT (R64). -/
def Slot.countWord (x : Slot) : Word :=
  match x.mode with
  | .closed => 0
  | .read => x.valid.setWidth 32
  | .write => BitVec.ofNat 32 (ceilDiv8 x.wcur.toNat)

/-- Sn_FPOS (R65). -/
def Slot.fposWord (x : Slot) : Word :=
  match x.mode with
  | .closed => 0
  | .read => x.fpos.setWidth 32
  | .write => x.wpos.setWidth 32

/-- Sn_FILE (R62): "0 while the slot is CLOSED". -/
def Slot.fileWord (x : Slot) : Word :=
  match x.mode with
  | .closed => 0
  | .read => x.file
  | .write => x.file

/-- The value a register reads as while BUSY = 0 (R52 to R71). -/
def State.regValue (s : State) : Reg → Word
  | .id => Config.idValue
  | .cmd => 0
  | .status => s.status.word
  | .arg0 => s.arg0
  | .arg1 => s.arg1
  | .resultBits => s.resultBits
  | .config => s.stop.bit.setWidth 32
  | .streamInfo => (0 : BitVec 28) ++ s.slot1.mode.code ++ s.slot0.mode.code
  | .totalLo => s.total.extractLsb' 0 32
  | .totalHi => s.total.extractLsb' 32 32
  | .treeInfo => (0 : BitVec 7) ++ s.tree.nodeCount ++ (0 : BitVec 7) ++ s.tree.leafCount
  | .slotFile i => (s.slot i).fileWord
  | .slotCursor i => (s.slot i).cursorWord
  | .slotCount i => (s.slot i).countWord
  | .slotFpos i => (s.slot i).fposWord
  | .freq v => entry s.freq v 0
  | .dataIn i => windowWord s.dataIn i
  | .dataOut i => windowWord s.dataOut i
  | .codeLen i => windowWord s.codeLen i
  | .codeBits v m => (entry s.codeBits v 0).extractLsb' (32 * m) 32
  | .reserved => 0

/-- What a register reads as while BUSY = 1, given an open word (R372): the first group of the rule reads as any value,
the second exactly. -/
def State.busyRegValue (s : State) (any : Word) : Reg → Word
  | .id => Config.idValue
  | .cmd => 0
  | .status => s.status.busyWord any
  | .arg0 => s.arg0
  | .arg1 => s.arg1
  | .resultBits => any
  | .config => s.stop.bit.setWidth 32
  | .streamInfo => any
  | .totalLo => any
  | .totalHi => any
  | .treeInfo => any
  | .slotFile _ => any
  | .slotCursor _ => any
  | .slotCount _ => any
  | .slotFpos _ => any
  | .freq _ => any
  | .dataIn i => windowWord s.dataIn i
  | .dataOut _ => any
  | .codeLen _ => any
  | .codeBits _ _ => any
  | .reserved => 0

/-- R91, R93, R95: `HostRead32`: the register's value is the response and no register changes. A read while BUSY = 1
uses up one open word. -/
def hostRead (r : Reg) (s : State) : State :=
  if s.status.busy then
    { s with response := .data (s.busyRegValue (Config.busyWord s.taken) r), taken := s.taken + 1 }
  else { s with response := .data (s.regValue r) }

/-- The stop rule that bit 0 of a value written to CONFIG selects (R58). -/
def stopOfWord (v : Word) : StopRule := if v.getLsbD 0 then .eofOnly else .symbolCount

/-- What a write of v to a register does to the block (R91, R93, R95): the RW registers take v, at any time; a write to
CMD submits a command word; writes to RO registers and reserved offsets are ignored. -/
def writeReg (v : Word) (s : State) : Reg → State
  | .id => s
  | .cmd => submit v s
  | .status => s
  | .arg0 => { s with arg0 := v }
  | .arg1 => { s with arg1 := v }
  | .resultBits => s
  | .config => { s with stop := stopOfWord v }
  | .streamInfo => s
  | .totalLo => s
  | .totalHi => s
  | .treeInfo => s
  | .slotFile _ => s
  | .slotCursor _ => s
  | .slotCount _ => s
  | .slotFpos _ => s
  | .freq _ => s
  | .dataIn i => { s with dataIn := setWindowWord s.dataIn i v }
  | .dataOut _ => s
  | .codeLen _ => s
  | .codeBits _ _ => s
  | .reserved => s

/-- R91: `HostWrite32`. -/
def hostWrite (r : Reg) (v : Word) (s : State) : State := { writeReg v s r with response := .written }

/-- R92: "answered with a bus error response and has no effect on any state". -/
def busError (s : State) : State := { s with response := .busError }

/-- R91, R92: the accesses the block takes: 32-bit ones at a 4-aligned offset. -/
def legalAccess (w : Width) (off : Nat) : Bool := w = .word && off % 4 == 0

/-- The bus address of a window offset (R90). -/
def busAddress (off : Nat) : Nat := Config.blockBase + off

/-- The window offset of a bus address, if it lies in the window (R90). -/
def offsetOf (addr : Nat) : Option Nat :=
  if Config.blockBase ≤ addr ∧ addr < Config.blockBase + Config.regWindow then some (addr - Config.blockBase) else none

end Sys2Proof.Machine
end

