-- ==== Sys2Proof/Machine/Run.lean ====
section
/-! DEFINITION. How the agents take turns (spec/00_scope.md rules R4, R8): the core's transition on the latched command,
the host's accesses, the reset input, and changes of storage by other agents, as the step performs them. -/

namespace Sys2Proof.Machine

/-- The completions R320's table lists for a command: each error it can raise with the phases that can report it. -/
def completions : Instr → List (ErrCode × Phase)
  | .bsOpen _ _ => [(.noError, .idle), (.io, .idle)]
  | .bsWrite _ => [(.noError, .idle), (.notOpen, .idle), (.invalidMode, .idle), (.xferLen, .idle)]
  | .bsFlush _ => [(.noError, .idle), (.notOpen, .idle), (.invalidMode, .idle), (.io, .idle)]
  | .bsRead _ => [(.noError, .idle), (.notOpen, .idle), (.invalidMode, .idle), (.xferLen, .idle), (.io, .idle)]
  | .bsRewind _ => [(.noError, .idle), (.notOpen, .idle), (.invalidMode, .idle)]
  | .bsClear _ => [(.noError, .idle), (.notOpen, .idle), (.invalidMode, .idle), (.io, .idle)]
  | .encodeFile =>
    [(.noError, .done), (.aliased, .setup), (.io, .setup), (.io, .count), (.countOverflow, .count),
     (.io, .encodeBody), (.protocol, .encodeBody), (.io, .flush)]
  | .decodeFile =>
    [(.noError, .done), (.aliased, .setup), (.io, .setup), (.io, .readHeader), (.malformedHeader, .readHeader),
     (.io, .decodeBody), (.malformedHeader, .decodeBody), (.io, .flush)]

/-- The files a command's slots are bound to while it runs (R370; notes/assumptions/12.md). A session with fin = fout is
bound to none: it ends with ALIAS before a slot opens (R261, R269 (g)). -/
def boundFiles (i : Instr) (s : State) : List FileId :=
  match i with
  | .bsOpen _ _ => [s.operandFile]
  | .bsWrite j | .bsFlush j | .bsRead j | .bsRewind j | .bsClear j =>
    if (s.slot j).mode = .closed then [] else [(s.slot j).file]
  | .encodeFile | .decodeFile =>
    if s.operandFile = s.operandOutFile then [] else [s.operandFile, s.operandOutFile]

/-- The file a command reads from storage, if any. -/
def sourceFile (i : Instr) (s : State) : Option FileId :=
  match i with
  | .bsRead j => if (s.slot j).mode = .read then some (s.slot j).file else none
  | .encodeFile | .decodeFile => some s.operandFile
  | .bsOpen _ _ | .bsWrite _ | .bsFlush _ | .bsRewind _ | .bsClear _ => none

/-- The file a command writes in storage, if any. -/
def targetFile (i : Instr) (s : State) : Option FileId :=
  match i with
  | .bsFlush j | .bsClear j => if (s.slot j).mode = .write then some (s.slot j).file else none
  | .encodeFile | .decodeFile => some s.operandOutFile
  | .bsOpen _ _ | .bsWrite _ | .bsRead _ | .bsRewind _ => none

/-- A file's contents replaced, if the file exists. -/
def Memory.replace (m : Memory) (f : Option FileId) (bytes : List Byte) : Memory :=
  match f with
  | none => m
  | some f => if (m.lookup f).isSome then m.update f bytes else m

/-- The files after a raced command that left m: the source is what the other agent made it, the target any bytes. -/
def racedFiles (i : Instr) (s : State) (m : Memory) : Memory :=
  let kept := match sourceFile i s with
    | none => m
    | some f => m.replace (some f) (s.files.contents f)
  kept.replace (targetFile i s) (Config.unspecifiedBytes (s.taken + 1))

/-- One of the listed completions, by an open number. -/
def pickCompletion (i : Instr) (n : Nat) : ErrCode × Phase :=
  (completions i).getD (n % (completions i).length) (.noError, .idle)

/-- R370: the outcome of a command while another agent changed a file it is bound to "is unspecified: it may complete
with any ERR among those the command can raise ... and leave fout holding any byte sequence". The command runs over
open contents of its source file, as far as an open number of its requests, and completes with an open choice. -/
def racedOutcome (i : Instr) (s : State) : Host.Outcome State Fault Refusal :=
  let n := s.taken
  match exec i { s with
      files := s.files.replace (sourceFile i s) (Config.unspecifiedBytes n)
      io := s.io.cutAfter (Config.raceReach n)
      taken := n + 2 } with
  | .next t =>
    let c := pickCompletion i (Config.racePick n)
    .next { t with
      files := racedFiles i s t.files
      io := s.io.skip (t.io.asked - s.io.asked)
      status := s.status.completed c.1 c.2 }
  | .fault r => .fault r
  | .refused r => .refused r

/-- The core's transition (R8): the latched command runs from acceptance to completion. An undecodable latch, which no
acceptance leaves, completes as an illegal word does. -/
def runLatched (s : State) : Host.Outcome State Fault Refusal :=
  match decodeFields s.latchedFields with
  | .ok i => if s.raced then racedOutcome i s else exec i s
  | .error _ => .next (complete .illegalCmd .idle s)

/-- R362: what a reset finds of a running command: the files after the requests completed before it. Where another agent
has raced the command (R370), which of the two rules governs is open, and the model takes the free values of R370 over the
cut requests, also where no request came before the reset (DESIGN CHOICE, notes/assumptions/11.md and 12.md). -/
def cutShort (k : Nat) (s : State) : Host.Outcome State Fault Refusal :=
  match runLatched { s with io := s.io.cutAfter k } with
  | .next t => .next { s with files := t.files, io := s.io.skip k, taken := t.taken }
  | .fault r => .fault r
  | .refused r => .refused r

/-- R360, R362: the reset input. -/
def resetInput (k : Nat) (s : State) : Host.Outcome State Fault Refusal :=
  if s.status.busy then
    match cutShort k s with
    | .next t => .next (blockReset t)
    | .fault r => .fault r
    | .refused r => .refused r
  else .next (blockReset s)

/-- R370: whether a file is bound to the running command. -/
def boundNow (s : State) (f : FileId) : Bool :=
  s.status.busy && match decodeFields s.latchedFields with
    | .ok i => (boundFiles i s).contains f
    | .error _ => false

/-- Another agent sets a file (R364, R370). Whether setting a bound file to the very bytes it holds is a change is open
(R268 "unchanged", R370 "change any file"); the model counts it as one (DESIGN CHOICE, notes/assumptions/12.md). -/
def changeFile (f : FileId) (bytes : List Byte) (s : State) : State :=
  { s with files := s.files.update f bytes, raced := s.raced || boundNow s f }

/-- One input, the state already holding only the inputs after it. `again` is the state with this input still to come:
a `wait` that finds BUSY = 1 stays, and the core takes its turn. -/
def handle (x : Input) (s again : State) : Host.Outcome State Fault Refusal :=
  match x with
  | .read w off =>
    if off ≥ Config.regWindow then .fault .outsideWindow
    else .next (if legalAccess w off then hostRead (regAt off) s else busError s)
  | .write w off v =>
    if off ≥ Config.regWindow then .fault .outsideWindow
    else .next (if legalAccess w off then hostWrite (regAt off) v s else busError s)
  | .wait => if s.status.busy then runLatched again else .next (hostRead .status s)
  | .core => if s.status.busy then runLatched s else .next s
  | .reset k => resetInput k s
  | .fileChange f bytes => .next (changeFile f bytes s)

/-- R343, R363: with nothing to come, the running command runs; "While BUSY = 0 it does nothing". -/
def idleStep (s : State) : Host.Outcome State Fault Refusal :=
  if s.status.busy then runLatched s else .next s

/-- The inputs that let the core take its turn first. -/
def coreFirst : List Input → List Input
  | [] => []
  | x :: later => .core :: x :: later

/-- The state in which the command word w has just been written to CMD and accepted, the core's turn coming first; for
an illegal word, which completes at its acceptance, the state in which its CMD write comes first. -/
def submitted (w : Word) (s : State) : State :=
  match decode w with
  | .ok _ => { accept w s with inputs := coreFirst s.inputs }
  | .error _ =>
    { s with status := { s.status with busy := false }, inputs := .write .word 0x0004 w :: s.inputs }

end Sys2Proof.Machine
end

