-- ==== Sys2Proof/Machine/Step.lean ====
section
/-! DEFINITION. One step of the machine: the next input, or the core's turn if none is to come. -/

namespace Sys2Proof.Machine

/-- One step: what comes next is handled (spec/00_scope.md rule R4, spec/20_memory.md rule R118). -/
def step (s : State) : Host.Outcome State Fault Refusal :=
  match s.inputs with
  | [] => idleStep s
  | x :: later => handle x { s with inputs := later } s

/-- The state in which the next step runs the command word w (its low nbits bits): w has been written to CMD and
accepted (R328), and the core's transition comes next (notes/assumptions/8.md). -/
def State.withFetchWord (s : State) (nbits w : Nat) : State :=
  submitted (BitVec.ofNat 32 (w % 2 ^ nbits)) s

end Sys2Proof.Machine
end

