-- ==== Sys2Proof/Safety.lean ====
section
/-! DEFINITION. What the claims are stated in: the machine's invariants (spec/10_state.md rules R31 to R43), what is left
unchanged, the storage that never fails (spec/20_memory.md rule R106), and the pure functions the sessions are compared
with (spec/42_encoder.md rule R268, spec/43_decoder.md rule R294). -/

namespace Sys2Proof

/-- The other slot of the two. -/
def SlotId.other : SlotId → SlotId
  | .s0 => .s1
  | .s1 => .s0

end Sys2Proof

namespace Sys2Proof.Machine

/-! ## Invariants -/

/-- R31, R33, R34, R35: a slot's fields agree with its mode. WCUR is `len(ACC)` as far as 64 bits hold it. -/
def Slot.wf (x : Slot) : Prop :=
  match x.mode with
  | .closed => x = Slot.reset
  | .read =>
    x.buf.length = x.valid.toNat ∧ x.valid.toNat ≤ Config.readCap ∧ x.cur.toNat ≤ x.validBits ∧
    x.accRev = [] ∧ x.wcur = 0 ∧ x.wpos = 0
  | .write =>
    x.buf = [] ∧ x.valid = 0 ∧ x.cur = 0 ∧ x.fpos = 0 ∧
    (x.acc.length < 2 ^ 64 → x.wcur.toNat = x.acc.length)

/-- A slot with a stream is bound to a file that exists: files are opened or created by an open and "never removed"
(spec/20_memory.md rule R100). -/
def Slot.bound (x : Slot) (m : Memory) : Prop := x.mode ≠ .closed → (m.lookup x.file).isSome

/-- Between commands the session-transient state is at its reset value (R43), except STOP_L while a command is accepted
and not yet run. -/
def State.transientClear (s : State) : Prop :=
  s.walk = 0 ∧ s.emitted = 0 ∧ s.tree.work = [] ∧ (s.status.busy = false → s.stopL = .symbolCount)

/-- BUSY and DONE are never 1 together (R54), and a command that is running is one of the eight (R135). -/
def State.statusOk (s : State) : Prop :=
  ¬ (s.status.busy = true ∧ s.status.done = true) ∧
  (s.status.busy = true → ∃ i, decodeFields s.latchedFields = .ok i)

/-- The invariant of the machine between steps. -/
def State.Inv (s : State) : Prop :=
  s.files.wf ∧ s.slot0.wf ∧ s.slot1.wf ∧ s.slot0.bound s.files ∧ s.slot1.bound s.files ∧
  s.transientClear ∧ s.statusOk

/-- R40: "When LEAF_COUNT = L >= 1, NODE_COUNT = 2L - 1", and 0 when L = 0; L is at most 256. -/
def Tree.countsOk (t : Tree) : Prop :=
  t.leafCount.toNat ≤ 256 ∧ t.nodeCount.toNat = 2 * t.leafCount.toNat - 1

/-- R39: "Entries at index >= NODE_COUNT are unused and hold their reset value". -/
def Tree.unusedClear (t : Tree) : Prop :=
  ∀ i : NodeIx, t.nodeCount ≤ i → t.nodeAt i = Node.reset

/-- R41: the invariants of a built tree. -/
structure Tree.Shape (t : Tree) : Prop where
  /-- "leaves occupy NODE[0..LEAF_COUNT)" -/
  leaves : ∀ i : NodeIx, i < t.nodeCount → ((t.nodeAt i).leaf = true ↔ i < t.leafCount)
  /-- "in increasing SYM order" -/
  symsRise : ∀ i j : NodeIx, i < j → j < t.leafCount → (t.nodeAt i).sym < (t.nodeAt j).sym
  /-- "every internal node NODE[i] has LEFT < i and RIGHT < i and LEFT ≠ RIGHT" -/
  childrenBelow : ∀ i : NodeIx, i < t.nodeCount → t.leafCount ≤ i →
    (t.nodeAt i).left < i ∧ (t.nodeAt i).right < i ∧ (t.nodeAt i).left ≠ (t.nodeAt i).right
  /-- "every index below NODE_COUNT - 1 is the child of exactly one internal node" -/
  oneParent : ∀ i : NodeIx, i.toNat + 1 < t.nodeCount.toNat →
    ∃! p : NodeIx, (p < t.nodeCount ∧ t.leafCount ≤ p) ∧ ((t.nodeAt p).left = i ∨ (t.nodeAt p).right = i)
  /-- "an internal node's WEIGHT is the sum of its children's WEIGHTs" -/
  weights : ∀ i : NodeIx, i < t.nodeCount → t.leafCount ≤ i →
    (t.nodeAt i).weight.toNat =
      (t.nodeAt (t.nodeAt i).left).weight.toNat + (t.nodeAt (t.nodeAt i).right).weight.toNat

/-! ## What is left unchanged -/

/-- FREQ, TOTAL, the tree arena and the code table are the same. -/
def sameTables (s t : State) : Prop :=
  t.freq = s.freq ∧ t.total = s.total ∧ t.tree = s.tree ∧ t.codeLen = s.codeLen ∧ t.codeBits = s.codeBits

/-- The registers the host writes, and the latch, are the same. -/
def sameOperands (s t : State) : Prop :=
  t.arg0 = s.arg0 ∧ t.arg1 = s.arg1 ∧ t.stop = s.stop ∧ t.dataIn = s.dataIn ∧ t.latch = s.latch

/-- RESULT_BITS and DATA_OUT are the same. -/
def sameResults (s t : State) : Prop := t.resultBits = s.resultBits ∧ t.dataOut = s.dataOut

/-- WALK and EMITTED are the same. -/
def sameWalk (s t : State) : Prop := t.walk = s.walk ∧ t.emitted = s.emitted

/-- What is to come at the block, and its answer to the last host access, are the same. -/
def sameInputs (s t : State) : Prop := t.inputs = s.inputs ∧ t.response = s.response

/-- Every byte of every file, and which files exist, is the same. -/
def sameFiles (s t : State) : Prop :=
  (∀ f i, t.files.readByte f i = s.files.readByte f i) ∧ ∀ f, (t.files.lookup f).isSome = (s.files.lookup f).isSome

/-- The same for every file but one. -/
def sameFilesBut (g : FileId) (s t : State) : Prop :=
  ∀ f, f ≠ g → (∀ i, t.files.readByte f i = s.files.readByte f i) ∧
    (t.files.lookup f).isSome = (s.files.lookup f).isSome

/-! ## What the host sees, and what a command needs -/

/-- The word a 32-bit host read at a window offset is answered with. -/
def State.hostReads (s : State) (off : Nat) : Option Word :=
  match step { s with inputs := [.read .word off] } with
  | .next t =>
    match t.response with
    | .data v => some v
    | .none | .written | .busError => none
  | .fault _ => none
  | .refused _ => none

/-- The slot and the mode that CheckSlot asks of a command (R160), if the command has that check. -/
def checkedSlot : Instr → Option (SlotId × Mode)
  | .bsWrite j | .bsFlush j | .bsClear j => some (j, .write)
  | .bsRead j | .bsRewind j => some (j, .read)
  | .bsOpen _ _ | .encodeFile | .decodeFile => none

/-- ENCODE and DECODE (spec/00_scope.md rule R17, "session"). -/
def isSession : Instr → Bool
  | .encodeFile | .decodeFile => true
  | .bsOpen _ _ | .bsWrite _ | .bsFlush _ | .bsRead _ | .bsRewind _ | .bsClear _ => false

/-- The end of a command with an error or none, in a phase, over the state s: the five fields of STATUS as rule R330
writes them, STOP_L back to 0, and nothing else. -/
def ended (e : ErrCode) (p : Phase) (s : State) : State :=
  { s with
    status := { busy := false, done := true, ovr := s.status.ovr, err := e, phase := p }
    stopL := .symbolCount
    raced := false }

/-! ## The storage that never fails, and coherent readers -/

/-- R106: "the oracle chooses no failure" for any request to come. -/
def IoOracle.neverFails (o : IoOracle) : Prop := ∀ k, ((o.skip k).next).1 = .done

/-- The bits of a file in stream order (R110): bit k is `FILES[f][k div 8][k mod 8]`. -/
def fileBits (bytes : List Byte) : BitSeq := bytes.flatMap bitsOf

/-- R33: the stream position of a read slot, "the index of the next bit of the file it delivers". -/
def Slot.position (x : Slot) : Nat := (x.fpos.toNat - x.valid.toNat) * 8 + x.cur.toNat

/-- A read slot whose staging buffer holds what its file still holds (R175: the file "has not changed since the slot was
opened or last rewound"). -/
def Slot.coherent (x : Slot) (bytes : List Byte) : Prop :=
  x.mode = .read ∧ x.wf ∧ x.valid.toNat ≤ x.fpos.toNat ∧ x.fpos.toNat ≤ bytes.length ∧
  x.buf = (bytes.drop (x.fpos.toNat - x.valid.toNat)).take x.valid.toNat

/-! ## The sessions as pure functions -/

/-- The symbols a walk of the tree emits on the bits of a body (R294 to R299), stopping after `limit` symbols if a limit
is given; none where a bit is read of an empty tree (MALFORMED_HEADER, R298). -/
def walkBits (t : Tree) (limit : Option Nat) : NodeIx → Nat → BitSeq → Option (List Byte)
  | _, _, [] => some []
  | i, n, b :: bs =>
    if limit = some n then some []
    else if t.nodeCount = 0 then none
    else if t.leafCount = 1 then (walkBits t limit i (n + 1) bs).map ((t.nodeAt 0).sym :: ·)
    else if (t.nodeAt (t.child i b)).leaf then
      (walkBits t limit t.root (n + 1) bs).map ((t.nodeAt (t.child i b)).sym :: ·)
    else walkBits t limit (t.child i b) n bs

/-- The limit a stop rule sets for a table of counts (R295). -/
def stopLimit (r : StopRule) (freq : Vector Word 256) : Option Nat :=
  match r with
  | .symbolCount => some (freqSum freq)
  | .eofOnly => none

/-- What DECODE makes of an encoded file of at least 1024 bytes: the symbols it writes, or none for
MALFORMED_HEADER (R292 to R299). -/
def decodedFile (r : StopRule) (bytes : List Byte) : Option (List Byte) :=
  let freq := parseHeader (bytes.take 1024)
  let t := Tree.build freq
  walkBits t (stopLimit r freq) t.root 0 (fileBits (bytes.drop 1024))

/-- The bits a are the first bits of b. -/
def isPrefixOf (a b : BitSeq) : Prop := ∃ c, b = a ++ c

end Sys2Proof.Machine
end

