-- ==== Sys2Proof/Certificates/Slice0/Obligations.lean ====
section
/-! DEFINITION. The statements for the provers: what the block does, rule by rule. Each docstring names the rules of
spec/ it formalises. `ended e p s` (Sys2Proof/Safety.lean) is the end of a command over the state s: STATUS written as
rule R330 says, STOP_L cleared, nothing else. -/

open Sys2Proof Sys2Proof.Machine

/-! ## Command words -/

/-- R133, "The full command words": the eleven words decode to their commands. -/
def Obligations.DecodeOfSpecWords : Prop :=
  decode 0x001 = .ok (.bsOpen .s0 .read) ∧ decode 0x101 = .ok (.bsOpen .s1 .read) ∧
  decode 0x201 = .ok (.bsOpen .s0 .write) ∧ decode 0x301 = .ok (.bsOpen .s1 .write) ∧
  decode 0x002 = .ok (.bsWrite .s0) ∧ decode 0x102 = .ok (.bsWrite .s1) ∧
  decode 0x003 = .ok (.bsFlush .s0) ∧ decode 0x103 = .ok (.bsFlush .s1) ∧
  decode 0x004 = .ok (.bsRead .s0) ∧ decode 0x104 = .ok (.bsRead .s1) ∧
  decode 0x005 = .ok (.bsRewind .s0) ∧ decode 0x105 = .ok (.bsRewind .s1) ∧
  decode 0x006 = .ok (.bsClear .s0) ∧ decode 0x106 = .ok (.bsClear .s1) ∧
  decode 0x010 = .ok .encodeFile ∧ decode 0x011 = .ok .decodeFile

/-- R133: a word selects a command exactly when it agrees with the command's match under its mask, with S and D the
command's operands; and the command's word is its match with S at bit 8 and D at bit 9. -/
def Obligations.MaskAndMatchSelectCommand : Prop :=
  (∀ (w : Word) (i : Instr), decode w = .ok i ↔
    (w &&& maskOf i = matchOf i ∧ w.extractLsb' 8 1 = slotBitOf i ∧ w.extractLsb' 9 1 = dirBitOf i)) ∧
  ∀ i : Instr, encode i = matchOf i ||| ((slotBitOf i).setWidth 32 <<< 8) ||| ((dirBitOf i).setWidth 32 <<< 9)

/-- Decode and encode agree on every instruction and on every legal word (from R133 and R135). -/
def Obligations.DecodeAndEncodeAgree : Prop :=
  (∀ i : Instr, i.wellFormed = true → decode (encode i) = .ok i) ∧
  ∀ (w : Word) (i : Instr), decode w = .ok i → encode i = w

/-- R134 and R321: the illegal words are exactly those the rule lists, and an illegal word written to CMD while
BUSY = 0 completes at once with ILLEGAL_CMD and PHASE = IDLE; beside STATUS only the latch (R328) changes. -/
def Obligations.IllegalWordCompletesAtOnce : Prop :=
  (∀ w : Word, (∃ r, decode w = .error r) ↔
    ((w.extractLsb' 0 8 = 0x00 ∨ (0x07 ≤ (w.extractLsb' 0 8).toNat ∧ (w.extractLsb' 0 8).toNat ≤ 0x0F) ∨
        0x12 ≤ (w.extractLsb' 0 8).toNat) ∨
      w.extractLsb' 10 22 ≠ 0 ∨
      ((0x02 ≤ (w.extractLsb' 0 8).toNat ∧ (w.extractLsb' 0 8).toNat ≤ 0x06) ∧ w.extractLsb' 9 1 = 1) ∨
      ((w.extractLsb' 0 8 = 0x10 ∨ w.extractLsb' 0 8 = 0x11) ∧
        (w.extractLsb' 8 1 = 1 ∨ w.extractLsb' 9 1 = 1)))) ∧
  ∀ (s : State) (w : Word) (r : Reject) (later : List Input), s.status.busy = false → decode w = .error r →
    s.inputs = .write .word 0x0004 w :: later →
    ∃ l : Latch, step s = .next { s with
      latch := l
      stopL := .symbolCount
      status := { busy := false, done := true, ovr := false, err := .illegalCmd, phase := .idle }
      raced := false
      inputs := later
      response := .written }

/-! ## Steps: acceptance, the core's transition, the host's accesses -/

/-- On the core's turn a step is exec of the instruction the latch decodes to (R4, R8). When the core's turn comes is the
model's choice: with nothing to come, at a `core` of the list (notes/assumptions/7.md), and at a `wait`, which stays to
come (R145; notes/assumptions/13.md). -/
def Obligations.StepRunsLatchedInstruction : Prop :=
  ∀ (s : State) (i : Instr), s.status.busy = true → s.raced = false → decodeFields s.latchedFields = .ok i →
    (s.inputs = [] → step s = exec i s) ∧
    (∀ later, s.inputs = .core :: later → step s = exec i { s with inputs := later }) ∧
    (∀ later, s.inputs = .wait :: later → step s = exec i s)

/-- A state with a legal command word placed by withFetchWord runs exactly that instruction next, as accepted (R328). How
a word comes to run is the model's choice, notes/assumptions/8.md. -/
def Obligations.PlacedWordRunsNext : Prop :=
  ∀ (s : State) (n : Nat) (i : Instr), decodeTableWord 32 n = some i →
    step (s.withFetchWord 32 n) = exec i (accept (BitVec.ofNat 32 (n % 2 ^ 32)) s)

/-- R328: a CMD write while BUSY = 0 is accepted: the latch takes the word's fields and the operand registers, STOP_L
takes CONFIG.STOP, STATUS takes the acceptance values; then the command the word selects runs, or the command completes
with ILLEGAL_CMD. Nothing else changes at acceptance. That the command runs in a later step is the model's choice
(notes/assumptions/7.md), and that an illegal word leaves the latch written is read from R328 against R134 and R321
(notes/assumptions/17.md). -/
def Obligations.CmdWriteIsAccepted : Prop :=
  ∀ (s : State) (w : Word) (later : List Input), s.status.busy = false →
    s.inputs = .write .word 0x0004 w :: later →
    (∀ i, decode w = .ok i →
      ∃ t, step s = .next t ∧
        t = { s with
          latch := { op := w.extractLsb' 0 8, s := w.extractLsb' 8 1, d := w.extractLsb' 9 1,
                     arg0 := s.arg0, arg1 := s.arg1, datIn := s.dataIn }
          stopL := s.stop
          status := { busy := true, done := false, ovr := false, err := .noError, phase := .idle }
          raced := false
          inputs := later
          response := .written } ∧
        decodeFields t.latchedFields = .ok i ∧
        (later = [] ∨ (∃ rest, later = .core :: rest) → step t = exec i { t with inputs := later.tail })) ∧
    (∀ r, decode w = .error r →
      step s = .next { s with
          latch := { op := w.extractLsb' 0 8, s := w.extractLsb' 8 1, d := w.extractLsb' 9 1,
                     arg0 := s.arg0, arg1 := s.arg1, datIn := s.dataIn }
          stopL := .symbolCount
          status := { busy := false, done := true, ovr := false, err := .illegalCmd, phase := .idle }
          raced := false
          inputs := later
          response := .written })

/-- R329: a CMD write while BUSY = 1 is lost and sets OVR, and OVR stays 1 until the next acceptance (or a reset). -/
def Obligations.CmdWriteWhileBusyIsLost : Prop :=
  (∀ (s : State) (w : Word) (later : List Input), s.status.busy = true →
    s.inputs = .write .word 0x0004 w :: later →
    step s = .next { s with status := { s.status with ovr := true }, inputs := later, response := .written }) ∧
  ∀ s t : State, s.status.ovr = true → step s = .next t →
    t.status.ovr = true ∨ (∃ k later, s.inputs = .reset k :: later) ∨
      (s.status.busy = false ∧ ∃ w later, s.inputs = .write .word 0x0004 w :: later)

/-- R330: every command completes, with BUSY = 0, DONE = 1, OVR kept, STOP_L = 0, and one of the pairs of error and
phase that rules R320 and R140 list for it; and so does a command raced by another agent (R370, "any ERR among those the
command can raise"; its other free values are the model's, notes/assumptions/12.md). -/
def Obligations.EveryCommandCompletes : Prop :=
  ∀ i : Instr,
    let pairs : List (ErrCode × Phase) := match i with
      | .bsOpen _ _ => [(.noError, .idle), (.io, .idle)]
      | .bsWrite _ => [(.noError, .idle), (.notOpen, .idle), (.invalidMode, .idle), (.xferLen, .idle)]
      | .bsFlush _ => [(.noError, .idle), (.notOpen, .idle), (.invalidMode, .idle), (.io, .idle)]
      | .bsRead _ =>
        [(.noError, .idle), (.notOpen, .idle), (.invalidMode, .idle), (.xferLen, .idle), (.io, .idle)]
      | .bsRewind _ => [(.noError, .idle), (.notOpen, .idle), (.invalidMode, .idle)]
      | .bsClear _ => [(.noError, .idle), (.notOpen, .idle), (.invalidMode, .idle), (.io, .idle)]
      | .encodeFile =>
        [(.noError, .done), (.aliased, .setup), (.io, .setup), (.io, .count), (.countOverflow, .count),
         (.io, .encodeBody), (.protocol, .encodeBody), (.io, .flush)]
      | .decodeFile =>
        [(.noError, .done), (.aliased, .setup), (.io, .setup), (.io, .readHeader), (.malformedHeader, .readHeader),
         (.io, .decodeBody), (.malformedHeader, .decodeBody), (.io, .flush)]
    (∀ s : State, ∃ t, exec i s = .next t ∧
      t.status.busy = false ∧ t.status.done = true ∧ t.status.ovr = s.status.ovr ∧ t.stopL = .symbolCount ∧
      (t.status.err, t.status.phase) ∈ pairs) ∧
    ∀ s : State, s.status.busy = true → s.raced = true → decodeFields s.latchedFields = .ok i →
      (s.inputs = [] ∨ ∃ later, s.inputs = .core :: later) →
      ∃ t, step s = .next t ∧
        t.status.busy = false ∧ t.status.done = true ∧ t.status.ovr = s.status.ovr ∧ t.stopL = .symbolCount ∧
        t.raced = false ∧ (t.status.err, t.status.phase) ∈ pairs

/-- R332: whatever the outcome, a session leaves both slots at their reset value and WALK and EMITTED at 0; a stream
command other than BS_OPEN leaves every slot in its mode and on its file. -/
def Obligations.SessionsCloseSlotsStreamsDoNot : Prop :=
  (∀ (i : Instr) (s t : State), isSession i = true → exec i s = .next t →
    t.slot0 = Slot.reset ∧ t.slot1 = Slot.reset ∧ t.walk = 0 ∧ t.emitted = 0) ∧
  ∀ (i : Instr) (j : SlotId) (m : Mode) (s t : State), checkedSlot i = some (j, m) → exec i s = .next t →
    ∀ k, (t.slot k).mode = (s.slot k).mode ∧ (t.slot k).file = (s.slot k).file

/-- R92: a byte, halfword or wider access, or one at an offset that is not 4-aligned, gets a bus error and changes
nothing. -/
def Obligations.OddAccessGetsBusError : Prop :=
  ∀ (s : State) (wd : Width) (off : Nat) (v : Word) (later : List Input), off < 0x4000 →
    (wd ≠ .word ∨ off % 4 ≠ 0) →
    (s.inputs = .read wd off :: later ∨ s.inputs = .write wd off v :: later) →
    step s = .next { s with inputs := later, response := .busError }

/-- R93: CMD and the reserved offsets read 0; a read changes no register and asks no storage; writes to RO registers and
reserved offsets change nothing; a write to ARG0, ARG1 or CONFIG changes that register alone (R95: also while BUSY). The
count `taken` is the model's, notes/assumptions/5.md. -/
def Obligations.HostAccessesHaveNoSideEffects : Prop :=
  (∀ (s : State) (off : Nat),
    (off = 0x0004 ∨ off = 0x002C ∨ (0x0050 ≤ off ∧ off < 0x0400) ∨ (0x1100 ≤ off ∧ off < 0x2000)) →
    off % 4 = 0 → s.hostReads off = some 0) ∧
  (∀ (s : State) (off : Nat) (later : List Input), off < 0x4000 → off % 4 = 0 →
    s.inputs = .read .word off :: later →
    ∃ v n, s.hostReads off = some v ∧
      step s = .next { s with inputs := later, response := .data v, taken := n }) ∧
  (∀ (s : State) (off : Nat) (v : Word) (later : List Input), off < 0x4000 → off % 4 = 0 →
    ¬ (off = 0x0004 ∨ off = 0x000C ∨ off = 0x0010 ∨ off = 0x0018 ∨ (0x0800 ≤ off ∧ off < 0x0C00)) →
    s.inputs = .write .word off v :: later →
    step s = .next { s with inputs := later, response := .written }) ∧
  ∀ (s : State) (v : Word) (later : List Input),
    (s.inputs = .write .word 0x000C v :: later →
      step s = .next { s with inputs := later, response := .written, arg0 := v }) ∧
    (s.inputs = .write .word 0x0010 v :: later →
      step s = .next { s with inputs := later, response := .written, arg1 := v }) ∧
    (s.inputs = .write .word 0x0018 v :: later →
      step s = .next { s with
        inputs := later
        response := .written
        stop := if v.getLsbD 0 = true then .eofOnly else .symbolCount })

/-- R54, with the codes of R320 and R140: the STATUS word while BUSY = 0. -/
def Obligations.StatusWordLayout : Prop :=
  ∀ s : State, s.status.busy = false → ∃ v, s.hostReads 0x0008 = some v ∧
    v.getLsbD 0 = false ∧ v.getLsbD 1 = s.status.done ∧ v.getLsbD 2 = s.status.ovr ∧ v.getLsbD 3 = false ∧
    v.extractLsb' 4 4 = (match s.status.err with
      | .noError => 0 | .invalidMode => 1 | .io => 2 | .malformedHeader => 3 | .illegalCmd => 4
      | .notOpen => 5 | .xferLen => 6 | .countOverflow => 7 | .protocol => 8 | .aliased => 9) ∧
    v.extractLsb' 8 4 = (match s.status.phase with
      | .idle => 0 | .setup => 1 | .count => 2 | .build => 3 | .writeHeader => 4
      | .encodeBody => 5 | .readHeader => 6 | .decodeBody => 7 | .flush => 8 | .done => 9) ∧
    v.extractLsb' 12 20 = 0

/-- R62 to R65: the four registers of each slot while BUSY = 0, and after reset. -/
def Obligations.SlotRegistersReadTheSlots : Prop :=
  (∀ (s : State) (j : SlotId) (base : Nat), s.status.busy = false →
    ((j = .s0 ∧ base = 0x0030) ∨ (j = .s1 ∧ base = 0x0040)) →
    ((s.slot j).mode = .closed →
      s.hostReads base = some 0 ∧ s.hostReads (base + 4) = some 0 ∧ s.hostReads (base + 8) = some 0 ∧
      s.hostReads (base + 12) = some 0) ∧
    ((s.slot j).mode = .read →
      s.hostReads base = some (s.slot j).file ∧
      s.hostReads (base + 4) = some (BitVec.ofNat 32 (s.slot j).cur.toNat) ∧
      s.hostReads (base + 8) = some (BitVec.ofNat 32 (s.slot j).valid.toNat) ∧
      s.hostReads (base + 12) = some ((s.slot j).fpos.extractLsb' 0 32)) ∧
    ((s.slot j).mode = .write →
      s.hostReads base = some (s.slot j).file ∧
      s.hostReads (base + 4) = some ((s.slot j).wcur.extractLsb' 0 32) ∧
      s.hostReads (base + 8) = some (BitVec.ofNat 32 (((s.slot j).wcur.toNat + 7) / 8)) ∧
      s.hostReads (base + 12) = some ((s.slot j).wpos.extractLsb' 0 32))) ∧
  ∀ k, k < 8 → State.reset.hostReads (0x0030 + 4 * k) = some 0

/-- R52, R55 to R61, R66, R68, R69, R70: the constant, the operand, result, configuration, mode, total and tree registers,
and the FREQ, DATA_OUT, CODE_LEN and CODE_BITS windows while BUSY = 0, with the mode codes of R31; and after reset. -/
def Obligations.TableWindowsReadTheTables : Prop :=
  (∀ s : State, s.status.busy = false →
    s.hostReads 0x0000 = some 0x48554646 ∧
    s.hostReads 0x000C = some s.arg0 ∧ s.hostReads 0x0010 = some s.arg1 ∧ s.hostReads 0x0014 = some s.resultBits ∧
    s.hostReads 0x0018 = some (if s.stop = .eofOnly then 1 else 0) ∧
    (∃ v, s.hostReads 0x001C = some v ∧
      v.extractLsb' 0 2 = (match s.slot0.mode with | .closed => 0 | .read => 1 | .write => 2) ∧
      v.extractLsb' 2 2 = (match s.slot1.mode with | .closed => 0 | .read => 1 | .write => 2) ∧
      v.extractLsb' 4 28 = 0) ∧
    s.hostReads 0x0020 = some (s.total.extractLsb' 0 32) ∧ s.hostReads 0x0024 = some (s.total.extractLsb' 32 32) ∧
    (∃ v, s.hostReads 0x0028 = some v ∧ v.extractLsb' 0 9 = s.tree.leafCount ∧ v.extractLsb' 9 7 = 0 ∧
      v.extractLsb' 16 9 = s.tree.nodeCount ∧ v.extractLsb' 25 7 = 0) ∧
    (∀ v : Nat, v < 256 → ∃ x, s.freq[v]? = some x ∧ s.hostReads (0x0400 + 4 * v) = some x) ∧
    (∀ j : Nat, j < 256 → ∃ w, s.hostReads (0x0C00 + 4 * j) = some w ∧
      ∀ k, k < 4 → s.dataOut[4 * j + k]? = some (w.extractLsb' (8 * k) 8)) ∧
    (∀ j : Nat, j < 64 → ∃ w, s.hostReads (0x1000 + 4 * j) = some w ∧
      ∀ k, k < 4 → s.codeLen[4 * j + k]? = some (w.extractLsb' (8 * k) 8)) ∧
    (∀ v m : Nat, v < 256 → m < 8 → ∃ x, s.codeBits[v]? = some x ∧
      s.hostReads (0x2000 + 32 * v + 4 * m) = some (x.extractLsb' (32 * m) 32))) ∧
  (State.reset.hostReads 0x0000 = some 0x48554646 ∧
    (∀ off, off ∈ [0x000C, 0x0010, 0x0014, 0x0018, 0x001C, 0x0020, 0x0024, 0x0028] →
      State.reset.hostReads off = some 0) ∧
    (∀ v, v < 256 → State.reset.hostReads (0x0400 + 4 * v) = some 0) ∧
    (∀ j, j < 256 → State.reset.hostReads (0x0C00 + 4 * j) = some 0) ∧
    (∀ j, j < 64 → State.reset.hostReads (0x1000 + 4 * j) = some 0) ∧
    ∀ k, k < 2048 → State.reset.hostReads (0x2000 + 4 * k) = some 0)

/-- R67: a write to a word of DATA_IN puts its bytes in their lanes and changes nothing else, also while BUSY = 1 (R95);
the word reads back; the core never writes DATA_IN; it is 0 after reset. -/
def Obligations.DataInIsWrittenByTheHostOnly : Prop :=
  (∀ (s : State) (j : Nat) (v : Word) (later : List Input), j < 256 →
    s.inputs = .write .word (0x0800 + 4 * j) v :: later →
    ∃ t, step s = .next t ∧ t = { s with inputs := later, response := .written, dataIn := t.dataIn } ∧
      (∀ k, k < 4 → t.dataIn[4 * j + k]? = some (v.extractLsb' (8 * k) 8)) ∧
      (∀ i : Nat, i < 4 * j ∨ 4 * j + 4 ≤ i → t.dataIn[i]? = s.dataIn[i]?) ∧
      t.hostReads (0x0800 + 4 * j) = some v) ∧
  (∀ (i : Instr) (s t : State), exec i s = .next t → t.dataIn = s.dataIn) ∧
  ∀ i : Nat, i < 1024 → State.reset.dataIn[i]? = some 0

/-- R372: what reads exactly while BUSY = 1. What the other registers read as is open (notes/assumptions/5.md). -/
def Obligations.BusyReadsThatAreExact : Prop :=
  ∀ s : State, s.status.busy = true →
    s.hostReads 0x0000 = some 0x48554646 ∧
    (∃ v, s.hostReads 0x0008 = some v ∧ v.getLsbD 0 = true ∧ v.getLsbD 2 = s.status.ovr ∧ v.getLsbD 3 = false ∧
      v.extractLsb' 12 20 = 0) ∧
    s.hostReads 0x000C = some s.arg0 ∧ s.hostReads 0x0010 = some s.arg1 ∧
    s.hostReads 0x0018 = some (if s.stop = .eofOnly then 1 else 0) ∧
    (∀ j, j < 256 → ∃ w, s.hostReads (0x0800 + 4 * j) = some w ∧
      ∀ k, k < 4 → s.dataIn[4 * j + k]? = some (w.extractLsb' (8 * k) 8)) ∧
    ∀ off, (off = 0x0004 ∨ off = 0x002C ∨ (0x0050 ≤ off ∧ off < 0x0400) ∨ (0x1100 ≤ off ∧ off < 0x2000)) →
      off % 4 = 0 → s.hostReads off = some 0

/-- R121, R44: the core reads its operands from the latch: other values in ARG0, ARG1, DATA_IN and CONFIG change nothing a
command does. -/
def Obligations.CommandIgnoresLaterOperandWrites : Prop :=
  ∀ (i : Instr) (s t : State) (a b : Word) (c : StopRule) (d : Vector Byte 1024), exec i s = .next t →
    exec i { s with arg0 := a, arg1 := b, stop := c, dataIn := d } =
      .next { t with arg0 := a, arg1 := b, stop := c, dataIn := d }

/-! ## Reset -/

/-- R75: every element of the block after reset, and the reads of ID and STATUS. -/
def Obligations.ResetValues : Prop :=
  (∀ j, State.reset.slot j =
    { mode := .closed, file := 0, buf := [], valid := 0, cur := 0, fpos := 0, accRev := [], wcur := 0, wpos := 0 }) ∧
  (∀ v : Nat, v < 256 → State.reset.freq[v]? = some 0) ∧ State.reset.total = 0 ∧
  (∀ n : Nat, n < 511 → State.reset.tree.node[n]? =
    some { weight := 0, leaf := false, sym := 0, left := 0, right := 0 }) ∧
  State.reset.tree.leafCount = 0 ∧ State.reset.tree.nodeCount = 0 ∧ State.reset.tree.work = [] ∧
  (∀ v : Nat, v < 256 → State.reset.codeLen[v]? = some 0) ∧
  (∀ v : Nat, v < 256 → State.reset.codeBits[v]? = some 0) ∧
  State.reset.walk = 0 ∧ State.reset.emitted = 0 ∧ State.reset.stopL = .symbolCount ∧
  State.reset.latch = { op := 0, s := 0, d := 0, arg0 := 0, arg1 := 0, datIn := Vector.replicate 1024 0 } ∧
  State.reset.hostReads 0x0000 = some 0x48554646 ∧ State.reset.hostReads 0x0008 = some 0 ∧
  State.reset.arg0 = 0 ∧ State.reset.arg1 = 0 ∧ State.reset.resultBits = 0 ∧ State.reset.stop = .symbolCount ∧
  (∀ i : Nat, i < 1024 → State.reset.dataIn[i]? = some 0) ∧
  ∀ i : Nat, i < 1024 → State.reset.dataOut[i]? = some 0

/-- R360, R361: the reset input, at any time, puts every element of the block at its reset value; no running command
completes; while BUSY = 0 no file changes. What it leaves of the inputs to come, the oracle and the count of free values,
which are not the block's, is the model's choice (notes/assumptions/2.md). -/
def Obligations.ResetInputResetsTheBlock : Prop :=
  (∀ (s : State) (k : Nat) (later : List Input), s.inputs = .reset k :: later →
    ∃ t, step s = .next t ∧
      t = { State.reset with files := t.files, io := t.io, taken := t.taken, inputs := later }) ∧
  ∀ (s : State) (k : Nat) (later : List Input), s.status.busy = false → s.inputs = .reset k :: later →
    step s = .next { State.reset with files := s.files, io := s.io, taken := s.taken, inputs := later }

/-- R362: a reset while a command runs leaves the files as a prefix of the command's requests left them. Nothing is
changed where no request came before it, and never a file that the command does not write (BS_OPEN for writing, BS_FLUSH,
BS_CLEAR and the sessions write one). Where storage does not fail, the one changing request of a stream command has been
performed or not; a session's output is as it was, or empty, or holds what the whole session would have written. Where
the command stops is the model's free choice k (notes/assumptions/11.md). -/
def Obligations.ResetDuringSessionLeavesPrefix : Prop :=
  ∀ (i : Instr) (s u : State) (k : Nat) (later : List Input), s.status.busy = true → s.raced = false →
    decodeFields s.latchedFields = .ok i → s.inputs = .reset k :: later → exec i s = .next u →
    ∃ t, step s = .next t ∧ t.status = Status.reset ∧
      (k = 0 → t.files = s.files) ∧
      (∀ f, some f ≠ (match i with
          | .bsOpen _ .write => some s.latch.arg0
          | .bsFlush j | .bsClear j => some (s.slot j).file
          | .encodeFile | .decodeFile => some s.latch.arg1
          | .bsOpen _ .read | .bsWrite _ | .bsRead _ | .bsRewind _ => none) →
        t.files.lookup f = s.files.lookup f) ∧
      (s.io.neverFails → isSession i = false → k ≠ 0 → t.files = u.files) ∧
      (s.io.neverFails → isSession i = true →
        t.files.lookup s.latch.arg1 = s.files.lookup s.latch.arg1 ∨ t.files.lookup s.latch.arg1 = some [] ∨
          t.files.lookup s.latch.arg1 = u.files.lookup s.latch.arg1)

/-! ## The stream commands -/

/-- R162: BS_OPEN closes the slot, then opens it afresh on ARG0 (a WRITE open creates an absent file empty and truncates
nothing), or leaves it closed with IO, where the storage fails or a READ open names no file. -/
def Obligations.BsOpenBindsTheSlot : Prop :=
  ∀ (s : State) (j : SlotId),
    (s.io.next.1 = .done → (s.files.lookup s.latch.arg0).isSome →
      exec (.bsOpen j .read) s = .next (ended .noError .idle
        { s.setSlot j { mode := .read, file := s.latch.arg0, buf := [], valid := 0, cur := 0, fpos := 0,
                        accRev := [], wcur := 0, wpos := 0 } with io := s.io.next.2 })) ∧
    (s.io.next.1 = .done →
      exec (.bsOpen j .write) s = .next (ended .noError .idle
        { s.setSlot j { mode := .write, file := s.latch.arg0, buf := [], valid := 0, cur := 0, fpos := 0,
                        accRev := [], wcur := 0, wpos := 0 } with
          io := s.io.next.2
          files := if (s.files.lookup s.latch.arg0).isSome then s.files
                   else s.files.update s.latch.arg0 [] })) ∧
    (∀ d, s.io.next.1 ≠ .done ∨ (d = .read ∧ s.files.lookup s.latch.arg0 = none) →
      exec (.bsOpen j d) s =
        .next (ended .io .idle { s.setSlot j Slot.reset with io := s.io.next.2 }))

/-- R164, R165: BS_WRITE refuses a closed slot, a read slot and a length over 8192, in that order, and else appends the
first ARG0 bits of DATA_IN to the accumulator and advances WCUR, with no storage request. The premise `wf` is the slot's
invariant (R34), and a bit counter of 64 bits is not exceeded (notes/assumptions/6.md). -/
def Obligations.BsWriteAppendsBits : Prop :=
  ∀ (s : State) (j : SlotId),
    ((s.slot j).mode = .closed → exec (.bsWrite j) s = .next (ended .notOpen .idle s)) ∧
    ((s.slot j).mode = .read → exec (.bsWrite j) s = .next (ended .invalidMode .idle s)) ∧
    ((s.slot j).mode = .write → 8192 < s.latch.arg0.toNat →
      exec (.bsWrite j) s = .next (ended .xferLen .idle s)) ∧
    ((s.slot j).mode = .write → s.latch.arg0.toNat ≤ 8192 → (s.slot j).wf →
      (s.slot j).acc.length + s.latch.arg0.toNat < 2 ^ 64 →
      ∃ x, exec (.bsWrite j) s = .next (ended .noError .idle (s.setSlot j x)) ∧
        x.acc.length = (s.slot j).acc.length + s.latch.arg0.toNat ∧
        (∀ p, p < (s.slot j).acc.length → x.acc[p]? = (s.slot j).acc[p]?) ∧
        (∀ k, k < s.latch.arg0.toNat → ∃ b, s.latch.datIn[k / 8]? = some b ∧
          x.acc[(s.slot j).acc.length + k]? = some (b.getLsbD (k % 8))) ∧
        x.wcur.toNat = x.acc.length ∧
        x.mode = .write ∧ x.file = (s.slot j).file ∧ x.wpos = (s.slot j).wpos)

/-- R166, R167: BS_FLUSH refuses a closed slot and a read slot; else it writes the packed accumulator at WPOS if it is
not empty, syncs, advances WPOS and empties the accumulator; on IO the slot is as it was and no file but the slot's
changes. -/
def Obligations.BsFlushWritesTheAccumulator : Prop :=
  ∀ (s : State) (j : SlotId),
    ((s.slot j).mode = .closed → exec (.bsFlush j) s = .next (ended .notOpen .idle s)) ∧
    ((s.slot j).mode = .read → exec (.bsFlush j) s = .next (ended .invalidMode .idle s)) ∧
    ((s.slot j).mode = .write → (s.slot j).acc = [] → s.io.next.1 = .done →
      exec (.bsFlush j) s = .next (ended .noError .idle
        ({ s with io := s.io.next.2 }.setSlot j { s.slot j with wcur := 0 }))) ∧
    ((s.slot j).mode = .write → (s.slot j).acc ≠ [] → s.io.next.1 = .done → s.io.next.2.next.1 = .done →
      (s.slot j).wpos.toNat + (pack (s.slot j).acc).length < 2 ^ 64 →
      exec (.bsFlush j) s = .next (ended .noError .idle
        ({ s with
            io := s.io.next.2.next.2
            files := s.files.update (s.slot j).file
              (splice (s.files.contents (s.slot j).file) (s.slot j).wpos.toNat (pack (s.slot j).acc)) }.setSlot j
          { s.slot j with
            accRev := []
            wcur := 0
            wpos := BitVec.ofNat 64 ((s.slot j).wpos.toNat + (pack (s.slot j).acc).length) }))) ∧
    ((s.slot j).mode = .write →
      s.io.next.1 ≠ .done ∨ ((s.slot j).acc ≠ [] ∧ s.io.next.2.next.1 ≠ .done) →
      ∃ t, exec (.bsFlush j) s = .next t ∧ t.status.err = .io ∧ t.status.phase = .idle ∧
        t.slot0 = s.slot0 ∧ t.slot1 = s.slot1 ∧
        ∀ f, f ≠ (s.slot j).file → t.files.lookup f = s.files.lookup f)

/-- R170: BS_CLEAR refuses a closed slot and a read slot; else it empties the slot's file and sets WPOS to 0, keeping the
accumulator; on IO the slot is as it was and no file but the slot's changes. -/
def Obligations.BsClearTruncatesTheFile : Prop :=
  ∀ (s : State) (j : SlotId),
    ((s.slot j).mode = .closed → exec (.bsClear j) s = .next (ended .notOpen .idle s)) ∧
    ((s.slot j).mode = .read → exec (.bsClear j) s = .next (ended .invalidMode .idle s)) ∧
    ((s.slot j).mode = .write → s.io.next.1 = .done →
      exec (.bsClear j) s = .next (ended .noError .idle
        ({ s with io := s.io.next.2, files := s.files.update (s.slot j).file [] }.setSlot j
          { s.slot j with wpos := 0 }))) ∧
    ((s.slot j).mode = .write → s.io.next.1 ≠ .done →
      ∃ t, exec (.bsClear j) s = .next t ∧ t.status.err = .io ∧ t.status.phase = .idle ∧
        t.slot0 = s.slot0 ∧ t.slot1 = s.slot1 ∧
        ∀ f, f ≠ (s.slot j).file → t.files.lookup f = s.files.lookup f)

/-- R178: BS_REWIND refuses a closed slot and a write slot; else it empties the staging buffer and returns the slot to
offset 0, with no storage request. -/
def Obligations.BsRewindReturnsToStart : Prop :=
  ∀ (s : State) (j : SlotId),
    ((s.slot j).mode = .closed → exec (.bsRewind j) s = .next (ended .notOpen .idle s)) ∧
    ((s.slot j).mode = .write → exec (.bsRewind j) s = .next (ended .invalidMode .idle s)) ∧
    ((s.slot j).mode = .read →
      exec (.bsRewind j) s = .next (ended .noError .idle
        (s.setSlot j { s.slot j with buf := [], valid := 0, cur := 0, fpos := 0 })))

/-- R174: the errors of BS_READ, in their order; on any error RESULT_BITS and DATA_OUT are not written. -/
def Obligations.BsReadErrorsKeepResults : Prop :=
  ∀ (s : State) (j : SlotId),
    ((s.slot j).mode = .closed → exec (.bsRead j) s = .next (ended .notOpen .idle s)) ∧
    ((s.slot j).mode = .write → exec (.bsRead j) s = .next (ended .invalidMode .idle s)) ∧
    ((s.slot j).mode = .read → 8192 < s.latch.arg0.toNat →
      exec (.bsRead j) s = .next (ended .xferLen .idle s)) ∧
    ((s.slot j).mode = .read → s.latch.arg0.toNat ≤ 8192 →
      (s.slot j).cur.toNat = 8 * (s.slot j).valid.toNat → s.io.next.1 ≠ .done →
      exec (.bsRead j) s = .next (ended .io .idle { s with io := s.io.next.2 })) ∧
    ∀ t, exec (.bsRead j) s = .next t → t.status.err ≠ .noError →
      t.resultBits = s.resultBits ∧ t.dataOut = s.dataOut

/-- R175, R176: a BS_READ of a slot that is coherent with its file delivers the next bits of the file, as many as asked
for and left, packed into DATA_OUT with zeros after them, and advances the position by as many; chunk boundaries do not
show. Where the storage does not fail it completes. Files longer than 2^64 bytes have no offset (R9). -/
def Obligations.BsReadDeliversTheNextBits : Prop :=
  ∀ (s : State) (j : SlotId) (n : Nat), (s.slot j).coherent (s.files.contents (s.slot j).file) →
    s.latch.arg0.toNat ≤ 8192 → (s.files.contents (s.slot j).file).length < 2 ^ 64 →
    n = min s.latch.arg0.toNat (8 * (s.files.contents (s.slot j).file).length - (s.slot j).position) →
    (s.io.neverFails → ∃ t, exec (.bsRead j) s = .next t ∧ t.status.err = .noError) ∧
    ∀ t, exec (.bsRead j) s = .next t → t.status.err = .noError →
      t.resultBits.toNat = n ∧
      (∀ k, k < n → ∃ a b, t.dataOut[k / 8]? = some a ∧
        (s.files.contents (s.slot j).file)[((s.slot j).position + k) / 8]? = some b ∧
        a.getLsbD (k % 8) = b.getLsbD (((s.slot j).position + k) % 8)) ∧
      (∀ k, n ≤ k → k < 8192 → ∃ a, t.dataOut[k / 8]? = some a ∧ a.getLsbD (k % 8) = false) ∧
      (t.slot j).position = (s.slot j).position + n ∧
      (t.slot j).coherent (t.files.contents (t.slot j).file)

/-- R180, read/write inverse, said of the shared operations the commands call and not of the host commands: on a write
slot just opened and cleared, the appends p then w, then one flush, followed by a fresh read slot on the same file that
reads len(p) and then len(w) bits, deliver p and then w. -/
def Obligations.ReadBackGivesWhatWasWritten : Prop :=
  ∀ (s : State) (i j : SlotId) (f : FileId) (p w : BitSeq), s.io.neverFails → p.length ≤ 7 → w.length ≤ 8192 →
    ∃ t, (do
      openSlot i .write f
      truncateSlot i
      appendBits i p
      appendBits i w
      flushSlot i
      openSlot j .read f
      let a ← readBits j p.length
      let b ← readBits j w.length
      return (a, b) : Cmd (BitSeq × BitSeq)) s = .ok (p, w) t

/-! ## Frames -/

/-- The frame of BS_WRITE and BS_REWIND (register only): beside STATUS, STOP_L and the race mark, only the named fields of
the one slot can change; no file changes and no storage request is made (R164, R178, R72). -/
def Obligations.FrameOfWriteAndRewind : Prop :=
  ∀ (i : Instr) (j : SlotId) (s t : State), (i = .bsWrite j ∨ i = .bsRewind j) → exec i s = .next t →
    sameTables s t ∧ sameOperands s t ∧ sameResults s t ∧ sameWalk s t ∧ sameInputs s t ∧ sameFiles s t ∧
    t.io = s.io ∧ t.taken = s.taken ∧ t.status.ovr = s.status.ovr ∧
    t.slot j.other = s.slot j.other ∧
    (t.slot j).mode = (s.slot j).mode ∧ (t.slot j).file = (s.slot j).file ∧ (t.slot j).wpos = (s.slot j).wpos ∧
    (i = .bsWrite j → (t.slot j).buf = (s.slot j).buf ∧ (t.slot j).valid = (s.slot j).valid ∧
      (t.slot j).cur = (s.slot j).cur ∧ (t.slot j).fpos = (s.slot j).fpos) ∧
    (i = .bsRewind j → (t.slot j).acc = (s.slot j).acc ∧ (t.slot j).wcur = (s.slot j).wcur)

/-- The frame of BS_READ: beside STATUS, STOP_L and the race mark, only RESULT_BITS, DATA_OUT, the oracle, and the staging
buffer, VALID, CUR and FPOS of the one slot can change; no file changes (R174, R103). -/
def Obligations.FrameOfRead : Prop :=
  ∀ (j : SlotId) (s t : State), exec (.bsRead j) s = .next t →
    sameTables s t ∧ sameOperands s t ∧ sameWalk s t ∧ sameInputs s t ∧ sameFiles s t ∧
    t.taken = s.taken ∧ t.status.ovr = s.status.ovr ∧ t.slot j.other = s.slot j.other ∧
    (t.slot j).mode = (s.slot j).mode ∧ (t.slot j).file = (s.slot j).file ∧ (t.slot j).acc = (s.slot j).acc ∧
    (t.slot j).wcur = (s.slot j).wcur ∧ (t.slot j).wpos = (s.slot j).wpos

/-- The frame of BS_OPEN: beside STATUS, STOP_L, the race mark and the oracle only the one slot can change; every byte of
every file stays, and no file but ARG0's can come to exist (R162, "a WRITE open never truncates"). -/
def Obligations.FrameOfOpen : Prop :=
  ∀ (j : SlotId) (d : Dir) (s t : State), exec (.bsOpen j d) s = .next t →
    sameTables s t ∧ sameOperands s t ∧ sameResults s t ∧ sameWalk s t ∧ sameInputs s t ∧
    (∀ f a, t.files.readByte f a = s.files.readByte f a) ∧
    (∀ f, f ≠ s.latch.arg0 ∨ d = .read → (t.files.lookup f).isSome = (s.files.lookup f).isSome) ∧
    t.taken = s.taken ∧ t.status.ovr = s.status.ovr ∧ t.slot j.other = s.slot j.other

/-- The frame of BS_FLUSH and BS_CLEAR (storing): beside STATUS, STOP_L, the race mark, the oracle and the count of free
values only the one slot's accumulator, WCUR and WPOS and the one slot's file can change; a flush that succeeds changes no
byte of that file outside the bytes it stores at WPOS (R104, R166, R170). -/
def Obligations.FrameOfFlushAndClear : Prop :=
  ∀ (i : Instr) (j : SlotId) (s t : State), (i = .bsFlush j ∨ i = .bsClear j) → exec i s = .next t →
    sameTables s t ∧ sameOperands s t ∧ sameResults s t ∧ sameWalk s t ∧ sameInputs s t ∧
    sameFilesBut (s.slot j).file s t ∧
    t.status.ovr = s.status.ovr ∧ t.slot j.other = s.slot j.other ∧
    (t.slot j).mode = (s.slot j).mode ∧ (t.slot j).file = (s.slot j).file ∧ (t.slot j).buf = (s.slot j).buf ∧
    (t.slot j).valid = (s.slot j).valid ∧ (t.slot j).cur = (s.slot j).cur ∧ (t.slot j).fpos = (s.slot j).fpos ∧
    (i = .bsClear j → (t.slot j).acc = (s.slot j).acc ∧ (t.slot j).wcur = (s.slot j).wcur) ∧
    (i = .bsFlush j → t.status.err = .noError →
      ∀ a, a < (s.slot j).wpos.toNat ∨ (s.slot j).wpos.toNat + (pack (s.slot j).acc).length ≤ a →
        a < (s.files.contents (s.slot j).file).length →
        t.files.readByte (s.slot j).file a = s.files.readByte (s.slot j).file a)

/-- The frame of ENCODE and DECODE: the operand registers, CONFIG, DATA_IN, the latch, RESULT_BITS and DATA_OUT stay
(R269 (i), R302 (i)), and no file but the output ARG1 changes. -/
def Obligations.FrameOfSessions : Prop :=
  ∀ (i : Instr) (s t : State), isSession i = true → exec i s = .next t →
    sameOperands s t ∧ sameResults s t ∧ sameInputs s t ∧ sameFilesBut s.latch.arg1 s t ∧
    t.status.ovr = s.status.ovr

/-! ## Storage and bit order -/

/-- R12: pack and unpack, bit by bit, and unpack after pack. -/
def Obligations.PackAndUnpack : Prop :=
  (∀ x : BitSeq, (pack x).length = (x.length + 7) / 8) ∧
  (∀ (x : BitSeq) (j i : Nat) (b : Byte), i < 8 → (pack x)[j]? = some b →
    b.getLsbD i = (x[8 * j + i]?).getD false) ∧
  (∀ (bytes : List Byte) (n : Nat), (n + 7) / 8 ≤ bytes.length →
    (unpack bytes n).length = n ∧
    ∀ k, k < n → ∃ b, bytes[k / 8]? = some b ∧ (unpack bytes n)[k]? = some (b.getLsbD (k % 8))) ∧
  ∀ x : BitSeq, unpack (pack x) x.length = x

/-- R104: StWrite that succeeds fills a gap with zeros, stores the bytes, and makes the length max(L, off + n); one that
fails raises IO; no other file changes either way. -/
def Obligations.StorageWrite : Prop :=
  ∀ (s : State) (f : FileId) (off : Nat) (bytes : List Byte),
    (s.io.next.1 = .done → ∃ t, stWrite f off bytes s = .ok () t ∧
      (t.files.contents f).length = max (s.files.contents f).length (off + bytes.length) ∧
      (∀ k, k < bytes.length → t.files.readByte f (off + k) = bytes[k]?) ∧
      (∀ k, (s.files.contents f).length ≤ k → k < off → t.files.readByte f k = some 0) ∧
      (∀ k, k < (s.files.contents f).length → (k < off ∨ off + bytes.length ≤ k) →
        t.files.readByte f k = s.files.readByte f k) ∧
      ∀ g, g ≠ f → t.files.lookup g = s.files.lookup g) ∧
    (s.io.next.1 ≠ .done → ∃ t, stWrite f off bytes s = .error .io t ∧
      ∀ g, g ≠ f → t.files.lookup g = s.files.lookup g)

/-! ## The tree and the codes -/

/-- R38, R39, R40: what a build leaves: TOTAL is the exact sum of the counts, below 2^40; LEAF_COUNT is the number of
symbols with a count, NODE_COUNT is 2L - 1 (0 for an empty table), the root is the last entry, and unused entries hold
their reset value. -/
def Obligations.TotalAndTreeCounts : Prop :=
  (∀ s : State, s.buildTree.total.toNat = ((List.range 256).map fun v => (entry s.freq v 0).toNat).sum ∧
    s.buildTree.total.toNat < 2 ^ 40 ∧ s.buildTree.tree = Tree.build s.freq) ∧
  ∀ freq : Vector Word 256,
    (Tree.build freq).leafCount.toNat = symbols.countP (fun v => freqOf freq v ≠ 0) ∧
    (Tree.build freq).nodeCount.toNat = 2 * (Tree.build freq).leafCount.toNat - 1 ∧
    ((Tree.build freq).nodeCount ≠ 0 →
      (Tree.build freq).root.toNat = (Tree.build freq).nodeCount.toNat - 1) ∧
    ∀ i : NodeIx, (Tree.build freq).nodeCount ≤ i → (Tree.build freq).nodeAt i = Node.reset

/-- R224: the leaf of a symbol with a count stands at its rank among such symbols and holds its count. -/
def Obligations.LeavesInSymbolOrder : Prop :=
  ∀ (freq : Vector Word 256) (v : Byte), freqOf freq v ≠ 0 →
    ∃ j : NodeIx, j.toNat = (symbols.take v.toNat).countP (fun u => freqOf freq u ≠ 0) ∧
      (Tree.build freq).nodeAt j =
        { weight := (freqOf freq v).setWidth 64, leaf := true, sym := v, left := 0, right := 0 }

/-- R41: the shape of every built tree. -/
def Obligations.TreeShape : Prop := ∀ freq : Vector Word 256, (Tree.build freq).Shape

/-- R225: PopMin takes the node that is least in the order (WEIGHT, index) of a work list that rises, and removes it; and
the merge rounds of a build. The work lists W 0, W 1, ... of a built tree start with the leaves in order; round r takes
the least node a and then the least node b of what is left, node LEAF_COUNT + r is the internal node with LEFT a, RIGHT b
and the sum of their weights, and it goes last into the work list. -/
def Obligations.PopMinTakesTheLeast : Prop :=
  (∀ (t : Tree) (w : List NodeIx), w ≠ [] → w.Pairwise (· < ·) →
    ∃ a, t.popMin w = some (a, w.erase a) ∧ a ∈ w ∧
      ∀ b, b ∈ w → b ≠ a →
        (t.nodeAt a).weight < (t.nodeAt b).weight ∨ ((t.nodeAt a).weight = (t.nodeAt b).weight ∧ a < b)) ∧
  ∀ (freq : Vector Word 256) (t : Tree), t = Tree.build freq →
    ∃ W : Nat → List NodeIx, W 0 = (List.range t.leafCount.toNat).map (BitVec.ofNat 9) ∧
      ∀ r, r + 1 < t.leafCount.toNat →
        ∃ (a b n : NodeIx), n.toNat = t.leafCount.toNat + r ∧ a ∈ W r ∧ b ∈ (W r).erase a ∧
          (∀ x, x ∈ W r → x ≠ a →
            (t.nodeAt a).weight < (t.nodeAt x).weight ∨ ((t.nodeAt a).weight = (t.nodeAt x).weight ∧ a < x)) ∧
          (∀ x, x ∈ (W r).erase a → x ≠ b →
            (t.nodeAt b).weight < (t.nodeAt x).weight ∨ ((t.nodeAt b).weight = (t.nodeAt x).weight ∧ b < x)) ∧
          (t.nodeAt n).leaf = false ∧ (t.nodeAt n).sym = 0 ∧ (t.nodeAt n).left = a ∧ (t.nodeAt n).right = b ∧
          (t.nodeAt n).weight.toNat = (t.nodeAt a).weight.toNat + (t.nodeAt b).weight.toNat ∧
          W (r + 1) = ((W r).erase a).erase b ++ [n]

/-- R228: the code of a symbol is the path from the root to its leaf, 0 for LEFT and 1 for RIGHT, and meets no leaf on the
way. -/
def Obligations.CodesAreRootToLeafPaths : Prop :=
  ∀ (s t : State) (v : Byte), t = s.buildTree.deriveCodes → freqOf s.freq v ≠ 0 → 2 ≤ t.tree.leafCount.toNat →
    (t.tree.nodeAt ((t.codeOf v).foldl t.tree.child t.tree.root)).leaf = true ∧
    (t.tree.nodeAt ((t.codeOf v).foldl t.tree.child t.tree.root)).sym = v ∧
    ∀ k, k < (t.codeOf v).length →
      (t.tree.nodeAt (((t.codeOf v).take k).foldl t.tree.child t.tree.root)).leaf = false

/-- R235: no code is a prefix of another, symbols with a count have a code of at least one bit, the others none. -/
def Obligations.CodesArePrefixFree : Prop :=
  ∀ (s t : State), t = s.buildTree.deriveCodes →
    (∀ u v : Byte, freqOf s.freq u ≠ 0 → freqOf s.freq v ≠ 0 → u ≠ v → ¬ isPrefixOf (t.codeOf u) (t.codeOf v)) ∧
    (∀ v : Byte, freqOf s.freq v ≠ 0 → 1 ≤ (entry t.codeLen v.toNat 0).toNat ∧
      (t.codeOf v).length = (entry t.codeLen v.toNat 0).toNat) ∧
    ∀ v : Byte, freqOf s.freq v = 0 → entry t.codeLen v.toNat 0 = 0

/-- R231, R230, R42: a code is shorter than the number of leaves, a single leaf has the code 0, and the bits of CODE_BITS
beyond CODE_LEN are 0. -/
def Obligations.CodeLengthBound : Prop :=
  ∀ (s t : State), t = s.buildTree.deriveCodes →
    (∀ v : Byte, 2 ≤ t.tree.leafCount.toNat →
      (entry t.codeLen v.toNat 0).toNat + 1 ≤ t.tree.leafCount.toNat) ∧
    (∀ v : Byte, t.tree.leafCount = 1 → freqOf s.freq v ≠ 0 → t.codeOf v = [false]) ∧
    ∀ (v : Byte) (k : Nat), (entry t.codeLen v.toNat 0).toNat ≤ k → (entry t.codeBits v.toNat 0).getLsbD k = false

/-- R233: ParseHeader reads entry v from bytes 4v to 4v + 3, least significant first, for every 1024 bytes; and it reads
back what HeaderBytes wrote. -/
def Obligations.HeaderRoundTrip : Prop :=
  (∀ (h : List Byte) (v : Nat), h.length = 1024 → v < 256 →
    ∃ b0 b1 b2 b3, h[4 * v]? = some b0 ∧ h[4 * v + 1]? = some b1 ∧ h[4 * v + 2]? = some b2 ∧
      h[4 * v + 3]? = some b3 ∧
      (entry (parseHeader h) v 0).toNat =
        b0.toNat + 256 * b1.toNat + 65536 * b2.toNat + 16777216 * b3.toNat) ∧
  ∀ freq : Vector Word 256, (headerBytes freq).length = 1024 ∧ parseHeader (headerBytes freq) = freq

/-! ## The sessions -/

/-- R327, R261, R269 (g): a session with ARG0 = ARG1 ends with ALIAS in SETUP before any storage request, with both slots
closed. No slot of it is bound to a file, so another agent's change of a file while it runs changes that file alone and
does not race it (R370, read as notes/assumptions/12.md says). -/
def Obligations.AliasedSessionTouchesNoFile : Prop :=
  ∀ (i : Instr) (s : State), isSession i = true → s.latch.arg0 = s.latch.arg1 →
    exec i s = .next (ended .aliased .setup
      { s with slot0 := Slot.reset, slot1 := Slot.reset, walk := 0, emitted := 0 }) ∧
    ∀ (f : FileId) (bytes : List Byte) (later : List Input), decodeFields s.latchedFields = .ok i →
      s.inputs = .fileChange f bytes :: later →
      step s = .next { s with files := s.files.update f bytes, inputs := later }

/-- R261, R269 (f): a session whose input names no file ends with IO in SETUP after the output was created and truncated. -/
def Obligations.AbsentInputLeavesEmptyOutput : Prop :=
  ∀ (i : Instr) (s : State), isSession i = true → s.latch.arg0 ≠ s.latch.arg1 →
    s.files.lookup s.latch.arg0 = none → s.io.next.1 = .done → s.io.next.2.next.1 = .done →
    ∃ t, exec i s = .next t ∧ t.status.err = .io ∧ t.status.phase = .setup ∧
      t.files.lookup s.latch.arg1 = some [] ∧ (∀ f, f ≠ s.latch.arg1 → t.files.lookup f = s.files.lookup f) ∧
      sameTables s t

/-- R106, R262: where the storage does not fail, the input exists, is another file than the output, and holds no byte
value 2^32 times, ENCODE completes without error in PHASE DONE. -/
def Obligations.EncodeCompletes : Prop :=
  ∀ (s : State) (bytes : List Byte), s.io.neverFails → s.latch.arg0 ≠ s.latch.arg1 →
    s.files.lookup s.latch.arg0 = some bytes → (∀ v, bytes.count v < 2 ^ 32) →
    ∃ t, exec .encodeFile s = .next t ∧ t.status.err = .noError ∧ t.status.phase = .done

/-- R268, with R264: what an ENCODE that completes without error leaves: the counts of its input, the tree built from
them, the code table that DeriveCodes gives for that tree, and the output in closed form. -/
def Obligations.EncodeOutputClosedForm : Prop :=
  ∀ (s t : State) (bytes : List Byte), s.files.lookup s.latch.arg0 = some bytes →
    exec .encodeFile s = .next t → t.status.err = .noError →
    (∀ v : Byte, (freqOf t.freq v).toNat = bytes.count v) ∧
    t.tree = Tree.build t.freq ∧ t.total.toNat = bytes.length ∧
    t.codeLen = ({ s with freq := t.freq } : State).buildTree.deriveCodes.codeLen ∧
    t.codeBits = ({ s with freq := t.freq } : State).buildTree.deriveCodes.codeBits ∧
    t.files.lookup s.latch.arg1 = some (headerBytes t.freq ++ pack (bytes.flatMap t.codeOf)) ∧
    (t.files.contents s.latch.arg1).length =
      1024 + ((symbols.map fun v => (freqOf t.freq v).toNat * (entry t.codeLen v.toNat 0).toNat).sum + 7) / 8

/-- R263, R326, R331: an input that holds a byte value 2^32 times or more ends with COUNT_OVERFLOW in COUNT, and the
output is left empty. -/
def Obligations.EncodeCountOverflow : Prop :=
  ∀ (s : State) (bytes : List Byte) (v : Byte), s.io.neverFails → s.latch.arg0 ≠ s.latch.arg1 →
    s.files.lookup s.latch.arg0 = some bytes → 2 ^ 32 ≤ bytes.count v →
    ∃ t, exec .encodeFile s = .next t ∧ t.status.err = .countOverflow ∧ t.status.phase = .count ∧
      t.files.lookup s.latch.arg1 = some []

/-- R292 to R300, R106: where the storage does not fail, DECODE of a file of at least 1024 bytes writes what the tree walk
emits, or ends with MALFORMED_HEADER in DECODE_BODY with an empty output where the walk meets the absent root. A file of
2^60 bytes or more is left out (its bits are past the 64-bit counters, notes/assumptions/6.md). -/
def Obligations.DecodeWritesTheWalk : Prop :=
  ∀ (s : State) (bytes : List Byte), s.io.neverFails → s.latch.arg0 ≠ s.latch.arg1 →
    s.files.lookup s.latch.arg0 = some bytes → 1024 ≤ bytes.length → bytes.length < 2 ^ 60 →
    (∀ out, decodedFile s.stopL bytes = some out →
      ∃ t, exec .decodeFile s = .next t ∧ t.status.err = .noError ∧ t.status.phase = .done ∧
        t.files.lookup s.latch.arg1 = some out ∧ t.freq = parseHeader (bytes.take 1024) ∧
        t.tree = Tree.build t.freq) ∧
    (decodedFile s.stopL bytes = none →
      ∃ t, exec .decodeFile s = .next t ∧ t.status.err = .malformedHeader ∧ t.status.phase = .decodeBody ∧
        t.files.lookup s.latch.arg1 = some [])

/-- R292, R302 (a): DECODE of a file shorter than 1024 bytes ends with MALFORMED_HEADER in READ_HEADER, with the output
empty and FREQ unchanged. -/
def Obligations.ShortHeaderIsMalformed : Prop :=
  ∀ (s : State) (bytes : List Byte), s.io.neverFails → s.latch.arg0 ≠ s.latch.arg1 →
    s.files.lookup s.latch.arg0 = some bytes → bytes.length < 1024 →
    ∃ t, exec .decodeFile s = .next t ∧ t.status.err = .malformedHeader ∧ t.status.phase = .readHeader ∧
      t.files.lookup s.latch.arg1 = some [] ∧ sameTables s t

/-- R293: a DECODE that gets past its header leaves the code table cleared, TOTAL and the tree built from its FREQ. -/
def Obligations.DecodeClearsCodeTable : Prop :=
  ∀ s t : State, exec .decodeFile s = .next t →
    t.status.phase = .decodeBody ∨ t.status.phase = .flush ∨ t.status.phase = .done →
    (∀ v : Byte, entry t.codeLen v.toNat 0 = 0 ∧ entry t.codeBits v.toNat 0 = 0) ∧
    t.tree = Tree.build t.freq ∧ t.total.toNat = freqSum t.freq

/-- R301: decoding what ENCODE wrote gives the input back, under the stop rule SYMBOL_COUNT. -/
def Obligations.DecodeInvertsEncode : Prop :=
  ∀ (s t u : State) (bytes : List Byte), s.files.lookup s.latch.arg0 = some bytes →
    exec .encodeFile s = .next t → t.status.err = .noError →
    u.files.lookup u.latch.arg0 = t.files.lookup s.latch.arg1 → u.latch.arg0 ≠ u.latch.arg1 →
    u.stopL = .symbolCount → u.io.neverFails →
    ∃ v, exec .decodeFile u = .next v ∧ v.status.err = .noError ∧ v.status.phase = .done ∧
      v.files.lookup u.latch.arg1 = some bytes

/-! ## Whole-machine rules -/

/-- The invariant of the machine (R31 to R35, R43, R54, R100) is kept by every step. -/
def Obligations.StepKeepsInvariant : Prop :=
  ∀ s t : State, s.Inv → step s = .next t → t.Inv

/-- The invariant holds after reset. -/
def Obligations.ResetMeetsInvariant : Prop := State.reset.Inv

/-- R39, R40: at every time NODE_COUNT is 2 * LEAF_COUNT - 1 (0 for 0) and the unused entries of the arena hold their reset
value; RESULT_BITS is at most 8192 (R57). Kept by every step, and true after reset. -/
def Obligations.StepKeepsTreeAndResultRanges : Prop :=
  (∀ s t : State, s.tree.countsOk ∧ s.tree.unusedClear ∧ s.resultBits.toNat ≤ 8192 → step s = .next t →
    t.tree.countsOk ∧ t.tree.unusedClear ∧ t.resultBits.toNat ≤ 8192) ∧
  State.reset.tree.countsOk ∧ State.reset.tree.unusedClear ∧ State.reset.resultBits.toNat ≤ 8192

/-- No step refuses, and a step faults only at a host access outside the window, where the spec gives nothing (R116; the
fault is the model's, notes/assumptions/10.md). -/
def Obligations.StepStopsOnlyOutsideTheWindow : Prop :=
  ∀ s : State,
    (∀ r, step s ≠ .refused r) ∧
    ((∃ r, step s = .fault r) ↔
      ∃ wd off later, 0x4000 ≤ off ∧
        (s.inputs = .read wd off :: later ∨ ∃ v : Word, s.inputs = .write wd off v :: later))

/-- R32: a slot's MODE changes only by BS_OPEN of that slot, by a session, or by reset. -/
def Obligations.ModeChangesOnlyByOpenSessionReset : Prop :=
  ∀ (s t : State) (j : SlotId), step s = .next t → (t.slot j).mode ≠ (s.slot j).mode →
    (∃ k later, s.inputs = .reset k :: later) ∨
    (s.status.busy = true ∧ ∃ i, decodeFields s.latchedFields = .ok i ∧
      ((∃ d, i = .bsOpen j d) ∨ isSession i = true))

/-- R57, R68: RESULT_BITS and DATA_OUT change only by a BS_READ or by reset. -/
def Obligations.ResultsChangeOnlyByReadOrReset : Prop :=
  ∀ s t : State, step s = .next t → (t.resultBits ≠ s.resultBits ∨ t.dataOut ≠ s.dataOut) →
    (∃ k later, s.inputs = .reset k :: later) ∨
    (s.status.busy = true ∧ ∃ j, decodeFields s.latchedFields = .ok (.bsRead j))

/-- R94, R100: the tables, the slots and the storage do not change at a host access, and no step removes a file. -/
def Obligations.HostAccessesKeepTablesAndFiles : Prop :=
  (∀ (s t : State) (wd : Width) (off : Nat) (v : Word) (later : List Input),
    (s.inputs = .read wd off :: later ∨ s.inputs = .write wd off v :: later) → step s = .next t →
    sameTables s t ∧ sameResults s t ∧ t.slot0 = s.slot0 ∧ t.slot1 = s.slot1 ∧ t.files = s.files ∧ t.io = s.io) ∧
  ∀ (s t : State) (f : FileId), step s = .next t → (s.files.lookup f).isSome → (t.files.lookup f).isSome
end

