-- ==== Sys2Proof/Laws/Bits.lean ====
section
/-! SUPPORT. The small laws of bit sequences, packing and stores (spec/00_scope.md rules R10 to R13). -/

namespace Sys2Proof.Laws

open Sys2Proof.Machine

/-- R10: a number that fits is stored as it is. -/
theorem store_of_lt {n v : Nat} (h : v < 2 ^ n) : store n v = BitVec.ofNat n v := if_pos h

theorem store_toNat {n v : Nat} (h : v < 2 ^ n) : (store n v).toNat = v := by
  rw [store_of_lt h, BitVec.toNat_ofNat, Nat.mod_eq_of_lt h]

@[simp] theorem bitsOf_length {n : Nat} (v : BitVec n) : (bitsOf v).length = n := by simp [bitsOf]

theorem bitsOf_getElem {n : Nat} (v : BitVec n) (i : Nat) (h : i < (bitsOf v).length) :
    (bitsOf v)[i] = v.getLsbD i := by simp [bitsOf]

@[simp] theorem pack_nil : pack [] = [] := rfl

theorem pack_eight (b0 b1 b2 b3 b4 b5 b6 b7 : Bool) (rest : BitSeq) :
    pack (b0 :: b1 :: b2 :: b3 :: b4 :: b5 :: b6 :: b7 :: rest) =
      byteOfBits [b0, b1, b2, b3, b4, b5, b6, b7] :: pack rest := rfl

/-- The byte of eight bits has those bits. -/
theorem bitsOf_byteOfBits (b0 b1 b2 b3 b4 b5 b6 b7 : Bool) :
    bitsOf (byteOfBits [b0, b1, b2, b3, b4, b5, b6, b7]) = [b0, b1, b2, b3, b4, b5, b6, b7] := by
  revert b0 b1 b2 b3 b4 b5 b6 b7; decide

/-- The bits of a byte make that byte. -/
theorem byteOfBits_bitsOf (v : Byte) : byteOfBits (bitsOf v) = v := by
  revert v; decide

theorem fileBits_length (bytes : List Byte) : (bytes.flatMap bitsOf).length = 8 * bytes.length := by
  induction bytes with
  | nil => rfl
  | cons b bs ih => simp only [List.flatMap_cons, List.length_append, bitsOf_length, ih, List.length_cons]; omega

@[simp] theorem symbols_length : symbols.length = 256 := by simp [symbols, Config.symbols]

/-- The k-th symbol is k: symbols are visited in increasing order (spec/00_scope.md rule R14). -/
theorem symbols_getElem (k : Nat) (h : k < symbols.length) : symbols[k] = BitVec.ofNat 8 k := by
  simp [symbols]

theorem mem_symbols (v : Byte) : v ∈ symbols := by
  simp only [symbols, List.mem_map, List.mem_range, Config.symbols]
  exact ⟨v.toNat, v.isLt, by simp⟩

end Sys2Proof.Laws
end

