-- ==== Sys2Proof/Laws/Cmd.lean ====
section
/-! SUPPORT. How a computation of the core runs from a state: one equation for each way it is put together, and the rule
by which a relation between the state before and the state after is carried through a computation, errors included. -/

namespace Sys2Proof.Laws

open Sys2Proof.Machine

variable {α β : Type}

@[simp] theorem pure_apply (a : α) (s : State) : (pure a : Cmd α) s = .ok a s := rfl

@[simp] theorem throw_apply (e : ErrCode) (s : State) : (throw e : Cmd α) s = .error e s := rfl

@[simp] theorem get_apply (s : State) : (get : Cmd State) s = .ok s s := rfl

@[simp] theorem set_apply (t s : State) : (set t : Cmd PUnit) s = .ok () t := rfl

@[simp] theorem modify_apply (f : State → State) (s : State) : (modify f : Cmd PUnit) s = .ok () (f s) := rfl

@[simp] theorem modifyGet_apply (f : State → α × State) (s : State) :
    (modifyGet f : Cmd α) s = .ok (f s).1 (f s).2 := rfl

@[simp] theorem bind_apply (m : Cmd α) (f : α → Cmd β) (s : State) :
    (m >>= f) s = match m s with
      | .ok a t => f a t
      | .error e t => .error e t := by
  show EStateM.bind m f s = _
  unfold EStateM.bind
  cases m s <;> rfl

@[simp] theorem map_apply (g : α → β) (m : Cmd α) (s : State) :
    (g <$> m) s = match m s with
      | .ok a t => .ok (g a) t
      | .error e t => .error e t := by
  show EStateM.map g m s = _
  unfold EStateM.map
  cases m s <;> rfl

@[simp] theorem ite_apply (c : Prop) [Decidable c] (m m' : Cmd α) (s : State) :
    (if c then m else m') s = if c then m s else m' s := by split <;> rfl

/-- The state a computation leaves, whether it raises an error or not. -/
def after (m : Cmd α) (s : State) : State :=
  match m s with
  | .ok _ t => t
  | .error _ t => t

/-- A computation relates the state before to the state after, on every path. -/
def Relates (R : State → State → Prop) (m : Cmd α) : Prop := ∀ s, R s (after m s)

theorem Relates.of_ok {R : State → State → Prop} {m : Cmd α} (h : Relates R m) {s t : State} {a : α}
    (e : m s = .ok a t) : R s t := by
  have := h s; rw [after, e] at this; exact this

theorem Relates.of_error {R : State → State → Prop} {m : Cmd α} (h : Relates R m) {s t : State} {x : ErrCode}
    (e : m s = .error x t) : R s t := by
  have := h s; rw [after, e] at this; exact this

theorem relates_pure {R : State → State → Prop} (refl : ∀ s, R s s) (a : α) : Relates R (pure a : Cmd α) :=
  fun s => refl s

theorem relates_throw {R : State → State → Prop} (refl : ∀ s, R s s) (e : ErrCode) :
    Relates R (throw e : Cmd α) :=
  fun s => refl s

theorem relates_get {R : State → State → Prop} (refl : ∀ s, R s s) : Relates R (get : Cmd State) :=
  fun s => refl s

theorem relates_modify {R : State → State → Prop} {f : State → State} (h : ∀ s, R s (f s)) :
    Relates R (modify f : Cmd PUnit) :=
  fun s => h s

theorem relates_modifyGet {R : State → State → Prop} {f : State → α × State} (h : ∀ s, R s (f s).2) :
    Relates R (modifyGet f : Cmd α) :=
  fun s => h s

theorem relates_bind {R : State → State → Prop} (trans : ∀ s t u, R s t → R t u → R s u) {m : Cmd α}
    {f : α → Cmd β} (hm : Relates R m) (hf : ∀ a, Relates R (f a)) : Relates R (m >>= f) := by
  intro s
  have h := hm s
  unfold after at h ⊢
  rw [bind_apply]
  cases e : m s with
  | ok a t =>
    rw [e] at h
    have h' := hf a t
    unfold after at h'
    exact trans _ _ _ h h'
  | error x t =>
    rw [e] at h
    exact h

theorem relates_ite {R : State → State → Prop} {c : Prop} [Decidable c] {m m' : Cmd α} (h : Relates R m)
    (h' : Relates R m') : Relates R (if c then m else m') := by
  split
  · exact h
  · exact h'

/-- A computation followed by one that looks at the state it started from: `do let s ← get; m s`. -/
theorem relates_get_bind {R : State → State → Prop} {m : State → Cmd α} (h : ∀ s, R s (after (m s) s)) :
    Relates R (get >>= m) :=
  fun s => h s

/-- What holds of the state before a stream command's or a session's run and of every state its computations leave
holds of the state at the end, given that completion and session close keep it. -/
theorem runStream_relates {R : State → State → Prop} (trans : ∀ s t u, R s t → R t u → R s u)
    (complete_ok : ∀ e p s, R s (complete e p s)) {m : Cmd Unit} (h : Relates R m) (s : State) :
    R s (runStream m s) := by
  unfold runStream
  cases e : m s with
  | ok a t => exact trans _ _ _ (h.of_ok e) (complete_ok _ _ _)
  | error x t => exact trans _ _ _ (h.of_error e) (complete_ok _ _ _)

theorem runSession_relates {R : State → State → Prop} (trans : ∀ s t u, R s t → R t u → R s u)
    (complete_ok : ∀ e p s, R s (complete e p s)) (close_ok : ∀ s, R s (closeSession s)) :
    ∀ (ps : List (Phase × Cmd Unit)), (∀ p ∈ ps, Relates R p.2) → ∀ s, R s (runSession ps s)
  | [], _, s => trans _ _ _ (close_ok s) (complete_ok _ _ _)
  | (p, m) :: ps, h, s => by
    unfold runSession
    have hm : Relates R m := h (p, m) (by simp)
    cases e : m s with
    | ok a t =>
      exact trans _ _ _ (hm.of_ok e)
        (runSession_relates trans complete_ok close_ok ps (fun q hq => h q (by simp [hq])) t)
    | error x t =>
      exact trans _ _ _ (hm.of_error e) (trans _ _ _ (close_ok t) (complete_ok _ _ _))

end Sys2Proof.Laws
end

