-- ==== Sys2Proof/Laws/State.lean ====
section
/-! SUPPORT. One lemma for each field under each named update of the state, so that no later proof unfolds a record
update. -/

namespace Sys2Proof.Laws

open Sys2Proof.Machine

section SetSlot

variable (s : State) (i : SlotId) (x : Slot)

@[simp] theorem slot_s0 : s.slot .s0 = s.slot0 := rfl
@[simp] theorem slot_s1 : s.slot .s1 = s.slot1 := rfl
@[simp] theorem setSlot_s0_slot0 : (s.setSlot .s0 x).slot0 = x := rfl
@[simp] theorem setSlot_s0_slot1 : (s.setSlot .s0 x).slot1 = s.slot1 := rfl
@[simp] theorem setSlot_s1_slot0 : (s.setSlot .s1 x).slot0 = s.slot0 := rfl
@[simp] theorem setSlot_s1_slot1 : (s.setSlot .s1 x).slot1 = x := rfl

@[simp] theorem slot_setSlot_self : (s.setSlot i x).slot i = x := by cases i <;> rfl

@[simp] theorem slot_setSlot_other : (s.setSlot i x).slot i.other = s.slot i.other := by cases i <;> rfl

theorem slot_setSlot_ne {j : SlotId} (h : j ≠ i) : (s.setSlot i x).slot j = s.slot j := by
  cases i <;> cases j <;> first | rfl | exact absurd rfl h

@[simp] theorem setSlot_setSlot (y : Slot) : (s.setSlot i x).setSlot i y = s.setSlot i y := by cases i <;> rfl

@[simp] theorem setSlot_slot : s.setSlot i (s.slot i) = s := by cases i <;> rfl

@[simp] theorem setSlot_freq : (s.setSlot i x).freq = s.freq := by cases i <;> rfl
@[simp] theorem setSlot_total : (s.setSlot i x).total = s.total := by cases i <;> rfl
@[simp] theorem setSlot_tree : (s.setSlot i x).tree = s.tree := by cases i <;> rfl
@[simp] theorem setSlot_codeLen : (s.setSlot i x).codeLen = s.codeLen := by cases i <;> rfl
@[simp] theorem setSlot_codeBits : (s.setSlot i x).codeBits = s.codeBits := by cases i <;> rfl
@[simp] theorem setSlot_walk : (s.setSlot i x).walk = s.walk := by cases i <;> rfl
@[simp] theorem setSlot_emitted : (s.setSlot i x).emitted = s.emitted := by cases i <;> rfl
@[simp] theorem setSlot_stopL : (s.setSlot i x).stopL = s.stopL := by cases i <;> rfl
@[simp] theorem setSlot_latch : (s.setSlot i x).latch = s.latch := by cases i <;> rfl
@[simp] theorem setSlot_status : (s.setSlot i x).status = s.status := by cases i <;> rfl
@[simp] theorem setSlot_arg0 : (s.setSlot i x).arg0 = s.arg0 := by cases i <;> rfl
@[simp] theorem setSlot_arg1 : (s.setSlot i x).arg1 = s.arg1 := by cases i <;> rfl
@[simp] theorem setSlot_resultBits : (s.setSlot i x).resultBits = s.resultBits := by cases i <;> rfl
@[simp] theorem setSlot_stop : (s.setSlot i x).stop = s.stop := by cases i <;> rfl
@[simp] theorem setSlot_dataIn : (s.setSlot i x).dataIn = s.dataIn := by cases i <;> rfl
@[simp] theorem setSlot_dataOut : (s.setSlot i x).dataOut = s.dataOut := by cases i <;> rfl
@[simp] theorem setSlot_files : (s.setSlot i x).files = s.files := by cases i <;> rfl
@[simp] theorem setSlot_io : (s.setSlot i x).io = s.io := by cases i <;> rfl
@[simp] theorem setSlot_inputs : (s.setSlot i x).inputs = s.inputs := by cases i <;> rfl
@[simp] theorem setSlot_response : (s.setSlot i x).response = s.response := by cases i <;> rfl
@[simp] theorem setSlot_raced : (s.setSlot i x).raced = s.raced := by cases i <;> rfl
@[simp] theorem setSlot_taken : (s.setSlot i x).taken = s.taken := by cases i <;> rfl

@[simp] theorem setSlot_operandFile : (s.setSlot i x).operandFile = s.operandFile := by cases i <;> rfl
@[simp] theorem setSlot_operandOutFile : (s.setSlot i x).operandOutFile = s.operandOutFile := by cases i <;> rfl
@[simp] theorem setSlot_operandBits : (s.setSlot i x).operandBits = s.operandBits := by cases i <;> rfl

end SetSlot

section Complete

variable (e : ErrCode) (p : Phase) (s : State)

@[simp] theorem complete_slot0 : (complete e p s).slot0 = s.slot0 := rfl
@[simp] theorem complete_slot1 : (complete e p s).slot1 = s.slot1 := rfl
@[simp] theorem complete_freq : (complete e p s).freq = s.freq := rfl
@[simp] theorem complete_total : (complete e p s).total = s.total := rfl
@[simp] theorem complete_tree : (complete e p s).tree = s.tree := rfl
@[simp] theorem complete_codeLen : (complete e p s).codeLen = s.codeLen := rfl
@[simp] theorem complete_codeBits : (complete e p s).codeBits = s.codeBits := rfl
@[simp] theorem complete_walk : (complete e p s).walk = s.walk := rfl
@[simp] theorem complete_emitted : (complete e p s).emitted = s.emitted := rfl
@[simp] theorem complete_stopL : (complete e p s).stopL = .symbolCount := rfl
@[simp] theorem complete_latch : (complete e p s).latch = s.latch := rfl
@[simp] theorem complete_status : (complete e p s).status = s.status.completed e p := rfl
@[simp] theorem complete_arg0 : (complete e p s).arg0 = s.arg0 := rfl
@[simp] theorem complete_arg1 : (complete e p s).arg1 = s.arg1 := rfl
@[simp] theorem complete_resultBits : (complete e p s).resultBits = s.resultBits := rfl
@[simp] theorem complete_stop : (complete e p s).stop = s.stop := rfl
@[simp] theorem complete_dataIn : (complete e p s).dataIn = s.dataIn := rfl
@[simp] theorem complete_dataOut : (complete e p s).dataOut = s.dataOut := rfl
@[simp] theorem complete_files : (complete e p s).files = s.files := rfl
@[simp] theorem complete_io : (complete e p s).io = s.io := rfl
@[simp] theorem complete_inputs : (complete e p s).inputs = s.inputs := rfl
@[simp] theorem complete_response : (complete e p s).response = s.response := rfl
@[simp] theorem complete_raced : (complete e p s).raced = false := rfl
@[simp] theorem complete_taken : (complete e p s).taken = s.taken := rfl

end Complete

section CloseSession

variable (s : State)

@[simp] theorem closeSession_slot0 : (closeSession s).slot0 = Slot.reset := rfl
@[simp] theorem closeSession_slot1 : (closeSession s).slot1 = Slot.reset := rfl
@[simp] theorem closeSession_freq : (closeSession s).freq = s.freq := rfl
@[simp] theorem closeSession_total : (closeSession s).total = s.total := rfl
@[simp] theorem closeSession_tree : (closeSession s).tree = s.tree := rfl
@[simp] theorem closeSession_codeLen : (closeSession s).codeLen = s.codeLen := rfl
@[simp] theorem closeSession_codeBits : (closeSession s).codeBits = s.codeBits := rfl
@[simp] theorem closeSession_walk : (closeSession s).walk = 0 := rfl
@[simp] theorem closeSession_emitted : (closeSession s).emitted = 0 := rfl
@[simp] theorem closeSession_stopL : (closeSession s).stopL = s.stopL := rfl
@[simp] theorem closeSession_latch : (closeSession s).latch = s.latch := rfl
@[simp] theorem closeSession_status : (closeSession s).status = s.status := rfl
@[simp] theorem closeSession_arg0 : (closeSession s).arg0 = s.arg0 := rfl
@[simp] theorem closeSession_arg1 : (closeSession s).arg1 = s.arg1 := rfl
@[simp] theorem closeSession_resultBits : (closeSession s).resultBits = s.resultBits := rfl
@[simp] theorem closeSession_stop : (closeSession s).stop = s.stop := rfl
@[simp] theorem closeSession_dataIn : (closeSession s).dataIn = s.dataIn := rfl
@[simp] theorem closeSession_dataOut : (closeSession s).dataOut = s.dataOut := rfl
@[simp] theorem closeSession_files : (closeSession s).files = s.files := rfl
@[simp] theorem closeSession_io : (closeSession s).io = s.io := rfl
@[simp] theorem closeSession_inputs : (closeSession s).inputs = s.inputs := rfl
@[simp] theorem closeSession_response : (closeSession s).response = s.response := rfl
@[simp] theorem closeSession_raced : (closeSession s).raced = s.raced := rfl
@[simp] theorem closeSession_taken : (closeSession s).taken = s.taken := rfl

end CloseSession

section Accept

variable (w : Word) (s : State)

@[simp] theorem accept_slot0 : (accept w s).slot0 = s.slot0 := rfl
@[simp] theorem accept_slot1 : (accept w s).slot1 = s.slot1 := rfl
@[simp] theorem accept_freq : (accept w s).freq = s.freq := rfl
@[simp] theorem accept_total : (accept w s).total = s.total := rfl
@[simp] theorem accept_tree : (accept w s).tree = s.tree := rfl
@[simp] theorem accept_codeLen : (accept w s).codeLen = s.codeLen := rfl
@[simp] theorem accept_codeBits : (accept w s).codeBits = s.codeBits := rfl
@[simp] theorem accept_walk : (accept w s).walk = s.walk := rfl
@[simp] theorem accept_emitted : (accept w s).emitted = s.emitted := rfl
@[simp] theorem accept_stopL : (accept w s).stopL = s.stop := rfl
@[simp] theorem accept_status : (accept w s).status = Status.accepted := rfl
@[simp] theorem accept_arg0 : (accept w s).arg0 = s.arg0 := rfl
@[simp] theorem accept_arg1 : (accept w s).arg1 = s.arg1 := rfl
@[simp] theorem accept_resultBits : (accept w s).resultBits = s.resultBits := rfl
@[simp] theorem accept_stop : (accept w s).stop = s.stop := rfl
@[simp] theorem accept_dataIn : (accept w s).dataIn = s.dataIn := rfl
@[simp] theorem accept_dataOut : (accept w s).dataOut = s.dataOut := rfl
@[simp] theorem accept_files : (accept w s).files = s.files := rfl
@[simp] theorem accept_io : (accept w s).io = s.io := rfl
@[simp] theorem accept_inputs : (accept w s).inputs = s.inputs := rfl
@[simp] theorem accept_response : (accept w s).response = s.response := rfl
@[simp] theorem accept_raced : (accept w s).raced = false := rfl
@[simp] theorem accept_taken : (accept w s).taken = s.taken := rfl

end Accept

section BlockReset

variable (s : State)

@[simp] theorem blockReset_slot0 : (blockReset s).slot0 = State.reset.slot0 := rfl
@[simp] theorem blockReset_slot1 : (blockReset s).slot1 = State.reset.slot1 := rfl
@[simp] theorem blockReset_freq : (blockReset s).freq = State.reset.freq := rfl
@[simp] theorem blockReset_total : (blockReset s).total = State.reset.total := rfl
@[simp] theorem blockReset_tree : (blockReset s).tree = State.reset.tree := rfl
@[simp] theorem blockReset_codeLen : (blockReset s).codeLen = State.reset.codeLen := rfl
@[simp] theorem blockReset_codeBits : (blockReset s).codeBits = State.reset.codeBits := rfl
@[simp] theorem blockReset_walk : (blockReset s).walk = State.reset.walk := rfl
@[simp] theorem blockReset_emitted : (blockReset s).emitted = State.reset.emitted := rfl
@[simp] theorem blockReset_stopL : (blockReset s).stopL = State.reset.stopL := rfl
@[simp] theorem blockReset_latch : (blockReset s).latch = State.reset.latch := rfl
@[simp] theorem blockReset_status : (blockReset s).status = State.reset.status := rfl
@[simp] theorem blockReset_arg0 : (blockReset s).arg0 = State.reset.arg0 := rfl
@[simp] theorem blockReset_arg1 : (blockReset s).arg1 = State.reset.arg1 := rfl
@[simp] theorem blockReset_resultBits : (blockReset s).resultBits = State.reset.resultBits := rfl
@[simp] theorem blockReset_stop : (blockReset s).stop = State.reset.stop := rfl
@[simp] theorem blockReset_dataIn : (blockReset s).dataIn = State.reset.dataIn := rfl
@[simp] theorem blockReset_dataOut : (blockReset s).dataOut = State.reset.dataOut := rfl
@[simp] theorem blockReset_files : (blockReset s).files = s.files := rfl
@[simp] theorem blockReset_io : (blockReset s).io = s.io := rfl
@[simp] theorem blockReset_inputs : (blockReset s).inputs = s.inputs := rfl
@[simp] theorem blockReset_response : (blockReset s).response = State.reset.response := rfl
@[simp] theorem blockReset_raced : (blockReset s).raced = State.reset.raced := rfl
@[simp] theorem blockReset_taken : (blockReset s).taken = s.taken := rfl

end BlockReset

section BuildTree

variable (s : State)

@[simp] theorem buildTree_slot0 : (s.buildTree).slot0 = s.slot0 := by simp only [State.buildTree]
@[simp] theorem buildTree_slot1 : (s.buildTree).slot1 = s.slot1 := by simp only [State.buildTree]
@[simp] theorem buildTree_freq : (s.buildTree).freq = s.freq := by simp only [State.buildTree]
@[simp] theorem buildTree_total : (s.buildTree).total = store 64 (freqSum s.freq) := by simp only [State.buildTree]
@[simp] theorem buildTree_tree : (s.buildTree).tree = Tree.build s.freq := by simp only [State.buildTree]
@[simp] theorem buildTree_codeLen : (s.buildTree).codeLen = Vector.replicate 256 0 := by simp only [State.buildTree]
@[simp] theorem buildTree_codeBits : (s.buildTree).codeBits = Vector.replicate 256 0 := by simp only [State.buildTree]
@[simp] theorem buildTree_walk : (s.buildTree).walk = s.walk := by simp only [State.buildTree]
@[simp] theorem buildTree_emitted : (s.buildTree).emitted = s.emitted := by simp only [State.buildTree]
@[simp] theorem buildTree_stopL : (s.buildTree).stopL = s.stopL := by simp only [State.buildTree]
@[simp] theorem buildTree_latch : (s.buildTree).latch = s.latch := by simp only [State.buildTree]
@[simp] theorem buildTree_status : (s.buildTree).status = s.status := by simp only [State.buildTree]
@[simp] theorem buildTree_arg0 : (s.buildTree).arg0 = s.arg0 := by simp only [State.buildTree]
@[simp] theorem buildTree_arg1 : (s.buildTree).arg1 = s.arg1 := by simp only [State.buildTree]
@[simp] theorem buildTree_resultBits : (s.buildTree).resultBits = s.resultBits := by simp only [State.buildTree]
@[simp] theorem buildTree_stop : (s.buildTree).stop = s.stop := by simp only [State.buildTree]
@[simp] theorem buildTree_dataIn : (s.buildTree).dataIn = s.dataIn := by simp only [State.buildTree]
@[simp] theorem buildTree_dataOut : (s.buildTree).dataOut = s.dataOut := by simp only [State.buildTree]
@[simp] theorem buildTree_files : (s.buildTree).files = s.files := by simp only [State.buildTree]
@[simp] theorem buildTree_io : (s.buildTree).io = s.io := by simp only [State.buildTree]
@[simp] theorem buildTree_inputs : (s.buildTree).inputs = s.inputs := by simp only [State.buildTree]
@[simp] theorem buildTree_response : (s.buildTree).response = s.response := by simp only [State.buildTree]
@[simp] theorem buildTree_raced : (s.buildTree).raced = s.raced := by simp only [State.buildTree]
@[simp] theorem buildTree_taken : (s.buildTree).taken = s.taken := by simp only [State.buildTree]

end BuildTree

section DeriveCodes

variable (s : State)

@[simp] theorem deriveCodes_slot0 : (s.deriveCodes).slot0 = s.slot0 := by simp only [State.deriveCodes]
@[simp] theorem deriveCodes_slot1 : (s.deriveCodes).slot1 = s.slot1 := by simp only [State.deriveCodes]
@[simp] theorem deriveCodes_freq : (s.deriveCodes).freq = s.freq := by simp only [State.deriveCodes]
@[simp] theorem deriveCodes_total : (s.deriveCodes).total = s.total := by simp only [State.deriveCodes]
@[simp] theorem deriveCodes_tree : (s.deriveCodes).tree = s.tree := by simp only [State.deriveCodes]
@[simp] theorem deriveCodes_codeLen : (s.deriveCodes).codeLen = (s.tree.codes (s.codeLen, s.codeBits)).1 := by simp only [State.deriveCodes]
@[simp] theorem deriveCodes_codeBits : (s.deriveCodes).codeBits = (s.tree.codes (s.codeLen, s.codeBits)).2 := by simp only [State.deriveCodes]
@[simp] theorem deriveCodes_walk : (s.deriveCodes).walk = s.walk := by simp only [State.deriveCodes]
@[simp] theorem deriveCodes_emitted : (s.deriveCodes).emitted = s.emitted := by simp only [State.deriveCodes]
@[simp] theorem deriveCodes_stopL : (s.deriveCodes).stopL = s.stopL := by simp only [State.deriveCodes]
@[simp] theorem deriveCodes_latch : (s.deriveCodes).latch = s.latch := by simp only [State.deriveCodes]
@[simp] theorem deriveCodes_status : (s.deriveCodes).status = s.status := by simp only [State.deriveCodes]
@[simp] theorem deriveCodes_arg0 : (s.deriveCodes).arg0 = s.arg0 := by simp only [State.deriveCodes]
@[simp] theorem deriveCodes_arg1 : (s.deriveCodes).arg1 = s.arg1 := by simp only [State.deriveCodes]
@[simp] theorem deriveCodes_resultBits : (s.deriveCodes).resultBits = s.resultBits := by simp only [State.deriveCodes]
@[simp] theorem deriveCodes_stop : (s.deriveCodes).stop = s.stop := by simp only [State.deriveCodes]
@[simp] theorem deriveCodes_dataIn : (s.deriveCodes).dataIn = s.dataIn := by simp only [State.deriveCodes]
@[simp] theorem deriveCodes_dataOut : (s.deriveCodes).dataOut = s.dataOut := by simp only [State.deriveCodes]
@[simp] theorem deriveCodes_files : (s.deriveCodes).files = s.files := by simp only [State.deriveCodes]
@[simp] theorem deriveCodes_io : (s.deriveCodes).io = s.io := by simp only [State.deriveCodes]
@[simp] theorem deriveCodes_inputs : (s.deriveCodes).inputs = s.inputs := by simp only [State.deriveCodes]
@[simp] theorem deriveCodes_response : (s.deriveCodes).response = s.response := by simp only [State.deriveCodes]
@[simp] theorem deriveCodes_raced : (s.deriveCodes).raced = s.raced := by simp only [State.deriveCodes]
@[simp] theorem deriveCodes_taken : (s.deriveCodes).taken = s.taken := by simp only [State.deriveCodes]

end DeriveCodes

section ChangeFile

variable (f : FileId) (b : List Byte) (s : State)

@[simp] theorem changeFile_slot0 : (changeFile f b s).slot0 = s.slot0 := rfl
@[simp] theorem changeFile_slot1 : (changeFile f b s).slot1 = s.slot1 := rfl
@[simp] theorem changeFile_freq : (changeFile f b s).freq = s.freq := rfl
@[simp] theorem changeFile_total : (changeFile f b s).total = s.total := rfl
@[simp] theorem changeFile_tree : (changeFile f b s).tree = s.tree := rfl
@[simp] theorem changeFile_codeLen : (changeFile f b s).codeLen = s.codeLen := rfl
@[simp] theorem changeFile_codeBits : (changeFile f b s).codeBits = s.codeBits := rfl
@[simp] theorem changeFile_walk : (changeFile f b s).walk = s.walk := rfl
@[simp] theorem changeFile_emitted : (changeFile f b s).emitted = s.emitted := rfl
@[simp] theorem changeFile_stopL : (changeFile f b s).stopL = s.stopL := rfl
@[simp] theorem changeFile_latch : (changeFile f b s).latch = s.latch := rfl
@[simp] theorem changeFile_status : (changeFile f b s).status = s.status := rfl
@[simp] theorem changeFile_arg0 : (changeFile f b s).arg0 = s.arg0 := rfl
@[simp] theorem changeFile_arg1 : (changeFile f b s).arg1 = s.arg1 := rfl
@[simp] theorem changeFile_resultBits : (changeFile f b s).resultBits = s.resultBits := rfl
@[simp] theorem changeFile_stop : (changeFile f b s).stop = s.stop := rfl
@[simp] theorem changeFile_dataIn : (changeFile f b s).dataIn = s.dataIn := rfl
@[simp] theorem changeFile_dataOut : (changeFile f b s).dataOut = s.dataOut := rfl
@[simp] theorem changeFile_files : (changeFile f b s).files = s.files.update f b := rfl
@[simp] theorem changeFile_io : (changeFile f b s).io = s.io := rfl
@[simp] theorem changeFile_inputs : (changeFile f b s).inputs = s.inputs := rfl
@[simp] theorem changeFile_response : (changeFile f b s).response = s.response := rfl
@[simp] theorem changeFile_raced : (changeFile f b s).raced = (s.raced || boundNow s f) := rfl
@[simp] theorem changeFile_taken : (changeFile f b s).taken = s.taken := rfl

end ChangeFile

section BusError

variable (s : State)

@[simp] theorem busError_slot0 : (busError s).slot0 = s.slot0 := rfl
@[simp] theorem busError_slot1 : (busError s).slot1 = s.slot1 := rfl
@[simp] theorem busError_freq : (busError s).freq = s.freq := rfl
@[simp] theorem busError_total : (busError s).total = s.total := rfl
@[simp] theorem busError_tree : (busError s).tree = s.tree := rfl
@[simp] theorem busError_codeLen : (busError s).codeLen = s.codeLen := rfl
@[simp] theorem busError_codeBits : (busError s).codeBits = s.codeBits := rfl
@[simp] theorem busError_walk : (busError s).walk = s.walk := rfl
@[simp] theorem busError_emitted : (busError s).emitted = s.emitted := rfl
@[simp] theorem busError_stopL : (busError s).stopL = s.stopL := rfl
@[simp] theorem busError_latch : (busError s).latch = s.latch := rfl
@[simp] theorem busError_status : (busError s).status = s.status := rfl
@[simp] theorem busError_arg0 : (busError s).arg0 = s.arg0 := rfl
@[simp] theorem busError_arg1 : (busError s).arg1 = s.arg1 := rfl
@[simp] theorem busError_resultBits : (busError s).resultBits = s.resultBits := rfl
@[simp] theorem busError_stop : (busError s).stop = s.stop := rfl
@[simp] theorem busError_dataIn : (busError s).dataIn = s.dataIn := rfl
@[simp] theorem busError_dataOut : (busError s).dataOut = s.dataOut := rfl
@[simp] theorem busError_files : (busError s).files = s.files := rfl
@[simp] theorem busError_io : (busError s).io = s.io := rfl
@[simp] theorem busError_inputs : (busError s).inputs = s.inputs := rfl
@[simp] theorem busError_response : (busError s).response = .busError := rfl
@[simp] theorem busError_raced : (busError s).raced = s.raced := rfl
@[simp] theorem busError_taken : (busError s).taken = s.taken := rfl

end BusError

section Latch

variable (w : Word) (s : State)

@[simp] theorem accept_operandFile : (accept w s).operandFile = s.arg0 := rfl
@[simp] theorem accept_operandOutFile : (accept w s).operandOutFile = s.arg1 := rfl
@[simp] theorem accept_operandBits : (accept w s).operandBits = s.arg0.toNat := rfl

end Latch

section Flags

variable (st : Status) (e : ErrCode) (p : Phase)

@[simp] theorem completed_busy : (st.completed e p).busy = false := rfl
@[simp] theorem completed_done : (st.completed e p).done = true := rfl
@[simp] theorem completed_ovr : (st.completed e p).ovr = st.ovr := rfl
@[simp] theorem completed_err : (st.completed e p).err = e := rfl
@[simp] theorem completed_phase : (st.completed e p).phase = p := rfl
@[simp] theorem accepted_busy : Status.accepted.busy = true := rfl
@[simp] theorem accepted_ovr : Status.accepted.ovr = false := rfl
@[simp] theorem overrun_busy : st.overrun.busy = st.busy := rfl
@[simp] theorem overrun_ovr : st.overrun.ovr = true := rfl

end Flags

section Slots

variable (x : Slot) (d : Dir) (f : FileId) (bits : BitSeq) (r : List Byte) (n : Nat)

/-- R165: `ACC <- ACC ++ x`. -/
@[simp] theorem append_acc : (x.append bits).acc = x.acc ++ bits := by simp [Slot.append, Slot.acc]
@[simp] theorem append_wcur : (x.append bits).wcur = store 64 (x.wcur.toNat + bits.length) := rfl
@[simp] theorem append_mode : (x.append bits).mode = x.mode := rfl
@[simp] theorem append_file : (x.append bits).file = x.file := rfl
@[simp] theorem append_wpos : (x.append bits).wpos = x.wpos := rfl
@[simp] theorem flushed_acc : (x.flushed n).acc = [] := rfl
@[simp] theorem flushed_wcur : (x.flushed n).wcur = 0 := rfl
@[simp] theorem flushed_wpos : (x.flushed n).wpos = store 64 (x.wpos.toNat + n) := rfl
@[simp] theorem flushed_mode : (x.flushed n).mode = x.mode := rfl
@[simp] theorem flushed_file : (x.flushed n).file = x.file := rfl
@[simp] theorem refilled_buf : (x.refilled r).buf = r := rfl
@[simp] theorem refilled_valid : (x.refilled r).valid = store 13 r.length := rfl
@[simp] theorem refilled_cur : (x.refilled r).cur = 0 := rfl
@[simp] theorem refilled_fpos : (x.refilled r).fpos = store 64 (x.fpos.toNat + r.length) := rfl
@[simp] theorem refilled_mode : (x.refilled r).mode = x.mode := rfl
@[simp] theorem refilled_file : (x.refilled r).file = x.file := rfl
@[simp] theorem rewound_buf : x.rewound.buf = [] := rfl
@[simp] theorem rewound_valid : x.rewound.valid = 0 := rfl
@[simp] theorem rewound_cur : x.rewound.cur = 0 := rfl
@[simp] theorem rewound_fpos : x.rewound.fpos = 0 := rfl
@[simp] theorem rewound_mode : x.rewound.mode = x.mode := rfl
@[simp] theorem rewound_file : x.rewound.file = x.file := rfl
@[simp] theorem opened_mode : (Slot.opened d f).mode = modeOfDir d := rfl
@[simp] theorem opened_file : (Slot.opened d f).file = f := rfl
@[simp] theorem opened_acc : (Slot.opened d f).acc = [] := rfl
@[simp] theorem opened_valid : (Slot.opened d f).valid = 0 := rfl
@[simp] theorem opened_cur : (Slot.opened d f).cur = 0 := rfl
@[simp] theorem opened_fpos : (Slot.opened d f).fpos = 0 := rfl

/-- A fresh stream is well formed (R162). -/
theorem opened_wf : (Slot.opened d f).wf := by cases d <;> simp [Slot.wf, Slot.opened, Slot.reset, modeOfDir, Slot.acc, Slot.validBits]

theorem reset_slot_wf : Slot.reset.wf := rfl

/-- R165: `AppendBits` keeps a write slot's invariant. -/
theorem append_wf {x : Slot} (h : x.wf) (m : x.mode = .write) (bits : BitSeq) : (x.append bits).wf := by
  simp only [Slot.wf, m] at h
  obtain ⟨h1, h2, h3, h4, h5⟩ := h
  simp only [Slot.wf, append_mode, m]
  refine ⟨h1, h2, h3, h4, fun lt => ?_⟩
  simp only [append_acc, List.length_append] at lt
  have e := h5 (by omega)
  rw [append_wcur, store_toNat (by omega), append_acc, List.length_append, e]

/-- R167: a flush keeps a write slot's invariant. -/
theorem flushed_wf {x : Slot} (h : x.wf) (m : x.mode = .write) (n : Nat) : (x.flushed n).wf := by
  simp only [Slot.wf, m] at h
  obtain ⟨h1, h2, h3, h4, -⟩ := h
  simp only [Slot.wf, flushed_mode, m]
  exact ⟨h1, h2, h3, h4, fun _ => rfl⟩

/-- R172: a refill of at most 4096 bytes keeps a read slot's invariant. -/
theorem refilled_wf {x : Slot} (h : x.wf) (m : x.mode = .read) {r : List Byte} (l : r.length ≤ Config.readCap) :
    (x.refilled r).wf := by
  simp only [Slot.wf, m] at h
  obtain ⟨-, -, -, h4, h5, h6⟩ := h
  have e : (store 13 r.length).toNat = r.length := store_toNat (by simp only [Config.readCap] at l; omega)
  simp only [Slot.wf, refilled_mode, m, refilled_buf, refilled_valid, e, refilled_cur, Slot.validBits]
  exact ⟨trivial, l, by simp, h4, h5, h6⟩

/-- R178: a rewind keeps a read slot's invariant. -/
theorem rewound_wf {x : Slot} (h : x.wf) (m : x.mode = .read) : x.rewound.wf := by
  simp only [Slot.wf, m] at h
  obtain ⟨-, -, -, h4, h5, h6⟩ := h
  simp only [Slot.wf, rewound_mode, m]
  exact ⟨rfl, by simp, by simp, h4, h5, h6⟩

/-- R173: `Take` keeps a read slot's invariant: CUR does not pass VALID * 8. -/
theorem takeBits_wf {x : Slot} (h : x.wf) (m : x.mode = .read) {k : Nat}
    (hk : k ≤ x.validBits - x.cur.toNat) : (x.takeBits k).2.wf := by
  simp only [Slot.wf, m] at h
  obtain ⟨h1, h2, h3, h4, h5, h6⟩ := h
  have b : x.cur.toNat + k ≤ x.validBits := by omega
  have c : x.validBits ≤ 32768 := by simp only [Slot.validBits, Config.readCap] at h2 ⊢; omega
  simp only [Slot.takeBits, Slot.wf, m]
  refine ⟨h1, h2, ?_, h4, h5, h6⟩
  rw [store_toNat (by omega)]
  exact b

end Slots

end Sys2Proof.Laws
end

