-- ==== Sys2Proof/Laws/Tree.lean ====
section
/-! SUPPORT. The tree builder's loops (spec/41_huffman_tree.md rules R224 to R226, R234): what the arena holds after each
round of the merge loop. -/

namespace Sys2Proof.Laws

open Sys2Proof.Machine

/-! ## The arena -/

/-- NODE[k], by number. -/
def nodeNat (t : Tree) (k : Nat) : Node := entry t.node k Node.reset

theorem nodeAt_eq (t : Tree) (i : NodeIx) : t.nodeAt i = nodeNat t i.toNat := rfl

theorem nodeNat_setNode (t : Tree) (n : Nat) (x : Node) (k : Nat) (h : n < 511) :
    nodeNat (t.setNode n x) k = if k = n then x else nodeNat t k := by
  unfold nodeNat Tree.setNode entry
  simp only [Vector.getElem?_setIfInBounds]
  by_cases e : n = k
  · subst e; simp [h]
  · rw [if_neg e, if_neg (Ne.symm e)]

theorem nodeNat_reset (k : Nat) : nodeNat Tree.reset k = Node.reset := by
  unfold nodeNat entry Tree.reset
  simp only [Vector.getElem?_replicate]
  split <;> rfl

/-! ## The leaves -/

/-- The symbols that take part in the tree, in increasing order (R221). -/
def used (freq : Vector Word 256) (vs : List Byte) : List Byte := vs.filter (fun v => freqOf freq v ≠ 0)

theorem used_symbols_length (freq : Vector Word 256) : (used freq symbols).length ≤ 256 := by
  have := List.length_filter_le (fun v => freqOf freq v ≠ 0) symbols
  rw [symbols_length] at this
  exact this

/-- R224, the loop: the leaves of the used symbols stand from entry n on, in order. -/
theorem addLeaves_spec (freq : Vector Word 256) :
    ∀ (vs : List Byte) (t : Tree) (n : Nat), n + (used freq vs).length ≤ 511 →
      (addLeaves freq vs t n).2 = n + (used freq vs).length ∧
      (∀ k, k < n → nodeNat (addLeaves freq vs t n).1 k = nodeNat t k) ∧
      (∀ k (h : k < (used freq vs).length),
        nodeNat (addLeaves freq vs t n).1 (n + k) = leafOf freq (used freq vs)[k]) ∧
      ∀ k, n + (used freq vs).length ≤ k → nodeNat (addLeaves freq vs t n).1 k = nodeNat t k
  | [], t, n, _ => ⟨rfl, fun _ _ => rfl, fun k h => absurd h (by simp [used]), fun _ _ => rfl⟩
  | v :: vs, t, n, hn => by
    unfold addLeaves
    by_cases h : freqOf freq v = 0
    · have e : used freq (v :: vs) = used freq vs := by simp [used, h]
      rw [if_neg (by simpa using h)]
      simp only [e] at hn ⊢
      exact addLeaves_spec freq vs t n hn
    · have e : used freq (v :: vs) = v :: used freq vs := by simpa [used, List.filter_cons] using h
      rw [if_pos h]
      simp only [e, List.length_cons] at hn ⊢
      obtain ⟨h1, h2, h3, h4⟩ := addLeaves_spec freq vs (t.setNode n (leafOf freq v)) (n + 1) (by omega)
      refine ⟨by omega, fun k hk => ?_, fun k hk => ?_, fun k hk => ?_⟩
      · rw [h2 k (by omega), nodeNat_setNode _ _ _ _ (by omega), if_neg (by omega)]
      · cases k with
        | zero =>
          rw [h2 _ (by omega), nodeNat_setNode _ _ _ _ (by omega), if_pos (by omega)]
          rfl
        | succ k =>
          have := h3 k (by omega)
          rw [show n + (k + 1) = n + 1 + k by omega, this]
          rfl
      · rw [h4 k (by omega), nodeNat_setNode _ _ _ _ (by omega), if_neg (by omega)]

/-! ## PopMin -/

theorem leastOf_mem (t : Tree) : ∀ (is : List NodeIx) (i : NodeIx), t.leastOf i is ∈ i :: is
  | [], i => by simp [Tree.leastOf]
  | j :: is, i => by
    unfold Tree.leastOf
    split
    · have := leastOf_mem t is j
      exact List.mem_cons_of_mem _ this
    · have := leastOf_mem t is i
      rcases List.mem_cons.1 this with h | h
      · rw [h]; simp
      · exact List.mem_cons_of_mem _ (List.mem_cons_of_mem _ h)

/-- No entry of the list weighs less than the one taken, and none before it weighs as little. -/
theorem leastOf_le (t : Tree) :
    ∀ (is : List NodeIx) (i : NodeIx), (i :: is).Pairwise (· < ·) → ∀ b ∈ i :: is, b ≠ t.leastOf i is →
      (t.nodeAt (t.leastOf i is)).weight < (t.nodeAt b).weight ∨
      ((t.nodeAt (t.leastOf i is)).weight = (t.nodeAt b).weight ∧ t.leastOf i is < b)
  | [], i, _, b, hb, ne => by
    simp only [Tree.leastOf, List.mem_singleton] at hb ne
    exact absurd hb ne
  | j :: is, i, hp, b, hb, ne => by
    have hp' := List.pairwise_cons.1 hp
    have ij : i < j := hp'.1 j (by simp)
    unfold Tree.leastOf at ne ⊢
    split at ne
    · next lt =>
      rw [if_pos lt]
      have ih := leastOf_le t is j hp'.2
      rcases List.mem_cons.1 hb with rfl | hb
      · by_cases e : t.leastOf j is = j
        · rw [e]; exact .inl lt
        · rcases ih j (by simp) (Ne.symm e) with h | ⟨h, -⟩
          · exact .inl (BitVec.lt_trans h lt)
          · exact .inl (by rw [h]; exact lt)
      · exact ih b hb ne
    · next nlt =>
      rw [if_neg nlt]
      have hpi : (i :: is).Pairwise (· < ·) :=
        List.pairwise_cons.2 ⟨fun x hx => hp'.1 x (List.mem_cons_of_mem _ hx), (List.pairwise_cons.1 hp'.2).2⟩
      have ih := leastOf_le t is i hpi
      have bi : b = j ∨ b ∈ i :: is := by
        rcases List.mem_cons.1 hb with h | h
        · exact .inr (by simp [h])
        · rcases List.mem_cons.1 h with h | h
          · exact .inl h
          · exact .inr (by simp [h])
      rcases bi with rfl | hb
      · have le : (t.nodeAt i).weight ≤ (t.nodeAt b).weight := by
          simp only [BitVec.le_def, BitVec.lt_def] at nlt ⊢; omega
        by_cases e : t.leastOf i is = i
        · rw [e]
          by_cases q : (t.nodeAt i).weight = (t.nodeAt b).weight
          · exact .inr ⟨q, ij⟩
          · refine .inl ?_
            simp only [BitVec.le_def, BitVec.lt_def] at le ⊢
            have : (t.nodeAt i).weight.toNat ≠ (t.nodeAt b).weight.toNat :=
              fun h => q (BitVec.eq_of_toNat_eq h)
            omega
        · rcases ih i (by simp) (Ne.symm e) with h | ⟨h, lt⟩
          · refine .inl ?_
            simp only [BitVec.le_def, BitVec.lt_def] at *
            omega
          · have := leastOf_mem t is i
            rcases List.mem_cons.1 this with h' | h'
            · exact absurd h' e
            · have := (List.pairwise_cons.1 hpi).1 _ h'
              simp only [BitVec.lt_def] at this lt
              omega
      · exact ih b hb ne

theorem popMin_cons (t : Tree) (i : NodeIx) (is : List NodeIx) :
    t.popMin (i :: is) = some (t.leastOf i is, (i :: is).erase (t.leastOf i is)) := rfl

/-- PopMin takes an entry of a work list that is not empty, and removes it. -/
theorem popMin_some {t : Tree} {w : List NodeIx} (h : w ≠ []) :
    ∃ a, t.popMin w = some (a, w.erase a) ∧ a ∈ w := by
  cases w with
  | nil => exact absurd rfl h
  | cons i is => exact ⟨_, popMin_cons t i is, leastOf_mem t is i⟩

/-- The entry a of a work list is least in the order (WEIGHT, index) (R225). -/
def LeastIn (t : Tree) (w : List NodeIx) (a : NodeIx) : Prop :=
  a ∈ w ∧ ∀ b ∈ w, b ≠ a →
    (t.nodeAt a).weight < (t.nodeAt b).weight ∨ ((t.nodeAt a).weight = (t.nodeAt b).weight ∧ a < b)

theorem LeastIn.congr {t u : Tree} {w : List NodeIx} {a : NodeIx} (h : LeastIn t w a)
    (e : ∀ x ∈ w, u.nodeAt x = t.nodeAt x) : LeastIn u w a :=
  ⟨h.1, fun b hb ne => by rw [e a h.1, e b hb]; exact h.2 b hb ne⟩

/-- PopMin takes the least entry of a work list that rises, and removes it. -/
theorem popMin_least {t : Tree} {w : List NodeIx} (h : w ≠ []) (hp : w.Pairwise (· < ·)) :
    ∃ a, t.popMin w = some (a, w.erase a) ∧ LeastIn t w a := by
  cases w with
  | nil => exact absurd rfl h
  | cons i is => exact ⟨_, popMin_cons t i is, leastOf_mem t is i, leastOf_le t is i hp⟩

/-! ## The merge loop -/

/-- p is an internal node below entry n whose child is i. -/
def Parent (L n : Nat) (t : Tree) (p i : NodeIx) : Prop :=
  L ≤ p.toNat ∧ p.toNat < n ∧ ((t.nodeAt p).left = i ∨ (t.nodeAt p).right = i)

/-- The weights of a work list, summed. -/
def workSum (t : Tree) (w : List NodeIx) : Nat := (w.map fun i => (t.nodeAt i).weight.toNat).sum

/-- What holds before and after every round of the merge loop: n entries of the arena are in use, the first L of them the
leaves; every entry in use is either in the work list or the child of exactly one internal node. -/
structure Grown (freq : Vector Word 256) (t : Tree) (n : Nat) : Prop where
  size : n + t.work.length = 2 * (used freq symbols).length
  low : (used freq symbols).length ≤ n
  leaf : ∀ k (h : k < (used freq symbols).length), nodeNat t k = leafOf freq (used freq symbols)[k]
  inner : ∀ k, (used freq symbols).length ≤ k → k < n →
    (nodeNat t k).leaf = false ∧ (nodeNat t k).left.toNat < k ∧ (nodeNat t k).right.toNat < k ∧
    (nodeNat t k).left ≠ (nodeNat t k).right ∧
    (nodeNat t k).weight.toNat =
      (t.nodeAt (nodeNat t k).left).weight.toNat + (t.nodeAt (nodeNat t k).right).weight.toNat
  unused : ∀ k, n ≤ k → nodeNat t k = Node.reset
  rising : t.work.Pairwise (· < ·)
  inUse : ∀ i ∈ t.work, i.toNat < n
  open_ : ∀ i : NodeIx, i.toNat < n → (i ∈ t.work ↔ ¬ ∃ p, Parent (used freq symbols).length n t p i)
  one : ∀ i p q : NodeIx, Parent (used freq symbols).length n t p i →
    Parent (used freq symbols).length n t q i → p = q
  total : workSum t t.work = ((used freq symbols).map fun v => (freqOf freq v).toNat).sum

theorem sum_le_mul (l : List Nat) (b : Nat) (h : ∀ x ∈ l, x ≤ b) : l.sum ≤ l.length * b := by
  induction l with
  | nil => simp
  | cons x l ih =>
    have := ih fun y hy => h y (List.mem_cons_of_mem _ hy)
    have := h x (by simp)
    simp only [List.sum_cons, List.length_cons, Nat.succ_mul]
    omega

/-- R38: the sum of the counts is below 2^40. -/
theorem used_sum_lt (freq : Vector Word 256) :
    ((used freq symbols).map fun v => (freqOf freq v).toNat).sum < 2 ^ 40 := by
  have h := sum_le_mul ((used freq symbols).map fun v => (freqOf freq v).toNat) (2 ^ 32 - 1) (by
    intro x hx
    obtain ⟨v, -, rfl⟩ := List.mem_map.1 hx
    have := (freqOf freq v).isLt
    omega)
  have := used_symbols_length freq
  rw [List.length_map] at h
  have : (used freq symbols).length * (2 ^ 32 - 1) ≤ 256 * (2 ^ 32 - 1) := Nat.mul_le_mul_right _ this
  omega

theorem workSum_erase {t : Tree} {w : List NodeIx} {a : NodeIx} (h : a ∈ w) :
    workSum t w = (t.nodeAt a).weight.toNat + workSum t (w.erase a) := by
  unfold workSum
  rw [((List.perm_cons_erase h).map _).sum_eq, List.map_cons, List.sum_cons]

theorem workSum_append (t : Tree) (v w : List NodeIx) : workSum t (v ++ w) = workSum t v + workSum t w := by
  simp [workSum]

theorem workSum_congr {t u : Tree} {w : List NodeIx} (h : ∀ i ∈ w, u.nodeAt i = t.nodeAt i) :
    workSum u w = workSum t w := by
  unfold workSum
  congr 1
  exact List.map_congr_left fun i hi => by rw [h i hi]

/-- One round of the merge loop (R225). -/
theorem Grown.merge {freq : Vector Word 256} {t : Tree} {n : Nat} (g : Grown freq t n) {a b : NodeIx}
    (ha : a ∈ t.work) (hb : b ∈ t.work.erase a) :
    Grown freq { t.setNode n (t.mergedNode a b) with work := (t.work.erase a).erase b ++ [store 9 n] } (n + 1) := by
  have L256 := used_symbols_length freq
  have nd : t.work.Nodup := g.rising.imp (fun h => by intro e; subst e; simp at h)
  have hb' : b ∈ t.work := List.mem_of_mem_erase hb
  have ab : a ≠ b := by
    rintro rfl
    exact absurd hb (nd.not_mem_erase)
  have len : ((t.work.erase a).erase b).length + 2 = t.work.length := by
    rw [List.length_erase_of_mem hb, List.length_erase_of_mem ha]
    have := List.length_pos_of_mem ha
    have := List.length_pos_of_mem hb
    rw [List.length_erase_of_mem ha] at this
    omega
  have hsz := g.size
  have n511 : n < 511 := by omega
  have an := g.inUse a ha
  have bn := g.inUse b hb'
  have sn : (store 9 n).toNat = n := store_toNat (by omega)
  have sum1 := workSum_erase (t := t) ha
  have sum2 := workSum_erase (t := t) hb
  have tot := g.total
  have lt40 := used_sum_lt freq
  have wt : (t.mergedNode a b).weight.toNat = (t.nodeAt a).weight.toNat + (t.nodeAt b).weight.toNat := by
    simp only [Tree.mergedNode]
    exact store_toNat (by omega)
  -- the new arena
  have nn : ∀ k, nodeNat { t.setNode n (t.mergedNode a b) with
      work := (t.work.erase a).erase b ++ [store 9 n] } k = if k = n then t.mergedNode a b else nodeNat t k :=
    fun k => nodeNat_setNode t n _ k n511
  generalize hu : ({ t.setNode n (t.mergedNode a b) with
      work := (t.work.erase a).erase b ++ [store 9 n] } : Tree) = u at nn ⊢
  have uw : u.work = (t.work.erase a).erase b ++ [store 9 n] := by rw [← hu]
  have na : ∀ i : NodeIx, i.toNat < n → u.nodeAt i = t.nodeAt i := fun i hi => by
    rw [nodeAt_eq, nn, if_neg (by omega)]; rfl
  have memW : ∀ i, i ∈ u.work ↔ (i ∈ t.work ∧ i ≠ a ∧ i ≠ b) ∨ i = store 9 n := by
    intro i
    rw [uw, List.mem_append, List.mem_singleton, (nd.erase a).mem_erase_iff, nd.mem_erase_iff]
    tauto
  have par : ∀ p i, Parent (used freq symbols).length (n + 1) u p i ↔
      Parent (used freq symbols).length n t p i ∨ (p.toNat = n ∧ (i = a ∨ i = b)) := by
    intro p i
    unfold Parent
    by_cases e : p.toNat = n
    · have : u.nodeAt p = t.mergedNode a b := by rw [nodeAt_eq, nn, if_pos e]
      rw [this]
      simp only [Tree.mergedNode, e]
      constructor
      · rintro ⟨-, -, h⟩; exact .inr ⟨trivial, h.imp Eq.symm Eq.symm⟩
      · rintro (⟨-, h, -⟩ | ⟨-, h⟩)
        · omega
        · exact ⟨g.low, by omega, h.imp Eq.symm Eq.symm⟩
    · have : u.nodeAt p = t.nodeAt p := by rw [nodeAt_eq, nn, if_neg e]; rfl
      rw [this]
      constructor
      · rintro ⟨h1, h2, h⟩; exact .inl ⟨h1, by omega, h⟩
      · rintro (⟨h1, h2, h⟩ | ⟨h, -⟩)
        · exact ⟨h1, by omega, h⟩
        · exact absurd h e
  refine ⟨?_, by have := g.low; omega, ?_, ?_, ?_, ?_, ?_, ?_, ?_, ?_⟩
  · rw [uw, List.length_append, List.length_singleton]; omega
  · intro k hk
    have := g.low
    rw [nn, if_neg (by omega)]
    exact g.leaf k hk
  · intro k hk hkn
    by_cases e : k = n
    · rw [nn, if_pos e]
      subst e
      refine ⟨rfl, an, bn, ab, ?_⟩
      rw [wt]
      simp only [Tree.mergedNode]
      rw [na a an, na b bn]
    · rw [nn, if_neg e]
      obtain ⟨h1, h2, h3, h4, h5⟩ := g.inner k hk (by omega)
      refine ⟨h1, h2, h3, h4, ?_⟩
      rw [na _ (by omega), na _ (by omega)]
      exact h5
  · intro k hk
    rw [nn, if_neg (by omega)]
    exact g.unused k (by omega)
  · rw [uw, List.pairwise_append]
    refine ⟨(g.rising.sublist List.erase_sublist).sublist List.erase_sublist, by simp, ?_⟩
    intro i hi j hj
    rw [List.mem_singleton] at hj
    subst hj
    have := g.inUse i (List.mem_of_mem_erase (List.mem_of_mem_erase hi))
    rw [BitVec.lt_def, sn]
    exact this
  · intro i hi
    rcases (memW i).1 hi with ⟨h, -, -⟩ | rfl
    · have := g.inUse i h; omega
    · omega
  · intro i hi
    rw [memW]
    by_cases e : i.toNat = n
    · have ei : i = store 9 n := BitVec.eq_of_toNat_eq (by rw [e, sn])
      constructor
      · rintro - ⟨p, hp⟩
        rcases (par p i).1 hp with h | ⟨-, rfl | rfl⟩
        · obtain ⟨h1, h2, h3⟩ := h
          obtain ⟨-, k1, k2, -, -⟩ := g.inner p.toNat h1 h2
          have : i.toNat < p.toNat := by rcases h3 with h3 | h3 <;> rw [← h3] <;> assumption
          omega
        · omega
        · omega
      · exact fun _ => .inr ei
    · have i' : i.toNat < n := by omega
      have ne : i ≠ store 9 n := fun h => e (by rw [h, sn])
      have ho := g.open_ i i'
      constructor
      · rintro (⟨h1, h2, h3⟩ | h)
        · rintro ⟨p, hp⟩
          rcases (par p i).1 hp with h | ⟨-, h | h⟩
          · exact ho.1 h1 ⟨p, h⟩
          · exact h2 h
          · exact h3 h
        · exact absurd h ne
      · intro h
        refine .inl ⟨ho.2 fun ⟨p, hp⟩ => h ⟨p, (par p i).2 (.inl hp)⟩, ?_, ?_⟩
        · rintro rfl
          exact h ⟨store 9 n, (par _ _).2 (.inr ⟨sn, .inl rfl⟩)⟩
        · rintro rfl
          exact h ⟨store 9 n, (par _ _).2 (.inr ⟨sn, .inr rfl⟩)⟩
  · intro i p q hp hq
    have key : ∀ p, Parent (used freq symbols).length n t p i → i ≠ a ∧ i ≠ b := by
      intro p hp
      obtain ⟨h1, h2, h3⟩ := hp
      obtain ⟨-, k1, k2, -, -⟩ := g.inner p.toNat h1 h2
      have hi : i.toNat < n := by
        have : i.toNat < p.toNat := by rcases h3 with h3 | h3 <;> rw [← h3] <;> assumption
        omega
      constructor
      · rintro rfl
        exact (g.open_ _ hi).1 ha ⟨p, h1, h2, h3⟩
      · rintro rfl
        exact (g.open_ _ hi).1 hb' ⟨p, h1, h2, h3⟩
    rcases (par p i).1 hp with h | ⟨h, h'⟩ <;> rcases (par q i).1 hq with k | ⟨k, k'⟩
    · exact g.one i p q h k
    · have := key p h; tauto
    · have := key q k; tauto
    · exact BitVec.eq_of_toNat_eq (by omega)
  · rw [uw, workSum_append, workSum_congr (t := t) (u := u)]
    · have : workSum u [store 9 n] = (t.nodeAt a).weight.toNat + (t.nodeAt b).weight.toNat := by
        simp only [workSum, List.map_cons, List.map_nil, List.sum_cons, List.sum_nil, Nat.add_zero]
        rw [nodeAt_eq, nn, if_pos sn, wt]
      rw [this]
      omega
    · intro i hi
      exact na i (g.inUse i (List.mem_of_mem_erase (List.mem_of_mem_erase hi)))

/-- The merge loop ends with at most one entry in the work list (R225, R226). -/
theorem mergeLoop_grown {freq : Vector Word 256} :
    ∀ (k : Nat) (t : Tree) (n : Nat), Grown freq t n → t.work.length ≤ k + 1 →
      Grown freq (mergeLoop k t n).1 (mergeLoop k t n).2 ∧ (mergeLoop k t n).1.work.length ≤ 1 ∧
      (mergeLoop k t n).1.leafCount = t.leafCount ∧ (t.work ≠ [] → (mergeLoop k t n).1.work ≠ [])
  | 0, t, n, g, h => ⟨g, h, rfl, id⟩
  | k + 1, t, n, g, h => by
    unfold mergeLoop
    by_cases e : t.work = []
    · rw [e]
      simp only [Tree.popMin]
      exact ⟨g, by simp [e], trivial, fun h => absurd rfl h⟩
    · obtain ⟨a, pa, ha⟩ := popMin_some (t := t) e
      rw [pa]
      simp only
      by_cases e' : t.work.erase a = []
      · rw [e']
        simp only [Tree.popMin]
        have := List.length_erase_of_mem ha
        rw [e'] at this
        simp only [List.length_nil] at this
        exact ⟨g, by omega, trivial, fun h => h⟩
      · obtain ⟨b, pb, hb⟩ := popMin_some (t := t) e'
        rw [pb]
        simp only
        have len : ((t.work.erase a).erase b ++ [store 9 n]).length ≤ k + 1 := by
          rw [List.length_append, List.length_erase_of_mem hb, List.length_erase_of_mem ha, List.length_singleton]
          have := List.length_pos_of_mem hb
          rw [List.length_erase_of_mem ha] at this
          omega
        obtain ⟨i1, i2, i3, i4⟩ := mergeLoop_grown k _ (n + 1) (g.merge ha hb) len
        exact ⟨i1, i2, i3, fun _ => i4 (by simp)⟩

/-- R225, the rounds of the merge loop: the work lists W 0, W 1, ... start with the loop's own; each round takes the least
node and then the least of what is left, makes them LEFT and RIGHT of the next entry, and puts that entry last. What was
below entry n stays. -/
theorem mergeLoop_rounds {freq : Vector Word 256} :
    ∀ (k : Nat) (t : Tree) (n : Nat) (u : Tree), Grown freq t n → t.work.length ≤ k + 1 → u = (mergeLoop k t n).1 →
      (∀ i : NodeIx, i.toNat < n → u.nodeAt i = t.nodeAt i) ∧
      ∃ W : Nat → List NodeIx, W 0 = t.work ∧
        ∀ r, r + 1 < t.work.length →
          ∃ a b m : NodeIx, m.toNat = n + r ∧ LeastIn u (W r) a ∧ LeastIn u ((W r).erase a) b ∧
            (u.nodeAt m).leaf = false ∧ (u.nodeAt m).sym = 0 ∧ (u.nodeAt m).left = a ∧ (u.nodeAt m).right = b ∧
            (u.nodeAt m).weight.toNat = (u.nodeAt a).weight.toNat + (u.nodeAt b).weight.toNat ∧
            W (r + 1) = ((W r).erase a).erase b ++ [m]
  | 0, t, n, u, g, h, hu => by
    exact ⟨fun _ _ => by rw [hu]; rfl, fun _ => t.work, rfl, fun r hr => by omega⟩
  | k + 1, t, n, u, g, h, hu => by
    unfold mergeLoop at hu
    by_cases e : t.work = []
    · rw [e] at hu
      simp only [Tree.popMin] at hu
      exact ⟨fun _ _ => by rw [hu], fun _ => t.work, rfl, fun r hr => by rw [e] at hr; simp at hr⟩
    obtain ⟨a, pa, la⟩ := popMin_least e g.rising
    rw [pa] at hu
    simp only at hu
    by_cases e' : t.work.erase a = []
    · rw [e'] at hu
      simp only [Tree.popMin] at hu
      have len := List.length_erase_of_mem la.1
      rw [e', List.length_nil] at len
      exact ⟨fun _ _ => by rw [hu], fun _ => t.work, rfl, fun r hr => by omega⟩
    obtain ⟨b, pb, lb⟩ := popMin_least e' (g.rising.sublist List.erase_sublist)
    rw [pb] at hu
    simp only at hu
    have len : ((t.work.erase a).erase b ++ [store 9 n]).length + 1 = t.work.length := by
      rw [List.length_append, List.length_erase_of_mem lb.1, List.length_erase_of_mem la.1, List.length_singleton]
      have := List.length_pos_of_mem lb.1
      rw [List.length_erase_of_mem la.1] at this
      omega
    have two : 2 ≤ t.work.length := by rw [← len, List.length_append]; simp
    have L256 := used_symbols_length freq
    have size := g.size
    have g' := g.merge la.1 lb.1
    have sn : (store 9 n).toNat = n := store_toNat (by omega)
    have keep : ∀ i : NodeIx, i.toNat < n → Tree.nodeAt { t.setNode n (t.mergedNode a b) with
        work := (t.work.erase a).erase b ++ [store 9 n] } i = t.nodeAt i := fun i hi =>
      (nodeNat_setNode t n _ i.toNat (by omega)).trans (if_neg (by omega))
    have put : Tree.nodeAt { t.setNode n (t.mergedNode a b) with
        work := (t.work.erase a).erase b ++ [store 9 n] } (store 9 n) = t.mergedNode a b :=
      (nodeNat_setNode t n _ (store 9 n).toNat (by omega)).trans (if_pos sn)
    obtain ⟨f, W, w0, wr⟩ := mergeLoop_rounds k _ (n + 1) u g' (by rw [List.length_append] at len ⊢; omega) hu
    have same : ∀ i : NodeIx, i.toNat < n → u.nodeAt i = t.nodeAt i := fun i hi =>
      (f i (by omega)).trans (keep i hi)
    have an := same a (g.inUse a la.1)
    have bn := same b (g.inUse b (List.mem_of_mem_erase lb.1))
    have un : u.nodeAt (store 9 n) = t.mergedNode a b := (f _ (by omega)).trans put
    have inner := g'.inner n g.low (by omega)
    refine ⟨same, fun r => r.casesOn t.work W, rfl, fun r hr => ?_⟩
    cases r with
    | zero =>
      refine ⟨a, b, store 9 n, sn, la.congr fun x hx => same x (g.inUse x hx),
        lb.congr fun x hx => same x (g.inUse x (List.mem_of_mem_erase hx)), ?_, ?_, ?_, ?_, ?_, w0⟩
      · rw [un]; rfl
      · rw [un]; rfl
      · rw [un]; rfl
      · rw [un]; rfl
      · have nn : nodeNat { t.setNode n (t.mergedNode a b) with
            work := (t.work.erase a).erase b ++ [store 9 n] } n = t.mergedNode a b :=
          (nodeNat_setNode t n _ n (by omega)).trans (if_pos rfl)
        rw [nn] at inner
        have sum := inner.2.2.2.2
        rw [un, an, bn, sum]
        show _ = _
        rw [show (t.mergedNode a b).left = a from rfl, show (t.mergedNode a b).right = b from rfl,
          keep a (g.inUse a la.1), keep b (g.inUse b (List.mem_of_mem_erase lb.1))]
    | succ r =>
      obtain ⟨a', b', m, hm, rest⟩ := wr r (by show r + 1 < List.length (_ ++ _); omega)
      exact ⟨a', b', m, by omega, rest⟩

/-- The state in which the merge loop starts. -/
theorem grown_start (freq : Vector Word 256) :
    Grown freq
      { (addLeaves freq symbols Tree.reset 0).1 with
        leafCount := store 9 (addLeaves freq symbols Tree.reset 0).2
        work := (List.range (addLeaves freq symbols Tree.reset 0).2).map (store 9) }
      (addLeaves freq symbols Tree.reset 0).2 := by
  have L256 := used_symbols_length freq
  obtain ⟨h1, -, h3, h4⟩ := addLeaves_spec freq symbols Tree.reset 0 (by omega)
  simp only [Nat.zero_add] at h1 h3 h4
  rw [h1]
  have st : ∀ k, k < (used freq symbols).length → (store 9 k).toNat = k := fun k hk => store_toNat (by omega)
  have nm : ∀ k, nodeNat { (addLeaves freq symbols Tree.reset 0).1 with
      leafCount := store 9 (used freq symbols).length
      work := (List.range (used freq symbols).length).map (store 9) } k =
      nodeNat (addLeaves freq symbols Tree.reset 0).1 k := fun _ => rfl
  generalize ht : ({ (addLeaves freq symbols Tree.reset 0).1 with
      leafCount := store 9 (used freq symbols).length
      work := (List.range (used freq symbols).length).map (store 9) } : Tree) = t at nm ⊢
  have tw : t.work = (List.range (used freq symbols).length).map (store 9) := by rw [← ht]
  have nop : ∀ p i, ¬ Parent (used freq symbols).length (used freq symbols).length t p i :=
    fun p i ⟨h, h', _⟩ => by omega
  refine ⟨?_, le_refl _, ?_, ?_, ?_, ?_, ?_, ?_, ?_, ?_⟩
  · rw [tw]; simp; omega
  · intro k hk; rw [nm]; exact h3 k hk
  · intro k h h'; omega
  · intro k hk; rw [nm, h4 k hk, nodeNat_reset]
  · rw [tw, List.pairwise_map]
    refine List.Pairwise.imp_of_mem ?_ List.pairwise_lt_range
    intro i j hi hj lt
    rw [BitVec.lt_def, st i (List.mem_range.1 hi), st j (List.mem_range.1 hj)]
    exact lt
  · intro i hi
    rw [tw, List.mem_map] at hi
    obtain ⟨k, hk, rfl⟩ := hi
    rw [st k (List.mem_range.1 hk)]
    exact List.mem_range.1 hk
  · intro i hi
    refine ⟨fun _ ⟨p, hp⟩ => nop p i hp, fun _ => ?_⟩
    rw [tw, List.mem_map]
    exact ⟨i.toNat, List.mem_range.2 hi, BitVec.eq_of_toNat_eq (st _ hi)⟩
  · intro i p q hp
    exact absurd hp (nop p i)
  · rw [tw, workSum, List.map_map]
    congr 1
    apply List.ext_getElem
    · simp
    · intro k h h'
      simp only [List.length_map, List.length_range] at h
      simp only [List.getElem_map, List.getElem_range, Function.comp_apply]
      rw [nodeAt_eq, st k h, nm, h3 k h]
      simp only [leafOf, BitVec.toNat_setWidth]
      exact Nat.mod_eq_of_lt (by have := (freqOf freq (used freq symbols)[k]).isLt; omega)

/-- R224 to R226: the arena of a built tree, with its counts. -/
theorem build_grown (freq : Vector Word 256) :
    ∃ t n, Grown freq t n ∧ t.work.length ≤ 1 ∧ ((used freq symbols).length ≠ 0 → t.work ≠ []) ∧
      (Tree.build freq).node = t.node ∧ (Tree.build freq).leafCount.toNat = (used freq symbols).length ∧
      (Tree.build freq).nodeCount.toNat = n ∧ (Tree.build freq).work = [] := by
  have L256 := used_symbols_length freq
  obtain ⟨h1, -, -, -⟩ := addLeaves_spec freq symbols Tree.reset 0 (by omega)
  obtain ⟨g, w, l, ne⟩ := mergeLoop_grown (addLeaves freq symbols Tree.reset 0).2 _ _ (grown_start freq) (by simp)
  have ne' : (used freq symbols).length ≠ 0 → _ := fun h => ne (by
    simp only [ne_eq, List.map_eq_nil_iff, List.range_eq_nil]
    omega)
  refine ⟨_, _, g, w, ne', rfl, ?_, ?_, rfl⟩
  · show ((mergeLoop _ _ _).1.leafCount).toNat = _
    rw [l, h1]
    exact (store_toNat (by omega)).trans (by omega)
  · have hs := g.size
    refine store_toNat ?_
    by_cases h : (used freq symbols).length = 0
    · omega
    · have := List.length_pos_iff.2 (ne' h)
      omega

/-- R224, R225: the rounds of a build, seen in the tree it leaves. -/
theorem build_rounds (freq : Vector Word 256) :
    ∃ W : Nat → List NodeIx, W 0 = (List.range (used freq symbols).length).map (BitVec.ofNat 9) ∧
      ∀ r, r + 1 < (used freq symbols).length →
        ∃ a b m : NodeIx, m.toNat = (used freq symbols).length + r ∧ LeastIn (Tree.build freq) (W r) a ∧
          LeastIn (Tree.build freq) ((W r).erase a) b ∧
          ((Tree.build freq).nodeAt m).leaf = false ∧ ((Tree.build freq).nodeAt m).sym = 0 ∧
          ((Tree.build freq).nodeAt m).left = a ∧ ((Tree.build freq).nodeAt m).right = b ∧
          ((Tree.build freq).nodeAt m).weight.toNat =
            ((Tree.build freq).nodeAt a).weight.toNat + ((Tree.build freq).nodeAt b).weight.toNat ∧
          W (r + 1) = ((W r).erase a).erase b ++ [m] := by
  have L256 := used_symbols_length freq
  obtain ⟨h1, -, -, -⟩ := addLeaves_spec freq symbols Tree.reset 0 (by omega)
  obtain ⟨-, W, w0, wr⟩ := mergeLoop_rounds (addLeaves freq symbols Tree.reset 0).2 _ _ _ (grown_start freq) (by simp) rfl
  rw [Nat.zero_add] at h1
  refine ⟨W, ?_, fun r hr => ?_⟩
  · rw [w0]
    show List.map _ (List.range _) = _
    rw [h1]
    refine List.map_congr_left fun k hk => ?_
    have hk := List.mem_range.1 hk
    exact if_pos (by omega)
  · obtain ⟨a, b, m, hm, rest⟩ := wr r (by simpa [h1] using hr)
    exact ⟨a, b, m, by omega, rest⟩

end Sys2Proof.Laws
end

