-- ==== Sys2Proof/Laws/Codes.lean ====
section
/-! SUPPORT. The code table (spec/41_huffman_tree.md rules R228, R230, R231, R235): `Visit` gives every leaf below a node
the bits of a path that leads to it, and every leaf of a built tree is below the root. -/

namespace Sys2Proof.Laws

open Sys2Proof.Machine

/-! ## Numbers as bits -/

theorem bitsToNat_lt : ∀ x : BitSeq, bitsToNat x < 2 ^ x.length
  | [] => by simp [bitsToNat]
  | b :: x => by
    have := bitsToNat_lt x
    simp only [bitsToNat, List.length_cons, Nat.pow_succ]
    cases b <;> simp <;> omega

theorem bitsToNat_testBit : ∀ (x : BitSeq) (k : Nat), (bitsToNat x).testBit k = (x[k]?).getD false
  | [], k => by simp [bitsToNat]
  | b :: x, 0 => by cases b <;> simp [bitsToNat, Nat.testBit_zero, Nat.add_mod]
  | b :: x, k + 1 => by
    rw [bitsToNat, Nat.testBit_succ]
    have : (b.toNat + 2 * bitsToNat x) / 2 = bitsToNat x := by
      cases b
      · simp
      · simp; omega
    rw [this, bitsToNat_testBit x k]
    simp

/-- A bit sequence stored in a field that holds it is read back from the field's low bits. -/
theorem bitsOf_store {n : Nat} {x : BitSeq} (h : x.length ≤ n) :
    (bitsOf (store n (bitsToNat x))).take x.length = x := by
  have lt : bitsToNat x < 2 ^ n := Nat.lt_of_lt_of_le (bitsToNat_lt x) (Nat.pow_le_pow_right (by omega) h)
  rw [store_of_lt lt]
  apply List.ext_getElem
  · simp [h]
  · intro k h1 h2
    rw [List.getElem_take, bitsOf_getElem, BitVec.getLsbD_ofNat, bitsToNat_testBit]
    simp [h2]
    omega

/-- The bits of a stored sequence beyond its end are 0 (R42). -/
theorem getLsbD_store_beyond {n : Nat} {x : BitSeq} (h : x.length ≤ n) {k : Nat} (hk : x.length ≤ k) :
    (store n (bitsToNat x)).getLsbD k = false := by
  have lt : bitsToNat x < 2 ^ n := Nat.lt_of_lt_of_le (bitsToNat_lt x) (Nat.pow_le_pow_right (by omega) h)
  rw [store_of_lt lt, BitVec.getLsbD_ofNat, bitsToNat_testBit]
  simp [hk]

/-! ## Paths -/

/-- The bits q lead from node i to node j, through internal nodes only. -/
inductive Path (t : Tree) : NodeIx → BitSeq → NodeIx → Prop
  | here (i : NodeIx) : Path t i [] i
  | down {i j : NodeIx} {b : Bool} {q : BitSeq} : (t.nodeAt i).leaf = false → Path t (t.child i b) q j →
      Path t i (b :: q) j

theorem Path.snoc {t : Tree} {i p : NodeIx} {q : BitSeq} (h : Path t i q p) (hp : (t.nodeAt p).leaf = false)
    (b : Bool) : Path t i (q ++ [b]) (t.child p b) := by
  induction h with
  | here i => exact .down hp (.here _)
  | down h1 _ ih => exact .down h1 (ih hp)

/-- Walking the bits of a path ends at its end. -/
theorem Path.foldl {t : Tree} {i j : NodeIx} {q : BitSeq} (h : Path t i q j) : q.foldl t.child i = j := by
  induction h with
  | here i => rfl
  | down _ _ ih => exact ih

/-- On the way the walk meets internal nodes only. -/
theorem Path.inner {t : Tree} {i j : NodeIx} {q : BitSeq} (h : Path t i q j) :
    ∀ k, k < q.length → (t.nodeAt ((q.take k).foldl t.child i)).leaf = false := by
  induction h with
  | here i => intro k hk; simp at hk
  | down h1 _ ih =>
    intro k hk
    cases k with
    | zero => exact h1
    | succ k => exact ih k (by simpa using hk)

/-- A code leads to one node. -/
theorem Path.det {t : Tree} {i j j' : NodeIx} {q : BitSeq} (h : Path t i q j) (h' : Path t i q j') : j = j' := by
  rw [← h.foldl, ← h'.foldl]

/-- A path that goes on past q passes an internal node there. -/
theorem Path.prefix_inner {t : Tree} {i j j' : NodeIx} {q c : BitSeq} (h : Path t i q j)
    (h' : Path t i (q ++ c) j') (ne : c ≠ []) : (t.nodeAt j).leaf = false := by
  have := h'.inner q.length (by have := List.length_pos_iff.2 ne; simp; omega)
  rw [List.take_left' rfl, h.foldl] at this
  exact this

/-! ## Visit -/

/-- The children of an internal node below n stand below it. -/
def Descends (t : Tree) (n : Nat) : Prop :=
  ∀ i : NodeIx, i.toNat < n → (t.nodeAt i).leaf = false → ∀ b, (t.child i b).toNat < i.toNat

theorem assign_get (c : CodeTable) (v u : Byte) (path : BitSeq) :
    entry (c.assign v path).1 u.toNat 0 = (if u = v then store 8 path.length else entry c.1 u.toNat 0) ∧
    entry (c.assign v path).2 u.toNat 0 = (if u = v then store 256 (bitsToNat path) else entry c.2 u.toNat 0) := by
  unfold CodeTable.assign entry
  simp only [Vector.getElem?_setIfInBounds]
  have hv := v.isLt
  by_cases e : u = v
  · subst e; simp [hv]
  · have : v.toNat ≠ u.toNat := fun h => e (BitVec.eq_of_toNat_eq h.symm)
    simp [e, this]

/-- R228: `Visit(i, path)` gives each symbol of a leaf below i the code path ++ q for a path q to such a leaf, and leaves
every other symbol's code alone. -/
theorem visit_spec {t : Tree} {n : Nat} (d : Descends t n) :
    ∀ (k : Nat) (i : NodeIx) (path : BitSeq) (c : CodeTable) (v : Byte), i.toNat < k → i.toNat < n →
      (∃ q j, Path t i q j ∧ (t.nodeAt j).leaf = true ∧ (t.nodeAt j).sym = v ∧
        entry (visit t k i path c).1 v.toNat 0 = store 8 (path ++ q).length ∧
        entry (visit t k i path c).2 v.toNat 0 = store 256 (bitsToNat (path ++ q))) ∨
      ((∀ q j, Path t i q j → (t.nodeAt j).leaf = true → (t.nodeAt j).sym ≠ v) ∧
        entry (visit t k i path c).1 v.toNat 0 = entry c.1 v.toNat 0 ∧
        entry (visit t k i path c).2 v.toNat 0 = entry c.2 v.toNat 0)
  | 0, i, path, c, v, h, _ => absurd h (by omega)
  | k + 1, i, path, c, v, h, hn => by
    unfold visit
    cases hl : (t.nodeAt i).leaf with
    | true =>
      simp only [if_true]
      obtain ⟨a1, a2⟩ := assign_get c (t.nodeAt i).sym v path
      by_cases e : v = (t.nodeAt i).sym
      · refine .inl ⟨[], i, .here i, hl, e.symm, ?_, ?_⟩
        · rw [a1, if_pos e, List.append_nil]
        · rw [a2, if_pos e, List.append_nil]
      · refine .inr ⟨?_, by rw [a1, if_neg e], by rw [a2, if_neg e]⟩
        intro q j hp hj
        cases hp with
        | here => exact Ne.symm e
        | down h1 _ => rw [hl] at h1; cases h1
    | false =>
      simp only [Bool.false_eq_true, if_false]
      have dl := d i hn hl false
      have dr := d i hn hl true
      have el : t.child i false = (t.nodeAt i).left := rfl
      have er : t.child i true = (t.nodeAt i).right := rfl
      rw [el] at dl; rw [er] at dr
      have L := visit_spec d k (t.nodeAt i).left (path ++ [false]) c v (by omega) (by omega)
      have R := visit_spec d k (t.nodeAt i).right (path ++ [true])
        (visit t k (t.nodeAt i).left (path ++ [false]) c) v (by omega) (by omega)
      rcases R with ⟨q, j, r1, r2, r3, r4, r5⟩ | ⟨r1, r2, r3⟩
      · refine .inl ⟨true :: q, j, .down hl (er ▸ r1), r2, r3, ?_, ?_⟩
        · rw [r4, List.append_assoc]; rfl
        · rw [r5, List.append_assoc]; rfl
      · rcases L with ⟨q, j, l1, l2, l3, l4, l5⟩ | ⟨l1, l2, l3⟩
        · refine .inl ⟨false :: q, j, .down hl (el ▸ l1), l2, l3, ?_, ?_⟩
          · rw [r2, l4, List.append_assoc]; rfl
          · rw [r3, l5, List.append_assoc]; rfl
        · refine .inr ⟨?_, by rw [r2, l2], by rw [r3, l3]⟩
          intro q j hp hj
          cases hp with
          | here => rw [hl] at hj; cases hj
          | @down _ _ b q _ hp =>
            cases b with
            | false => exact l1 q j hp hj
            | true => exact r1 q j hp hj

/-! ## The built tree -/

/-- The number of symbols that take part. -/
def usedCount (freq : Vector Word 256) : Nat := (used freq symbols).length

theorem build_leaf_iff (freq : Vector Word 256) (i : NodeIx) (h : i.toNat < (Tree.build freq).nodeCount.toNat) :
    ((Tree.build freq).nodeAt i).leaf = true ↔ i.toNat < usedCount freq := by
  obtain ⟨t, n, g, -, -, e1, -, e3, -⟩ := build_grown freq
  have na : (Tree.build freq).nodeAt i = t.nodeAt i := by simp only [Tree.nodeAt, e1]
  rw [na, nodeAt_eq]
  constructor
  · intro hl
    by_contra c
    have := (g.inner i.toNat (by unfold usedCount at c; omega) (by omega)).1
    rw [this] at hl; cases hl
  · intro lt
    rw [g.leaf _ lt]; rfl

theorem build_leaf (freq : Vector Word 256) (i : NodeIx) (h : i.toNat < (used freq symbols).length) :
    (Tree.build freq).nodeAt i = leafOf freq (used freq symbols)[i.toNat] := by
  obtain ⟨t, n, g, -, -, e1, -, e3, -⟩ := build_grown freq
  have na : (Tree.build freq).nodeAt i = t.nodeAt i := by simp only [Tree.nodeAt, e1]
  rw [na, nodeAt_eq, g.leaf _ h]

theorem build_descends (freq : Vector Word 256) :
    Descends (Tree.build freq) (Tree.build freq).nodeCount.toNat := by
  intro i hi hl b
  have hL := mt (build_leaf_iff freq i hi).2 (by rw [hl]; simp)
  obtain ⟨t, n, g, -, -, e1, -, e3, -⟩ := build_grown freq
  have na : (Tree.build freq).nodeAt i = t.nodeAt i := by simp only [Tree.nodeAt, e1]
  have := g.inner i.toNat (by unfold usedCount at hL; omega) (by omega)
  unfold Tree.child
  rw [na, nodeAt_eq]
  split
  · exact this.2.2.1
  · exact this.2.1

theorem build_counts (freq : Vector Word 256) :
    (Tree.build freq).leafCount.toNat = usedCount freq ∧
    (Tree.build freq).nodeCount.toNat = 2 * usedCount freq - 1 ∧ usedCount freq ≤ 256 := by
  obtain ⟨t, n, g, w, ne, -, e2, e3, -⟩ := build_grown freq
  refine ⟨e2, ?_, used_symbols_length freq⟩
  have := g.size
  unfold usedCount
  by_cases h : (used freq symbols).length = 0
  · omega
  · have := List.length_pos_iff.2 (ne h)
    omega

theorem build_root (freq : Vector Word 256) (h : usedCount freq ≠ 0) :
    (Tree.build freq).root.toNat = 2 * usedCount freq - 2 := by
  obtain ⟨-, c, l⟩ := build_counts freq
  unfold Tree.root
  rw [BitVec.toNat_sub, show (1 : NodeIx).toNat = 1 from rfl]
  omega

/-- Every entry in use is below the root: it is the root or the child of an entry below the root. -/
theorem build_reach (freq : Vector Word 256) (h : usedCount freq ≠ 0) :
    ∀ (m : Nat) (i : NodeIx), (Tree.build freq).nodeCount.toNat - i.toNat ≤ m →
      i.toNat < (Tree.build freq).nodeCount.toNat → ∃ q, Path (Tree.build freq) (Tree.build freq).root q i
  | 0, i, hm, hi => absurd hi (by omega)
  | m + 1, i, hm, hi => by
    have rt := build_root freq h
    obtain ⟨c1, c2, c3⟩ := build_counts freq
    by_cases er : i = (Tree.build freq).root
    · exact ⟨[], er ▸ .here _⟩
    · obtain ⟨t, n, g, w, ne, e1, e2, e3, -⟩ := build_grown freq
      have na : ∀ j, (Tree.build freq).nodeAt j = t.nodeAt j := fun j => by simp only [Tree.nodeAt, e1]
      have rn : (Tree.build freq).root.toNat < n := by omega
      have rw_ : (Tree.build freq).root ∈ t.work := by
        refine (g.open_ _ rn).2 ?_
        rintro ⟨p, p1, p2, p3⟩
        obtain ⟨-, k1, k2, -, -⟩ := g.inner p.toNat p1 p2
        have : (Tree.build freq).root.toNat < p.toNat := by
          rcases p3 with p3 | p3 <;> rw [← p3] <;> assumption
        omega
      have iw : i ∉ t.work := by
        intro iw
        match hw : t.work, rw_, iw, w with
        | [], r, _, _ => simp at r
        | [x], r, s, _ => simp at r s; exact er (s.trans r.symm)
        | x :: y :: l, _, _, w => simp at w
      have ex : ∃ p, Parent (used freq symbols).length n t p i := by
        by_contra c
        exact iw ((g.open_ i (by omega)).2 c)
      obtain ⟨p, p1, p2, p3⟩ := ex
      obtain ⟨k0, k1, k2, -, -⟩ := g.inner p.toNat p1 p2
      have lt : i.toNat < p.toNat := by rcases p3 with p3 | p3 <;> rw [← p3] <;> assumption
      obtain ⟨q, hq⟩ := build_reach freq h m p (by omega) (by omega)
      have pl : ((Tree.build freq).nodeAt p).leaf = false := by rw [na]; exact k0
      rcases p3 with p3 | p3
      · refine ⟨q ++ [false], ?_⟩
        have := hq.snoc pl false
        rw [show (Tree.build freq).child p false = ((Tree.build freq).nodeAt p).left from rfl, na, p3] at this
        exact this
      · refine ⟨q ++ [true], ?_⟩
        have := hq.snoc pl true
        rw [show (Tree.build freq).child p true = ((Tree.build freq).nodeAt p).right from rfl, na, p3] at this
        exact this

/-- R231: a path to a leaf is shorter than the number of leaves. -/
theorem path_length (freq : Vector Word 256) {i j : NodeIx} {q : BitSeq} (h : Path (Tree.build freq) i q j)
    (hi : i.toNat < (Tree.build freq).nodeCount.toNat) (hj : ((Tree.build freq).nodeAt j).leaf = true) :
    q.length ≤ i.toNat + 1 - usedCount freq := by
  induction h with
  | here i => simp
  | @down i j b q h1 h2 ih =>
    have d := build_descends freq i hi h1 b
    have ii := mt (build_leaf_iff freq i hi).2 (by rw [h1]; simp)
    have := ih (by omega) hj
    simp only [List.length_cons]
    by_cases hc : ((Tree.build freq).child i b).toNat < usedCount freq
    · have hq : q.length = 0 := by omega
      omega
    · omega

/-- The position of a used symbol's leaf. -/
theorem used_index (freq : Vector Word 256) {v : Byte} (h : freqOf freq v ≠ 0) :
    ∃ i : NodeIx, ∃ (hi : i.toNat < (used freq symbols).length), (used freq symbols)[i.toNat] = v := by
  have mem : v ∈ used freq symbols := by simpa [used, mem_symbols] using h
  obtain ⟨k, hk, e⟩ := List.getElem_of_mem mem
  have l := used_symbols_length freq
  have : (BitVec.ofNat 9 k).toNat = k := by rw [BitVec.toNat_ofNat, Nat.mod_eq_of_lt (by omega)]
  refine ⟨BitVec.ofNat 9 k, by omega, ?_⟩
  simp only [this, e]

/-- A leaf of a built tree is that of a used symbol. -/
theorem build_leaf_used (freq : Vector Word 256) {i : NodeIx} (hi : i.toNat < (Tree.build freq).nodeCount.toNat)
    (hl : ((Tree.build freq).nodeAt i).leaf = true) : freqOf freq ((Tree.build freq).nodeAt i).sym ≠ 0 := by
  have lt := (build_leaf_iff freq i hi).1 hl
  rw [build_leaf freq i lt]
  have h2 : (used freq symbols)[i.toNat]'lt ∈ used freq symbols := List.getElem_mem lt
  simpa [used, leafOf] using (List.mem_filter.1 h2).2

theorem path_lt (freq : Vector Word 256) {i j : NodeIx} {q : BitSeq} (h : Path (Tree.build freq) i q j)
    (hi : i.toNat < (Tree.build freq).nodeCount.toNat) : j.toNat < (Tree.build freq).nodeCount.toNat := by
  induction h with
  | here i => exact hi
  | down h1 _ ih => exact ih (by have := build_descends freq _ hi h1 ‹_›; omega)

/-- The code table of a built tree over a cleared one, symbol by symbol (R228, R230, R235): a used symbol's code is the
path to its leaf if there are two leaves or more, and the bit 0 if there is one; the others have none. -/
theorem codes_spec (freq : Vector Word 256) (v : Byte) (c : CodeTable)
    (hc : c = (Tree.build freq).codes (Vector.replicate 256 0, Vector.replicate 256 0)) :
    (freqOf freq v = 0 → entry c.1 v.toNat 0 = 0 ∧ entry c.2 v.toNat 0 = 0) ∧
    (freqOf freq v ≠ 0 → ∃ q : BitSeq, entry c.1 v.toNat 0 = store 8 q.length ∧
      entry c.2 v.toNat 0 = store 256 (bitsToNat q) ∧ 1 ≤ q.length ∧ q.length ≤ 255 ∧
      (usedCount freq = 1 → q = [false]) ∧
      (2 ≤ usedCount freq → q.length + 1 ≤ usedCount freq ∧
        ∃ j, Path (Tree.build freq) (Tree.build freq).root q j ∧ j.toNat < (Tree.build freq).nodeCount.toNat ∧
          ((Tree.build freq).nodeAt j).leaf = true ∧ ((Tree.build freq).nodeAt j).sym = v)) := by
  obtain ⟨c1, c2, c3⟩ := build_counts freq
  have z1 : entry (Vector.replicate 256 (0 : Byte)) v.toNat 0 = 0 := by
    unfold entry; rw [Vector.getElem?_replicate]; split <;> rfl
  have z2 : entry (Vector.replicate 256 (0 : BitVec 256)) v.toNat 0 = 0 := by
    unfold entry; rw [Vector.getElem?_replicate]; split <;> rfl
  unfold Tree.codes at hc
  by_cases h0 : usedCount freq = 0
  · have e : (Tree.build freq).nodeCount = 0 := BitVec.eq_of_toNat_eq (by rw [c2, h0]; rfl)
    rw [if_pos e] at hc
    subst hc
    refine ⟨fun _ => ⟨z1, z2⟩, fun hv => ?_⟩
    obtain ⟨i, hi, -⟩ := used_index freq hv
    unfold usedCount at h0
    omega
  · have e : (Tree.build freq).nodeCount ≠ 0 := fun h => by rw [h] at c2; simp at c2; omega
    rw [if_neg e] at hc
    by_cases h1 : usedCount freq = 1
    · have e1 : (Tree.build freq).leafCount = 1 := BitVec.eq_of_toNat_eq (by rw [c1, h1]; rfl)
      rw [if_pos e1] at hc
      have hu : (0 : NodeIx).toNat < (used freq symbols).length := by unfold usedCount at h1; simp; omega
      have l0 := build_leaf freq 0 hu
      obtain ⟨a1, a2⟩ := assign_get (Vector.replicate 256 0, Vector.replicate 256 0)
        ((Tree.build freq).nodeAt 0).sym v [false]
      rw [← hc] at a1 a2
      by_cases hv : freqOf freq v = 0
      · refine ⟨fun _ => ?_, fun h => absurd hv h⟩
        have ne : v ≠ ((Tree.build freq).nodeAt 0).sym := by
          rintro rfl
          have lf : ((Tree.build freq).nodeAt 0).leaf = true := by rw [l0]; rfl
          exact build_leaf_used freq (by rw [c2, h1]; decide) lf hv
        rw [if_neg ne] at a1 a2
        exact ⟨by rw [a1]; exact z1, by rw [a2]; exact z2⟩
      · refine ⟨fun h => absurd h hv, fun _ => ⟨[false], ?_, ?_, by simp, by simp, fun _ => rfl, fun h => by omega⟩⟩
        all_goals
          obtain ⟨i, hi, ei⟩ := used_index freq hv
          have : i.toNat = 0 := by unfold usedCount at h1; omega
          have ev : v = ((Tree.build freq).nodeAt 0).sym := by
            rw [l0]; simp only [leafOf]; rw [← ei]; congr 1
        · rw [a1, if_pos ev]
        · rw [a2, if_pos ev]
    · have e1 : (Tree.build freq).leafCount ≠ 1 := fun h => by rw [h] at c1; simp at c1; omega
      rw [if_neg e1] at hc
      have rt := build_root freq h0
      have d := build_descends freq
      have V := visit_spec d Config.nodeCap (Tree.build freq).root []
        (Vector.replicate 256 0, Vector.replicate 256 0) v (by simp only [Config.nodeCap]; omega) (by omega)
      rw [← hc] at V
      by_cases hv : freqOf freq v = 0
      · refine ⟨fun _ => ?_, fun h => absurd hv h⟩
        rcases V with ⟨q, j, p1, p2, p3, -, -⟩ | ⟨-, v1, v2⟩
        · exact absurd hv (p3 ▸ build_leaf_used freq (path_lt freq p1 (by omega)) p2)
        · exact ⟨by rw [v1]; exact z1, by rw [v2]; exact z2⟩
      · refine ⟨fun h => absurd h hv, fun _ => ?_⟩
        rcases V with ⟨q, j, p1, p2, p3, v1, v2⟩ | ⟨v0, -, -⟩
        · have len := path_length freq p1 (by omega) p2
          have q1 : 1 ≤ q.length := by
            cases p1 with
            | here =>
              have := (build_leaf_iff freq _ (by omega)).1 p2
              omega
            | down _ _ => simp
          exact ⟨q, by simpa using v1, by simpa using v2, q1, by omega, fun h => absurd h h1,
            fun _ => ⟨by omega, j, p1, path_lt freq p1 (by omega), p2, p3⟩⟩
        · obtain ⟨i, hi, ei⟩ := used_index freq hv
          have lt : i.toNat < (Tree.build freq).nodeCount.toNat := by unfold usedCount at *; omega
          obtain ⟨q, hq⟩ := build_reach freq h0 _ i (le_refl _) lt
          exact absurd (by rw [build_leaf freq i hi]; exact ei) (v0 q i hq ((build_leaf_iff freq i lt).2 hi))

/-- The code of a used symbol as the encoder reads it (R266) is its path. -/
theorem codeOf_eq {s : State} {v : Byte} {q : BitSeq} (h1 : entry s.codeLen v.toNat 0 = store 8 q.length)
    (h2 : entry s.codeBits v.toNat 0 = store 256 (bitsToNat q)) (h : q.length ≤ 255) : s.codeOf v = q := by
  unfold State.codeOf
  rw [h1, h2, store_toNat (by omega)]
  exact bitsOf_store (by omega)

end Sys2Proof.Laws
end

