-- ==== Sys2Proof/Laws/Encoding.lean ====
section
/-! SUPPORT. A command word is its four fields (spec/30_encoding.md rule R130). -/

namespace Sys2Proof.Laws

theorem wordOf_fieldsOf (w : Word) : wordOf (fieldsOf w) = w := by
  unfold wordOf fieldsOf
  apply BitVec.eq_of_getLsbD_eq
  intro i hi
  rw [BitVec.getLsbD_append, BitVec.getLsbD_append, BitVec.getLsbD_append]
  simp only [BitVec.getLsbD_extractLsb']
  by_cases h8 : i < 8
  · simp [h8]
  · by_cases h9 : i < 9
    · have : i = 8 := by omega
      subst this; simp
    · by_cases h10 : i < 10
      · have : i = 9 := by omega
        subst this; simp
      · simp only [h8, decide_false]
        simp [show ¬ i - 8 < 1 by omega, show ¬ i - 8 - 1 < 1 by omega, show i - 8 - 1 - 1 < 22 by omega]
        congr 1; omega

theorem fieldsOf_wordOf (f : CmdFields) : fieldsOf (wordOf f) = f := by
  obtain ⟨op, s, d, r⟩ := f
  unfold fieldsOf wordOf
  simp only [CmdFields.mk.injEq]
  refine ⟨?_, ?_, ?_, ?_⟩ <;>
  · apply BitVec.eq_of_getLsbD_eq
    intro i hi
    simp only [BitVec.getLsbD_extractLsb', BitVec.getLsbD_append, hi, decide_true, Bool.true_and]
    repeat' split
    all_goals first | omega | (congr 1; omega)

/-- The raw word passes the four checks exactly when the decoder reads a command from it (R134, R135). -/
theorem wellFormed_decodeFields_all :
    ∀ op : BitVec 8, ∀ s d : BitVec 1,
      ((decodeFields { op := op, s := s, d := d, rsv := 0 }).toOption.isSome =
        ({ op := op, s := s, d := d, rsv := 0 } : CmdFields).wellFormed) := by
  decide +kernel

/-- R133, R134: the fields select a command exactly when they are the command's own. -/
theorem decodeFields_iff (f : CmdFields) (i : Instr) : decodeFields f = .ok i ↔
   f = { op := opcodeOf i, s := slotBitOf i, d := dirBitOf i, rsv := 0 } := by
  constructor
  · intro h
    obtain ⟨op, s, d, r⟩ := f
    by_cases hr : r = 0
    · subst hr
      have aux : ∀ op : BitVec 8, ∀ s d : BitVec 1, (match decodeFields { op := op, s := s, d := d, rsv := 0 } with
        | .ok i => decide (CmdFields.mk op s d 0 = { op := opcodeOf i, s := slotBitOf i, d := dirBitOf i, rsv := 0 })
        | .error _ => true) = true := by decide +kernel
      have := aux op s d
      rw [h] at this
      simpa using this
    · unfold decodeFields at h; rw [if_pos hr] at h; cases h
  · rintro rfl
    cases i <;> first | rfl | (rename_i a; cases a <;> rfl) | (rename_i a b; cases a <;> cases b <;> rfl)

end Sys2Proof.Laws
end

