-- ==== Sys2Proof/Laws/Memory.lean ====
section
/-! SUPPORT. The laws of the storage (spec/20_memory.md rules R100 to R104): read after write, and that every operation
keeps the canonical form. -/

namespace Sys2Proof.Laws

open Sys2Proof.Machine

@[simp] theorem lookup_nil (f : FileId) : Memory.lookup [] f = none := rfl

theorem lookup_cons (g : FileId) (b : List Byte) (m : Memory) (f : FileId) :
    Memory.lookup ((g, b) :: m) f = if g = f then some b else m.lookup f := rfl

/-- A file holds what was written to it. -/
@[simp] theorem lookup_update_self (m : Memory) (f : FileId) (b : List Byte) : (m.update f b).lookup f = some b := by
  induction m with
  | nil => simp [Memory.update, lookup_cons]
  | cons p m ih =>
    obtain ⟨g, old⟩ := p
    simp only [Memory.update]
    split
    · simp [lookup_cons]
    · split
      · simp [lookup_cons]
      · rw [lookup_cons, if_neg (by rintro rfl; simp_all), ih]

/-- Writing one file leaves every other alone. -/
theorem lookup_update_ne (m : Memory) {f g : FileId} (b : List Byte) (h : g ≠ f) :
    (m.update f b).lookup g = m.lookup g := by
  induction m with
  | nil => simp [Memory.update, lookup_cons, h.symm]
  | cons p m ih =>
    obtain ⟨k, old⟩ := p
    simp only [Memory.update]
    split
    · simp [lookup_cons, h.symm]
    · split
      · rename_i hk
        simp [lookup_cons, h.symm, ← hk]
      · simp [lookup_cons, ih]

theorem lookup_update (m : Memory) (f g : FileId) (b : List Byte) :
    (m.update f b).lookup g = if g = f then some b else m.lookup g := by
  split
  · next h => subst h; exact lookup_update_self m g b
  · next h => exact lookup_update_ne m b h

theorem mem_update {m : Memory} {f : FileId} {b : List Byte} {p : FileId × List Byte} (h : p ∈ m.update f b) :
    p.1 = f ∨ p ∈ m := by
  induction m with
  | nil => simp [Memory.update] at h; simp [h]
  | cons q m ih =>
    obtain ⟨g, old⟩ := q
    simp only [Memory.update] at h
    split at h
    · rcases List.mem_cons.1 h with rfl | h
      · exact .inl rfl
      · exact .inr h
    · split at h
      · rcases List.mem_cons.1 h with rfl | h
        · exact .inl rfl
        · exact .inr (List.mem_cons_of_mem _ h)
      · rcases List.mem_cons.1 h with rfl | h
        · exact .inr (by simp)
        · exact (ih h).imp id (List.mem_cons_of_mem _)

/-- `update` keeps the canonical form. -/
theorem update_wf {m : Memory} (h : m.wf) (f : FileId) (b : List Byte) : (m.update f b).wf := by
  induction m with
  | nil => simp [Memory.update, Memory.wf]
  | cons p m ih =>
    obtain ⟨g, old⟩ := p
    have hm := List.pairwise_cons.1 h
    simp only [Memory.update]
    split
    · next lt =>
      refine List.pairwise_cons.2 ⟨fun q hq => ?_, h⟩
      rcases List.mem_cons.1 hq with rfl | hq
      · exact lt
      · exact BitVec.lt_trans lt (hm.1 q hq)
    · split
      · next eq =>
        subst eq
        exact List.pairwise_cons.2 ⟨hm.1, hm.2⟩
      · next nlt ne =>
        refine List.pairwise_cons.2 ⟨fun q hq => ?_, ih hm.2⟩
        rcases mem_update hq with e | hq
        · have hlt : g < f := by
            simp only [BitVec.lt_def] at nlt ⊢
            have : f.toNat ≠ g.toNat := fun h => ne (BitVec.eq_of_toNat_eq h)
            omega
          simpa [e] using hlt
        · exact hm.1 q hq

/-- `create` keeps the canonical form. -/
theorem create_wf {m : Memory} (h : m.wf) (f : FileId) : (m.create f).wf := by
  unfold Memory.create
  split
  · exact h
  · exact update_wf h f []

/-- `replace` keeps the canonical form. -/
theorem replace_wf {m : Memory} (h : m.wf) (f : Option FileId) (b : List Byte) : (m.replace f b).wf := by
  unfold Memory.replace
  split
  · exact h
  · split
    · exact update_wf h _ b
    · exact h

theorem reset_files_wf : State.reset.files.wf := List.Pairwise.nil

/-- R102: a created file exists, and is empty if it did not. -/
theorem lookup_create (m : Memory) (f g : FileId) :
    (m.create f).lookup g = if g = f then some (m.contents f) else m.lookup g := by
  unfold Memory.create Memory.contents
  split
  · next h =>
    split
    · next e => subst e; obtain ⟨b, hb⟩ := Option.isSome_iff_exists.1 h; simp [hb]
    · rfl
  · next h =>
    rw [lookup_update]
    split
    · next e => subst e; simp at h; simp [h]
    · rfl

/-- Which files exist only grows (R100). -/
theorem isSome_lookup_update {m : Memory} {f g : FileId} {b : List Byte} (h : (m.lookup g).isSome) :
    ((m.update f b).lookup g).isSome := by
  rw [lookup_update]; split
  · rfl
  · exact h

@[simp] theorem contents_update_self (m : Memory) (f : FileId) (b : List Byte) : (m.update f b).contents f = b := by
  simp [Memory.contents]

theorem contents_update_ne (m : Memory) {f g : FileId} (b : List Byte) (h : g ≠ f) :
    (m.update f b).contents g = m.contents g := by
  simp [Memory.contents, lookup_update_ne m b h]

theorem readByte_update_ne (m : Memory) {f g : FileId} (b : List Byte) (h : g ≠ f) (i : Nat) :
    (m.update f b).readByte g i = m.readByte g i := by
  simp [Memory.readByte, contents_update_ne m b h]

/-- R104: "the length becomes max(L, off + n)". -/
theorem splice_length (old : List Byte) (off : Nat) (bytes : List Byte) :
    (splice old off bytes).length = max old.length (off + bytes.length) := by
  simp only [splice, List.length_append, List.length_take, List.length_drop, List.length_replicate]
  omega

/-- R104: outside the written bytes and the filled gap the file is as before. -/
theorem splice_getElem?_outside (old : List Byte) (off : Nat) (bytes : List Byte) {i : Nat} (h : i < old.length)
    (out : i < off ∨ off + bytes.length ≤ i) : (splice old off bytes)[i]? = old[i]? := by
  unfold splice
  simp only
  rcases out with lt | ge
  · rw [List.append_assoc, List.getElem?_append_left (by simp; omega), List.getElem?_take_of_lt lt,
      List.getElem?_append_left h]
  · rw [List.getElem?_append_right (by simp; omega)]
    simp only [List.length_append, List.length_take, List.length_replicate, List.getElem?_drop]
    rw [List.getElem?_append_left (by omega)]
    congr 1
    omega

/-- R104: the written bytes are at their offsets. -/
theorem splice_getElem?_inside (old : List Byte) (off : Nat) (bytes : List Byte) {k : Nat} (h : k < bytes.length) :
    (splice old off bytes)[off + k]? = bytes[k]? := by
  unfold splice
  simp only
  rw [List.append_assoc, List.getElem?_append_right (by simp)]
  simp only [List.length_append, List.length_take, List.length_replicate]
  have e : off + k - min off (old.length + (off - old.length)) = k := by omega
  rw [e, List.getElem?_append_left h]

end Sys2Proof.Laws
end

