-- ==== Sys2Proof/Laws/Ops.lean ====
section
/-! SUPPORT. One lemma for each shared operation that says once everything it can do; later proofs cite it and do not
unfold the operation. -/

namespace Sys2Proof.Laws

open Sys2Proof.Machine

/-! ## The oracle -/

theorem skip_zero (o : IoOracle) : o.skip 0 = o := rfl

theorem skip_succ (k : Nat) (o : IoOracle) : o.skip (k + 1) = o.next.2.skip k := rfl

/-- R106: an oracle that fails no request answers the next one so, and fails none after it. -/
theorem neverFails_next {o : IoOracle} (h : o.neverFails) : o.next.1 = .done ∧ o.next.2.neverFails :=
  ⟨h 0, fun k => h (k + 1)⟩

/-! ## Storage requests -/

theorem ask_apply (s : State) : ask s = .ok s.io.next.1 { s with io := s.io.next.2 } := rfl

/-- A request that changes f is performed, or fails leaving f unspecified, or fails changing nothing (R104, R105). -/
theorem mutate_cases (f : FileId) (c : Memory → Memory) (s : State) :
    (s.io.next.1 = .done ∧ mutate f c s = .ok () { s with io := s.io.next.2, files := c s.files }) ∨
    (s.io.next.1 = .failed ∧ mutate f c s = .error .io
      { s with io := s.io.next.2, files := s.files.update f (Config.unspecifiedBytes s.taken), taken := s.taken + 1 }) ∨
    (s.io.next.1 = .notReached ∧ mutate f c s = .error .io { s with io := s.io.next.2 }) := by
  unfold mutate
  rw [bind_apply, ask_apply]
  simp only
  cases s.io.next.1 with
  | done => exact .inl ⟨rfl, rfl⟩
  | failed => exact .inr (.inl ⟨rfl, rfl⟩)
  | notReached => exact .inr (.inr ⟨rfl, rfl⟩)

/-- R101. -/
theorem stOpenRead_cases (f : FileId) (s : State) :
    (((s.files.lookup f).isSome ∧ s.io.next.1 = .done) ∧
      stOpenRead f s = .ok () { s with io := s.io.next.2 }) ∨
    (¬ ((s.files.lookup f).isSome ∧ s.io.next.1 = .done) ∧
      stOpenRead f s = .error .io { s with io := s.io.next.2 }) := by
  unfold stOpenRead
  rw [bind_apply, ask_apply]
  simp only [bind_apply, get_apply, ite_apply, pure_apply, throw_apply]
  by_cases h : (s.files.lookup f).isSome ∧ s.io.next.1 = .done
  · exact .inl ⟨h, if_pos h⟩
  · exact .inr ⟨h, if_neg h⟩

/-- R102. -/
theorem stOpenWrite_cases (f : FileId) (s : State) :
    (s.io.next.1 = .done ∧
      stOpenWrite f s = .ok () { s with io := s.io.next.2, files := s.files.create f }) ∨
    (s.io.next.1 ≠ .done ∧ stOpenWrite f s = .error .io { s with io := s.io.next.2 }) := by
  unfold stOpenWrite
  rw [bind_apply, ask_apply]
  simp only [ite_apply, modify_apply, throw_apply]
  by_cases h : s.io.next.1 = .done
  · exact .inl ⟨h, if_pos h⟩
  · exact .inr ⟨h, if_neg h⟩

/-- R103. -/
theorem stRead_cases (f : FileId) (off max : Nat) (s : State) :
    (s.io.next.1 = .done ∧
      stRead f off max s = .ok (((s.files.contents f).drop off).take max) { s with io := s.io.next.2 }) ∨
    (s.io.next.1 ≠ .done ∧ stRead f off max s = .error .io { s with io := s.io.next.2 }) := by
  unfold stRead
  rw [bind_apply, ask_apply]
  simp only [bind_apply, get_apply, ite_apply, pure_apply, throw_apply]
  by_cases h : s.io.next.1 = .done
  · exact .inl ⟨h, if_pos h⟩
  · exact .inr ⟨h, if_neg h⟩

/-! ## Slots -/

@[simp] theorem getSlot_apply (i : SlotId) (s : State) : getSlot i s = .ok (s.slot i) s := rfl

@[simp] theorem putSlot_apply (i : SlotId) (x : Slot) (s : State) : putSlot i x s = .ok () (s.setSlot i x) := rfl

/-- R160: the check changes no state; it passes, or raises NOT_OPEN, or raises INVALID_MODE. -/
theorem checkSlot_cases (i : SlotId) (m : Mode) (s : State) :
    ((s.slot i).mode = .closed ∧ checkSlot i m s = .error .notOpen s) ∨
    ((s.slot i).mode ≠ .closed ∧ (s.slot i).mode ≠ m ∧ checkSlot i m s = .error .invalidMode s) ∨
    ((s.slot i).mode ≠ .closed ∧ (s.slot i).mode = m ∧ checkSlot i m s = .ok () s) := by
  unfold checkSlot
  simp only [bind_apply, getSlot_apply, ite_apply, throw_apply, pure_apply]
  by_cases h : (s.slot i).mode = .closed
  · exact .inl ⟨h, if_pos h⟩
  · by_cases h' : (s.slot i).mode = m
    · exact .inr (.inr ⟨h, h', by rw [if_neg h, if_neg (not_not.2 h')]⟩)
    · exact .inr (.inl ⟨h, h', by rw [if_neg h, if_pos h']⟩)

/-- R323: the range check changes no state. -/
theorem checkXfer_apply (n : Nat) (s : State) :
    checkXfer n s = if n > Config.maxXferBits then .error .xferLen s else .ok () s := by
  unfold checkXfer
  rw [ite_apply, throw_apply, pure_apply]

theorem appendBits_apply (i : SlotId) (bits : BitSeq) (s : State) :
    appendBits i bits s = .ok () (s.setSlot i ((s.slot i).append bits)) := rfl

theorem rewindSlot_apply (i : SlotId) (s : State) :
    rewindSlot i s = .ok () (s.setSlot i (s.slot i).rewound) := rfl

/-- R162: an open first closes the slot; it succeeds with a fresh stream, or leaves the slot closed with IO. -/
theorem openSlot_cases (i : SlotId) (d : Dir) (f : FileId) (s : State) :
    (∃ m, s.io.next.1 = .done ∧ (d = .read → (s.files.lookup f).isSome ∧ m = s.files) ∧
      (d = .write → m = s.files.create f) ∧
      openSlot i d f s = .ok () { s.setSlot i (Slot.opened d f) with io := s.io.next.2, files := m }) ∨
    ((s.io.next.1 ≠ .done ∨ (d = .read ∧ (s.files.lookup f).isSome = false)) ∧
      openSlot i d f s = .error .io { s.setSlot i Slot.reset with io := s.io.next.2 }) := by
  unfold openSlot
  rw [bind_apply, modify_apply]
  simp only [State.closeSlot]
  cases d with
  | read =>
    simp only [bind_apply, putSlot_apply]
    rcases stOpenRead_cases f (s.setSlot i Slot.reset) with ⟨⟨h1, h2⟩, e⟩ | ⟨h, e⟩
    · refine .inl ⟨s.files, by simpa using h2, fun _ => ⟨by simpa using h1, rfl⟩, by simp, ?_⟩
      simp only [e]
      cases i <;> rfl
    · refine .inr ⟨?_, by simp only [e]; cases i <;> rfl⟩
      simp only [setSlot_files, setSlot_io, not_and_or, Bool.not_eq_true] at h
      exact h.symm.imp id fun h => ⟨trivial, h⟩
  | write =>
    simp only [bind_apply, putSlot_apply]
    rcases stOpenWrite_cases f (s.setSlot i Slot.reset) with ⟨h, e⟩ | ⟨h, e⟩
    · refine .inl ⟨_, by simpa using h, by simp, fun _ => rfl, ?_⟩
      simp only [e]
      cases i <;> rfl
    · exact .inr ⟨.inl (by simpa using h), by simp only [e]; cases i <;> rfl⟩

/-- R170: the truncation empties the file and sets WPOS to 0, or fails with IO leaving the slot as it was. -/
theorem truncateSlot_cases (i : SlotId) (s : State) :
    (s.io.next.1 = .done ∧ truncateSlot i s = .ok ()
      ({ s with io := s.io.next.2, files := s.files.update (s.slot i).file [] }.setSlot i
        { s.slot i with wpos := 0 })) ∨
    (s.io.next.1 = .failed ∧ truncateSlot i s = .error .io
      { s with io := s.io.next.2, files := s.files.update (s.slot i).file (Config.unspecifiedBytes s.taken),
               taken := s.taken + 1 }) ∨
    (s.io.next.1 = .notReached ∧ truncateSlot i s = .error .io { s with io := s.io.next.2 }) := by
  unfold truncateSlot stTruncate
  simp only [bind_apply, getSlot_apply]
  rcases mutate_cases (s.slot i).file (fun m => m.update (s.slot i).file []) s with ⟨h, e⟩ | ⟨h, e⟩ | ⟨h, e⟩
  · exact .inl ⟨h, by simp only [e, putSlot_apply]⟩
  · exact .inr (.inl ⟨h, by simp only [e]⟩)
  · exact .inr (.inr ⟨h, by simp only [e]⟩)

/-- R172: a refill replaces the staging buffer with the next bytes of the file, or fails with IO leaving the slot. -/
theorem refill_cases (i : SlotId) (s : State) :
    (s.io.next.1 = .done ∧ refill i s = .ok ()
      ({ s with io := s.io.next.2 }.setSlot i ((s.slot i).refilled
        (((s.files.contents (s.slot i).file).drop (s.slot i).fpos.toNat).take Config.readCap)))) ∨
    (s.io.next.1 ≠ .done ∧ refill i s = .error .io { s with io := s.io.next.2 }) := by
  unfold refill
  simp only [bind_apply, getSlot_apply]
  rcases stRead_cases (s.slot i).file (s.slot i).fpos.toNat Config.readCap s with ⟨h, e⟩ | ⟨h, e⟩
  · exact .inl ⟨h, by simp only [e, putSlot_apply]⟩
  · exact .inr ⟨h, by simp only [e]⟩

/-- R173: `Take` delivers the next bits of the chunk after `out` and advances the cursor. -/
theorem take_apply (i : SlotId) (out : BitSeq) (size : Nat) (s : State) :
    take i out size s =
      .ok (out ++ ((s.slot i).takeBits (min (size - out.length) ((s.slot i).validBits - (s.slot i).cur.toNat))).1)
        (s.setSlot i
          ((s.slot i).takeBits (min (size - out.length) ((s.slot i).validBits - (s.slot i).cur.toNat))).2) := rfl

/-- What a failed request of f can leave of the storage: every other file as it was, no file gone, the form kept. -/
def Touched (f : FileId) (m m' : Memory) : Prop :=
  (∀ g, g ≠ f → m'.lookup g = m.lookup g) ∧ (∀ g, (m.lookup g).isSome → (m'.lookup g).isSome) ∧ (m.wf → m'.wf)

theorem Touched.refl (f : FileId) (m : Memory) : Touched f m m := ⟨fun _ _ => rfl, fun _ h => h, id⟩

theorem touched_update (f : FileId) (m : Memory) (b : List Byte) : Touched f m (m.update f b) :=
  ⟨fun _ hg => lookup_update_ne m b hg, fun _ h => isSome_lookup_update h, fun h => update_wf h f b⟩

theorem Touched.trans {f : FileId} {m m' m'' : Memory} (h : Touched f m m') (h' : Touched f m' m'') :
    Touched f m m'' :=
  ⟨fun g hg => (h'.1 g hg).trans (h.1 g hg), fun g hg => h'.2.1 g (h.2.1 g hg), fun w => h'.2.2 (h.2.2 w)⟩

/-- A failed request that changes f leaves only f in doubt. -/
theorem mutate_error {f : FileId} {c : Memory → Memory} {s : State} (h : s.io.next.1 ≠ .done) :
    ∃ m n, mutate f c s = .error .io { s with io := s.io.next.2, files := m, taken := n } ∧ Touched f s.files m := by
  rcases mutate_cases f c s with ⟨h', -⟩ | ⟨-, e⟩ | ⟨-, e⟩
  · exact absurd h' h
  · exact ⟨_, _, e, touched_update _ _ _⟩
  · exact ⟨_, _, e, Touched.refl _ _⟩

theorem mutate_done {f : FileId} {c : Memory → Memory} {s : State} (h : s.io.next.1 = .done) :
    mutate f c s = .ok () { s with io := s.io.next.2, files := c s.files } := by
  rcases mutate_cases f c s with ⟨-, e⟩ | ⟨h', -⟩ | ⟨h', -⟩
  · exact e
  · rw [h] at h'; cases h'
  · rw [h] at h'; cases h'

/-- The storage after a flush of slot x. -/
def flushedFiles (x : Slot) (m : Memory) : Memory :=
  if (pack x.acc).length > 0 then m.update x.file (splice (m.contents x.file) x.wpos.toNat (pack x.acc)) else m

/-- R167: a flush of an empty accumulator issues only the sync; of a full one the write and the sync. On IO the slot is
as it was. -/
theorem flushSlot_cases (i : SlotId) (s : State) :
    (∃ o, flushSlot i s = .ok ()
        ({ s with io := o, files := flushedFiles (s.slot i) s.files }.setSlot i
          ((s.slot i).flushed (pack (s.slot i).acc).length)) ∧
      o = (if (pack (s.slot i).acc).length > 0 then s.io.next.2.next.2 else s.io.next.2) ∧
      s.io.next.1 = .done ∧ ((pack (s.slot i).acc).length > 0 → s.io.next.2.next.1 = .done)) ∨
    (∃ m o n, flushSlot i s = .error .io { s with io := o, files := m, taken := n } ∧
      (s.io.next.1 ≠ .done ∨ ((pack (s.slot i).acc).length > 0 ∧ s.io.next.2.next.1 ≠ .done)) ∧
      Touched (s.slot i).file s.files m) := by
  unfold flushSlot stWrite stSync flushedFiles
  rw [bind_apply, getSlot_apply]
  simp only
  by_cases h0 : (pack (s.slot i).acc).length > 0
  · simp only [if_pos h0]
    rw [bind_apply]
    by_cases h1 : s.io.next.1 = .done
    · rw [mutate_done h1]
      simp only [bind_apply]
      by_cases h2 : s.io.next.2.next.1 = .done
      · rw [mutate_done h2]
        exact .inl ⟨_, rfl, rfl, h1, fun _ => h2⟩
      · obtain ⟨m, n, e, t⟩ := mutate_error (f := (s.slot i).file) (c := fun m => m)
          (s := { s with
            io := s.io.next.2
            files := s.files.update (s.slot i).file
              (splice (s.files.contents (s.slot i).file) (s.slot i).wpos.toNat (pack (s.slot i).acc)) }) h2
        simp only [e]
        exact .inr ⟨_, _, _, rfl, .inr ⟨h0, h2⟩, (touched_update _ _ _).trans t⟩
    · obtain ⟨m, n, e, t⟩ := mutate_error (f := (s.slot i).file) (s := s) (c := fun m => m.update (s.slot i).file
          (splice (m.contents (s.slot i).file) (s.slot i).wpos.toNat (pack (s.slot i).acc))) h1
      simp only [e]
      exact .inr ⟨_, _, _, rfl, .inl h1, t⟩
  · simp only [if_neg h0]
    rw [bind_apply]
    by_cases h1 : s.io.next.1 = .done
    · rw [mutate_done h1]
      exact .inl ⟨_, rfl, rfl, h1, fun h => absurd h h0⟩
    · obtain ⟨m, n, e, t⟩ := mutate_error (f := (s.slot i).file) (s := s) (c := fun m => m) h1
      simp only [e]
      exact .inr ⟨_, _, _, rfl, .inl h1, t⟩

/-! ## What a read can change -/

/-- Only SLOT[i], within its file and mode, and the oracle differ. -/
def OnlyReads (i : SlotId) (s t : State) : Prop :=
  ∃ x o, t = { s with io := o }.setSlot i x ∧ x.mode = (s.slot i).mode ∧ x.file = (s.slot i).file

theorem OnlyReads.refl (i : SlotId) (s : State) : OnlyReads i s s :=
  ⟨s.slot i, s.io, by cases i <;> rfl, rfl, rfl⟩

theorem OnlyReads.trans (i : SlotId) (s t u : State) : OnlyReads i s t → OnlyReads i t u → OnlyReads i s u := by
  rintro ⟨x, o, rfl, m, f⟩ ⟨y, p, rfl, m', f'⟩
  refine ⟨y, p, by cases i <;> rfl, ?_, ?_⟩
  · rw [m', slot_setSlot_self, m]
  · rw [f', slot_setSlot_self, f]

theorem refill_onlyReads (i : SlotId) : Relates (OnlyReads i) (refill i) := by
  intro s
  rcases refill_cases i s with ⟨-, e⟩ | ⟨-, e⟩
  · unfold after; rw [e]; exact ⟨_, _, rfl, rfl, rfl⟩
  · unfold after; rw [e]; exact ⟨s.slot i, s.io.next.2, by cases i <;> rfl, rfl, rfl⟩

theorem take_onlyReads (i : SlotId) (out : BitSeq) (size : Nat) : Relates (OnlyReads i) (take i out size) := by
  intro s
  unfold after; rw [take_apply]
  exact ⟨_, s.io, rfl, rfl, rfl⟩

theorem getSlot_onlyReads (i j : SlotId) : Relates (OnlyReads i) (getSlot j) := fun s => OnlyReads.refl i s

theorem readMore_onlyReads (i : SlotId) (size : Nat) :
    ∀ (k : Nat) (out : BitSeq), Relates (OnlyReads i) (readMore k i out size)
  | 0, out => relates_pure (OnlyReads.refl i) out
  | k + 1, out => by
    unfold readMore
    refine relates_ite ?_ (relates_pure (OnlyReads.refl i) out)
    refine relates_bind (OnlyReads.trans i) (refill_onlyReads i) fun _ => ?_
    refine relates_bind (OnlyReads.trans i) (getSlot_onlyReads i i) fun x => ?_
    refine relates_ite (relates_pure (OnlyReads.refl i) out) ?_
    exact relates_bind (OnlyReads.trans i) (take_onlyReads i out size) fun out' => readMore_onlyReads i size k out'

theorem readChunks_onlyReads (i : SlotId) (size : Nat) : Relates (OnlyReads i) (readChunks i size) := by
  unfold readChunks
  exact relates_bind (OnlyReads.trans i) (take_onlyReads i [] size) fun out => readMore_onlyReads i size size out

/-- R173: a read changes only its slot and asks the oracle; no file changes (R103). -/
theorem readBits_onlyReads (i : SlotId) (size : Nat) : Relates (OnlyReads i) (readBits i size) := by
  unfold readBits
  refine relates_bind (OnlyReads.trans i) (getSlot_onlyReads i i) fun x => ?_
  refine relates_ite ?_ (readChunks_onlyReads i size)
  refine relates_bind (OnlyReads.trans i) (refill_onlyReads i) fun _ => ?_
  refine relates_bind (OnlyReads.trans i) (getSlot_onlyReads i i) fun y => ?_
  exact relates_ite (relates_pure (OnlyReads.refl i) []) (readChunks_onlyReads i size)

/-! ## Acceptance and completion -/

/-- R328, R329, R321: what a write of w to CMD does. -/
theorem submit_cases (w : Word) (s : State) :
    (s.status.busy = true ∧ submit w s = { s with status := s.status.overrun }) ∨
    (s.status.busy = false ∧ (∃ i, decode w = .ok i) ∧ submit w s = accept w s) ∨
    (s.status.busy = false ∧ (∃ r, decode w = .error r) ∧
      submit w s = complete .illegalCmd .idle (accept w s)) := by
  unfold submit
  cases hb : s.status.busy with
  | true => exact .inl ⟨rfl, by simp⟩
  | false =>
    cases hd : decode w with
    | ok i => exact .inr (.inl ⟨rfl, ⟨i, rfl⟩, by simp⟩)
    | error r => exact .inr (.inr ⟨rfl, ⟨r, rfl⟩, by simp⟩)

/-- R330: a stream command completes with the error its body raised, if any, and PHASE = IDLE. -/
theorem runStream_cases (m : Cmd Unit) (s : State) :
    (∃ t, m s = .ok () t ∧ runStream m s = complete .noError .idle t) ∨
    (∃ e t, m s = .error e t ∧ runStream m s = complete e .idle t) := by
  unfold runStream
  cases h : m s with
  | ok a t => exact .inl ⟨t, rfl, rfl⟩
  | error e t => exact .inr ⟨e, t, rfl, rfl⟩

theorem runSession_nil (s : State) : runSession [] s = complete .noError .done (closeSession s) := rfl

theorem runSession_ok {p : Phase} {m : Cmd Unit} {ps : List (Phase × Cmd Unit)} {s t : State}
    (h : m s = .ok () t) : runSession ((p, m) :: ps) s = runSession ps t := by
  rw [runSession, h]

theorem runSession_error {p : Phase} {m : Cmd Unit} {ps : List (Phase × Cmd Unit)} {s t : State} {e : ErrCode}
    (h : m s = .error e t) : runSession ((p, m) :: ps) s = complete e p (closeSession t) := by
  rw [runSession, h]

/-- R330, R332: however a session ends, it ends in a session close and a completion. -/
theorem runSession_ends (ps : List (Phase × Cmd Unit)) :
    ∀ s, ∃ e p t, runSession ps s = complete e p (closeSession t) := by
  induction ps with
  | nil => exact fun s => ⟨_, _, s, rfl⟩
  | cons q ps ih =>
    obtain ⟨p, m⟩ := q
    intro s
    cases h : m s with
    | ok a t => rw [runSession_ok h]; exact ih t
    | error e t => exact ⟨e, p, t, runSession_error h⟩

end Sys2Proof.Laws
end

