-- ==== Sys2Proof/Laws/Read.lean ====
section
/-! SUPPORT. The read path in closed form (spec/40_bitstream.md rules R172 to R175): a slot that is coherent with its file
delivers the file's next bits, wherever the chunk boundaries fall. -/

namespace Sys2Proof.Laws

open Sys2Proof.Machine

/-! ## Bits of a byte sequence -/

@[simp] theorem length_fileBits (b : List Byte) : (fileBits b).length = 8 * b.length := fileBits_length b

theorem fileBits_append (a b : List Byte) : fileBits (a ++ b) = fileBits a ++ fileBits b := List.flatMap_append

theorem fileBits_split (b : List Byte) (k : Nat) :
    fileBits b = fileBits (b.take k) ++ fileBits (b.drop k) := by
  rw [← fileBits_append, List.take_append_drop]

theorem fileBits_drop (b : List Byte) (k : Nat) : fileBits (b.drop k) = (fileBits b).drop (8 * k) := by
  by_cases h : k ≤ b.length
  · have l : (fileBits (b.take k)).length = 8 * k := by rw [length_fileBits, List.length_take, Nat.min_eq_left h]
    rw [fileBits_split b k, List.drop_left' l]
  · rw [List.drop_eq_nil_of_le (by omega), List.drop_eq_nil_of_le (by rw [length_fileBits]; omega)]
    rfl

theorem fileBits_take (b : List Byte) (k : Nat) : fileBits (b.take k) = (fileBits b).take (8 * k) := by
  by_cases h : k ≤ b.length
  · have l : (fileBits (b.take k)).length = 8 * k := by rw [length_fileBits, List.length_take, Nat.min_eq_left h]
    rw [fileBits_split b k, List.take_left' l]
  · rw [List.take_of_length_le (by omega), List.take_of_length_le (by rw [length_fileBits]; omega)]

/-- The staging buffer's bits from the cursor on. -/
theorem bitsFrom_eq (x : Slot) (c : Nat) : x.bitsFrom c = (fileBits x.buf).drop c := by
  unfold Slot.bitsFrom
  rw [show (x.buf.drop (c / 8)).flatMap bitsOf = fileBits (x.buf.drop (c / 8)) from rfl, fileBits_drop,
    List.drop_drop]
  congr 1
  omega

/-! ## Coherent slots -/

theorem coherent_mode {x : Slot} {F : List Byte} (h : x.coherent F) : x.mode = .read := h.1

theorem coherent_position_le {x : Slot} {F : List Byte} (h : x.coherent F) : x.position ≤ 8 * F.length := by
  obtain ⟨m, w, h1, h2, -⟩ := h
  simp only [Slot.wf, m] at w
  have := w.2.2.1
  simp only [Slot.validBits] at this
  simp only [Slot.position]
  omega

/-- What a coherent slot has before its next refill: the file's bits from its position to FPOS. -/
theorem takeBits_coherent {x : Slot} {F : List Byte} (h : x.coherent F) {k : Nat}
    (hk : k ≤ x.validBits - x.cur.toNat) :
    (x.takeBits k).1 = ((fileBits F).drop x.position).take k ∧ (x.takeBits k).2.coherent F ∧
      (x.takeBits k).2.position = x.position + k ∧ (x.takeBits k).2.file = x.file ∧
      (x.takeBits k).2.fpos = x.fpos ∧ (x.takeBits k).2.valid = x.valid ∧
      (x.takeBits k).2.cur.toNat = x.cur.toNat + k := by
  have w' := takeBits_wf h.2.1 h.1 hk
  obtain ⟨m, w, h1, h2, h3⟩ := h
  simp only [Slot.wf, m] at w
  obtain ⟨w1, w2, w3, w4, w5, w6⟩ := w
  have hc : (store 16 (x.cur.toNat + k)).toNat = x.cur.toNat + k := by
    apply store_toNat
    simp only [Slot.validBits, Config.readCap] at *
    omega
  refine ⟨?_, ⟨m, w', h1, h2, h3⟩, ?_, rfl, rfl, rfl, hc⟩
  · simp only [Slot.takeBits, bitsFrom_eq]
    rw [h3, fileBits_take, fileBits_drop, List.drop_take, List.take_take, List.drop_drop]
    simp only [Slot.position, Slot.validBits] at *
    congr 1
    · omega
    · congr 1; omega
  · simp only [Slot.takeBits, Slot.position, hc]
    omega

/-- A refill of an exhausted coherent slot: it stays coherent at its position. -/
theorem refilled_coherent {x : Slot} {F : List Byte} (h : x.coherent F) (e : x.cur.toNat = x.validBits)
    (b : F.length < 2 ^ 64 ∨ x.position < 2 ^ 64) :
    (x.refilled ((F.drop x.fpos.toNat).take Config.readCap)).coherent F ∧
      (x.refilled ((F.drop x.fpos.toNat).take Config.readCap)).position = x.position ∧
      (x.refilled ((F.drop x.fpos.toNat).take Config.readCap)).valid.toNat = min 4096 (F.length - x.fpos.toNat) ∧
      (x.refilled ((F.drop x.fpos.toNat).take Config.readCap)).cur = 0 := by
  have pl := coherent_position_le h
  obtain ⟨m, w, h1, h2, h3⟩ := h
  have w' := refilled_wf w m (r := (F.drop x.fpos.toNat).take Config.readCap) (by simp)
  have l : ((F.drop x.fpos.toNat).take Config.readCap).length = min 4096 (F.length - x.fpos.toNat) := by
    simp [Config.readCap]
  have hp : x.position = 8 * x.fpos.toNat := by simp only [Slot.position, Slot.validBits] at *; omega
  have hv : (store 13 ((F.drop x.fpos.toNat).take Config.readCap).length).toNat =
      min 4096 (F.length - x.fpos.toNat) := by rw [store_toNat (by omega), l]
  have hf : (store 64 (x.fpos.toNat + ((F.drop x.fpos.toNat).take Config.readCap).length)).toNat =
      x.fpos.toNat + min 4096 (F.length - x.fpos.toNat) := by rw [store_toNat (by omega), l]
  refine ⟨⟨m, w', ?_, ?_, ?_⟩, ?_, ?_, rfl⟩
  · simp only [refilled_valid, refilled_fpos, hv, hf]; omega
  · simp only [refilled_fpos, hf]; omega
  · rw [refilled_buf, refilled_valid, refilled_fpos, hv, hf, Config.readCap]
    rw [show x.fpos.toNat + min 4096 (F.length - x.fpos.toNat) - min 4096 (F.length - x.fpos.toNat) = x.fpos.toNat by
      omega]
    rw [List.take_eq_take_iff]
    simp
  · rw [hp]
    simp only [Slot.position, refilled_valid, refilled_fpos, hv, hf, refilled_cur]
    simp
    omega
  · exact hv

/-! ## Reads -/

/-- From s to t a read delivered n bits of the file F: only the oracle and the slot differ, the slot is coherent and n
bits further, and an oracle that fails no request still fails none. -/
def Delivered (i : SlotId) (F : List Byte) (s t : State) (n : Nat) : Prop :=
  ∃ o x, t = { s with io := o }.setSlot i x ∧ x.coherent F ∧ x.position = (s.slot i).position + n ∧
    x.file = (s.slot i).file ∧ (s.io.neverFails → o.neverFails)

theorem Delivered.slot {i : SlotId} {F : List Byte} {s t : State} {n : Nat} (h : Delivered i F s t n) :
    (t.slot i).coherent F ∧ (t.slot i).position = (s.slot i).position + n ∧ (t.slot i).file = (s.slot i).file := by
  obtain ⟨o, x, rfl, h1, h2, h3, -⟩ := h
  rw [slot_setSlot_self]
  exact ⟨h1, h2, h3⟩

theorem Delivered.files {i : SlotId} {F : List Byte} {s t : State} {n : Nat} (h : Delivered i F s t n) :
    t.files = s.files := by
  obtain ⟨o, x, rfl, -⟩ := h
  simp

theorem Delivered.neverFails {i : SlotId} {F : List Byte} {s t : State} {n : Nat} (h : Delivered i F s t n)
    (nf : s.io.neverFails) : t.io.neverFails := by
  obtain ⟨o, x, rfl, -, -, -, h⟩ := h
  simpa using h nf

theorem Delivered.trans {i : SlotId} {F : List Byte} {s t u : State} {m n : Nat} (h : Delivered i F s t m)
    (h' : Delivered i F t u n) : Delivered i F s u (m + n) := by
  obtain ⟨o, x, rfl, h1, h2, h3, h4⟩ := h
  obtain ⟨p, y, rfl, k1, k2, k3, k4⟩ := h'
  rw [slot_setSlot_self] at k2 k3
  refine ⟨p, y, by cases i <;> rfl, k1, by omega, k3.trans h3, fun nf => k4 (by simpa using h4 nf)⟩

theorem take_delivers {i : SlotId} {F : List Byte} {s : State} (h : (s.slot i).coherent F) (out : BitSeq)
    (size : Nat) :
    ∃ t, take i out size s = .ok (out ++ ((fileBits F).drop (s.slot i).position).take
        (min (size - out.length) ((s.slot i).validBits - (s.slot i).cur.toNat))) t ∧
      Delivered i F s t (min (size - out.length) ((s.slot i).validBits - (s.slot i).cur.toNat)) ∧
      (t.slot i).validBits = (s.slot i).validBits ∧
      (t.slot i).cur.toNat =
        (s.slot i).cur.toNat + min (size - out.length) ((s.slot i).validBits - (s.slot i).cur.toNat) := by
  obtain ⟨e1, e2, e3, e4, -, e6, e7⟩ := takeBits_coherent h (k := min (size - out.length)
    ((s.slot i).validBits - (s.slot i).cur.toNat)) (Nat.min_le_right _ _)
  rw [take_apply, e1]
  refine ⟨_, rfl, ⟨s.io, _, rfl, e2, e3, e4, id⟩, ?_, ?_⟩
  · rw [slot_setSlot_self, Slot.validBits, e6, Slot.validBits]
  · rw [slot_setSlot_self, e7]

theorem refill_delivers {i : SlotId} {F : List Byte} {s : State} (h : (s.slot i).coherent F)
    (hF : s.files.contents (s.slot i).file = F) (e : (s.slot i).cur.toNat = (s.slot i).validBits)
    (b : F.length < 2 ^ 64 ∨ (s.slot i).position < 2 ^ 64) :
    (∃ t, refill i s = .ok () t ∧ Delivered i F s t 0 ∧ (t.slot i).cur = 0 ∧
      (t.slot i).valid.toNat = min 4096 (F.length - (s.slot i).fpos.toNat)) ∨
    (∃ t, refill i s = .error .io t ∧ ¬ s.io.neverFails) := by
  rcases refill_cases i s with ⟨h0, r⟩ | ⟨h0, r⟩
  · obtain ⟨c1, c2, c3, c4⟩ := refilled_coherent h e b
    subst hF
    refine .inl ⟨_, r, ⟨s.io.next.2, _, by cases i <;> rfl, c1, by rw [c2]; rfl, rfl,
      fun nf => (neverFails_next nf).2⟩, ?_, ?_⟩
    · rw [slot_setSlot_self]; exact c4
    · rw [slot_setSlot_self]; exact c3
  · exact .inr ⟨_, r, fun nf => h0 (neverFails_next nf).1⟩

theorem take_add (l : BitSeq) (a b : Nat) : l.take (a + b) = l.take a ++ (l.drop a).take b := by
  induction a generalizing l with
  | zero => simp
  | succ a ih => cases l with
    | nil => simp
    | cons x l => rw [Nat.succ_add, List.take_succ_cons, List.take_succ_cons, List.drop_succ_cons, ih, List.cons_append]

/-- The loop of R173 from an exhausted slot. -/
theorem readMore_delivers {i : SlotId} {F : List Byte} (size : Nat) :
    ∀ (k : Nat) (out : BitSeq) (s : State), (s.slot i).coherent F → s.files.contents (s.slot i).file = F →
      (out.length < size → (s.slot i).cur.toNat = (s.slot i).validBits) → out.length ≤ size →
      size - out.length ≤ k → (F.length < 2 ^ 64 ∨ (s.slot i).position + (size - out.length) < 2 ^ 64) →
      (∃ t, readMore k i out size s =
          .ok (out ++ ((fileBits F).drop (s.slot i).position).take (size - out.length)) t ∧
        Delivered i F s t (min (size - out.length) (8 * F.length - (s.slot i).position))) ∨
      (∃ t, readMore k i out size s = .error .io t ∧ ¬ s.io.neverFails)
  | 0, out, s, h, hF, he, hl, hk, hb => by
    have e0 : size - out.length = 0 := by omega
    refine .inl ⟨s, ?_, ⟨s.io, s.slot i, by cases i <;> rfl, h, by omega, rfl, id⟩⟩
    simp [readMore, e0]
  | k + 1, out, s, h, hF, he, hl, hk, hb => by
    unfold readMore
    rw [ite_apply]
    by_cases lt : out.length < size
    · rw [if_pos lt, bind_apply]
      have hp : (s.slot i).position = 8 * (s.slot i).fpos.toNat := by
        have := he lt; have := h.2.2.1
        simp only [Slot.position, Slot.validBits] at *; omega
      rcases refill_delivers h hF (he lt) (hb.imp id (by omega)) with ⟨t, r, d, c0, v0⟩ | ⟨t, r, nf⟩
      · simp only [r, bind_apply, getSlot_apply, ite_apply, pure_apply]
        have ds := d.slot
        by_cases z : (t.slot i).valid = 0
        · rw [if_pos z]
          have : (s.slot i).position ≥ 8 * F.length := by rw [z] at v0; simp at v0; omega
          refine .inl ⟨t, ?_, ?_⟩
          · rw [List.drop_eq_nil_of_le (by simpa using this)]; simp
          · rw [show min (size - out.length) (8 * F.length - (s.slot i).position) = 0 by omega]; exact d
        · rw [if_neg z]
          have z' : (t.slot i).valid.toNat ≠ 0 := fun e => z (BitVec.eq_of_toNat_eq e)
          obtain ⟨u, tk, du, vb, cb⟩ := take_delivers ds.1 out size
          simp only [tk]
          have us := du.slot
          have hc0 : (t.slot i).cur.toNat = 0 := by rw [c0]; rfl
          have q1 : (t.slot i).validBits = 8 * min 4096 (F.length - (s.slot i).fpos.toNat) := by
            simp only [Slot.validBits, v0]
          have lout : (out ++ ((fileBits F).drop (t.slot i).position).take
              (min (size - out.length) ((t.slot i).validBits - (t.slot i).cur.toNat))).length =
              out.length + min (size - out.length) (t.slot i).validBits := by
            simp only [List.length_append, List.length_take, List.length_drop, length_fileBits]
            rw [ds.2.1]
            omega
          have hz : 0 < (t.slot i).validBits := by simp only [Slot.validBits]; omega
          rcases readMore_delivers size k _ u us.1 (by rw [du.files, d.files, us.2.2, ds.2.2]; exact hF)
            (by rw [lout, vb, cb, hc0]; omega) (by rw [lout]; omega) (by rw [lout]; omega)
            (by rw [lout, us.2.1, ds.2.1]; exact hb.imp id (by omega)) with ⟨w, rw', dw⟩ | ⟨w, rw', nf⟩
          · refine .inl ⟨w, ?_, ?_⟩
            · rw [rw', lout, us.2.1, ds.2.1, hc0, Nat.add_zero, Nat.sub_zero, List.append_assoc, ← List.drop_drop,
                ← take_add]
              congr 3
              omega
            · have := (d.trans du).trans dw
              rw [lout, us.2.1, ds.2.1] at this
              rw [show min (size - out.length) (8 * F.length - (s.slot i).position) = _ from ?_]
              · exact this
              · rw [hc0]; omega
          · exact .inr ⟨w, rw', fun n => nf (du.neverFails (d.neverFails n))⟩
      · simp only [r]
        exact .inr ⟨t, rfl, nf⟩
    · rw [if_neg lt]
      have e0 : size - out.length = 0 := by omega
      refine .inl ⟨s, ?_, ⟨s.io, s.slot i, by cases i <;> rfl, h, by omega, rfl, id⟩⟩
      simp [e0]

theorem readChunks_delivers {i : SlotId} {F : List Byte} {s : State} (size : Nat) (h : (s.slot i).coherent F)
    (hF : s.files.contents (s.slot i).file = F)
    (hb : F.length < 2 ^ 64 ∨ (s.slot i).position + size < 2 ^ 64) :
    (∃ t, readChunks i size s = .ok (((fileBits F).drop (s.slot i).position).take size) t ∧
      Delivered i F s t (min size (8 * F.length - (s.slot i).position))) ∨
    (∃ t, readChunks i size s = .error .io t ∧ ¬ s.io.neverFails) := by
  unfold readChunks
  rw [bind_apply]
  obtain ⟨u, tk, du, vb, cb⟩ := take_delivers h [] size
  simp only [tk]
  have us := du.slot
  have c1 := coherent_position_le h
  have hv : (s.slot i).validBits - (s.slot i).cur.toNat ≤ 8 * F.length - (s.slot i).position := by
    have := h.2.2
    simp only [Slot.validBits, Slot.position] at *
    omega
  have cw : (s.slot i).cur.toNat ≤ (s.slot i).validBits := by
    have w := h.2.1
    simp only [Slot.wf, h.1] at w
    exact w.2.2.1
  simp only [List.nil_append, List.length_nil, Nat.sub_zero] at *
  have lout : (((fileBits F).drop (s.slot i).position).take
      (min size ((s.slot i).validBits - (s.slot i).cur.toNat))).length =
      min size ((s.slot i).validBits - (s.slot i).cur.toNat) := by
    simp only [List.length_take, List.length_drop, length_fileBits]
    omega
  rcases readMore_delivers size size _ u us.1 (by rw [du.files, us.2.2]; exact hF)
    (by rw [lout, vb, cb]; omega) (by rw [lout]; omega) (by rw [lout]; omega)
    (by rw [lout, us.2.1]; exact hb.imp id (by omega)) with ⟨w, rw', dw⟩ | ⟨w, rw', nf⟩
  · refine .inl ⟨w, ?_, ?_⟩
    · rw [rw', lout, us.2.1, ← List.drop_drop, ← take_add]
      congr 2
      omega
    · have := du.trans dw
      rw [lout, us.2.1] at this
      rw [show min size (8 * F.length - (s.slot i).position) = _ from ?_]
      · exact this
      · omega
  · exact .inr ⟨w, rw', fun n => nf (du.neverFails n)⟩

/-- R175: a read of a coherent slot delivers the next bits of the file, as many as asked for and left, or a refill fails. -/
theorem readBits_delivers {i : SlotId} {F : List Byte} {s : State} (size : Nat) (h : (s.slot i).coherent F)
    (hF : s.files.contents (s.slot i).file = F)
    (hb : F.length < 2 ^ 64 ∨ (s.slot i).position + size < 2 ^ 64) :
    (∃ t, readBits i size s = .ok (((fileBits F).drop (s.slot i).position).take size) t ∧
      Delivered i F s t (min size (8 * F.length - (s.slot i).position))) ∨
    (∃ t, readBits i size s = .error .io t ∧ ¬ s.io.neverFails) := by
  unfold readBits
  rw [bind_apply, getSlot_apply]
  simp only [ite_apply]
  by_cases e : (s.slot i).cur.toNat = (s.slot i).validBits
  · rw [if_pos e, bind_apply]
    have hp : (s.slot i).position = 8 * (s.slot i).fpos.toNat := by
      have := h.2.2.1
      simp only [Slot.position, Slot.validBits] at *; omega
    rcases refill_delivers h hF e (hb.imp id (by omega)) with ⟨t, r, d, c0, v0⟩ | ⟨t, r, nf⟩
    · simp only [r, bind_apply, getSlot_apply, ite_apply, pure_apply]
      have ds := d.slot
      by_cases z : (t.slot i).valid = 0
      · rw [if_pos z]
        have : (s.slot i).position ≥ 8 * F.length := by rw [z] at v0; simp at v0; omega
        refine .inl ⟨t, ?_, ?_⟩
        · rw [List.drop_eq_nil_of_le (by simpa using this)]; simp
        · rw [show min size (8 * F.length - (s.slot i).position) = 0 by omega]; exact d
      · rw [if_neg z]
        rcases readChunks_delivers size ds.1 (by rw [d.files, ds.2.2]; exact hF)
          (by rw [ds.2.1]; exact hb) with ⟨w, rw', dw⟩ | ⟨w, rw', nf⟩
        · refine .inl ⟨w, by rw [rw', ds.2.1, Nat.add_zero], ?_⟩
          have := d.trans dw
          rw [ds.2.1] at this
          simpa using this
        · exact .inr ⟨w, rw', fun n => nf (d.neverFails n)⟩
    · simp only [r]
      exact .inr ⟨t, rfl, nf⟩
  · rw [if_neg e]
    exact readChunks_delivers size h hF hb

/-- A read slot just opened or rewound is coherent with any file, at position 0. -/
theorem opened_coherent (f : FileId) (F : List Byte) :
    (Slot.opened .read f).coherent F ∧ (Slot.opened .read f).position = 0 := by
  refine ⟨⟨rfl, opened_wf _ _, by simp, by simp, by simp [Slot.opened, Slot.reset]⟩, by simp [Slot.position]⟩

theorem rewound_coherent {x : Slot} (h : x.wf) (m : x.mode = .read) (F : List Byte) :
    x.rewound.coherent F ∧ x.rewound.position = 0 := by
  refine ⟨⟨m, rewound_wf h m, by simp, by simp, by simp⟩, by simp [Slot.position]⟩

end Sys2Proof.Laws
end

