-- ==== Sys2Proof/Laws/Pack.lean ====
section
/-! SUPPORT. Packing (spec/00_scope.md rule R12): lengths, whole bytes in front of a packed sequence, and the header as
bits (spec/41_huffman_tree.md rule R232). -/

namespace Sys2Proof.Laws

open Sys2Proof.Machine

theorem pack_length (x : BitSeq) : (pack x).length = (x.length + 7) / 8 := by
  induction x using pack.induct with
  | case1 => rfl
  | case2 b0 b1 b2 b3 b4 b5 b6 b7 rest ih =>
    rw [pack_eight, List.length_cons, ih]
    simp only [List.length_cons]
    omega
  | case3 x h1 h2 =>
    match x, h1, h2 with
    | [], h1, _ => exact absurd rfl h1
    | [_], _, _ | [_, _], _, _ | [_, _, _], _, _ | [_, _, _, _], _, _ | [_, _, _, _, _], _, _ | [_, _, _, _, _, _], _, _
    | [_, _, _, _, _, _, _], _, _ => simp [pack]
    | _ :: _ :: _ :: _ :: _ :: _ :: _ :: _ :: _, _, h2 => exact absurd rfl (h2 _ _ _ _ _ _ _ _ _)

theorem bitsOf_byte (v : Byte) :
    bitsOf v = [v.getLsbD 0, v.getLsbD 1, v.getLsbD 2, v.getLsbD 3, v.getLsbD 4, v.getLsbD 5, v.getLsbD 6,
      v.getLsbD 7] := rfl

/-- Whole bytes come out of a packed sequence as they are. -/
theorem pack_fileBits_append (b : List Byte) (x : BitSeq) : pack (fileBits b ++ x) = b ++ pack x := by
  induction b with
  | nil => rfl
  | cons v b ih =>
    have : fileBits (v :: b) ++ x = bitsOf v ++ (fileBits b ++ x) := by
      rw [← List.append_assoc]; rfl
    rw [this]
    have h := byteOfBits_bitsOf v
    rw [bitsOf_byte] at h ⊢
    show byteOfBits _ :: pack (fileBits b ++ x) = _
    rw [h, ih]
    rfl

theorem pack_fileBits (b : List Byte) : pack (fileBits b) = b := by
  have := pack_fileBits_append b []
  simpa using this

/-- All bits of all bytes. -/
theorem unpack_all (b : List Byte) (n : Nat) (h : n = 8 * b.length) : unpack b n = fileBits b := by
  unfold unpack
  rw [show b.flatMap bitsOf = fileBits b from rfl, List.take_of_length_le (by simp; omega)]

theorem fileBits_flatMap {α : Type} (l : List α) (f : α → List Byte) :
    fileBits (l.flatMap f) = l.flatMap fun a => fileBits (f a) := by
  unfold fileBits
  rw [List.flatMap_assoc]

@[simp] theorem le32_length (w : Word) : (le32 w).length = 4 := rfl

@[simp] theorem headerBytes_length (freq : Vector Word 256) : (headerBytes freq).length = 1024 := by
  have : ∀ l : List Byte, (l.flatMap fun v => le32 (freqOf freq v)).length = 4 * l.length := by
    intro l
    induction l with
    | nil => rfl
    | cons v l ih => rw [List.flatMap_cons, List.length_append, ih, le32_length, List.length_cons]; omega
  rw [headerBytes, this, symbols_length]

end Sys2Proof.Laws
end

