-- ==== Sys2Proof/Laws/Session.lean ====
section
/-! SUPPORT. What the phases of the sessions do (spec/42_encoder.md, spec/43_decoder.md): the setup, the loop over the
input's bytes, the count, the header, the body, the flush. -/

namespace Sys2Proof.Laws

open Sys2Proof.Machine

/-! ## SETUP -/

/-- The storage after the output has been created and truncated. -/
def setupFiles (s : State) : Memory := (s.files.create s.operandOutFile).update s.operandOutFile []

theorem setupFiles_touched (s : State) : Touched s.operandOutFile s.files (setupFiles s) := by
  refine ⟨fun g hg => ?_, fun g hg => ?_, fun h => update_wf (create_wf h _) _ _⟩
  · rw [setupFiles, lookup_update_ne _ _ hg, lookup_create, if_neg hg]
  · rw [setupFiles, lookup_update]
    split
    · rfl
    · next hg' => rw [lookup_create, if_neg hg']; exact hg

theorem setupFiles_out (s : State) : (setupFiles s).lookup s.operandOutFile = some [] := lookup_update_self _ _ _

/-- R261: the setup of a session whose operands differ: it ends with both slots opened, or with IO; the input must name a
file. -/
theorem encSetup_cases (s : State) (ne : s.operandFile ≠ s.operandOutFile) :
    ((s.files.lookup s.operandFile).isSome ∧ ∃ o, encSetup s = .ok ()
        { s with
          slot0 := Slot.opened .read s.operandFile
          slot1 := Slot.opened .write s.operandOutFile
          io := o
          files := setupFiles s } ∧ (s.io.neverFails → o.neverFails)) ∨
    (∃ t, encSetup s = .error .io t ∧ Touched s.operandOutFile s.files t.files ∧
      (s.io.neverFails → (s.files.lookup s.operandFile).isSome = false)) := by
  unfold encSetup
  rw [bind_apply, modify_apply]
  simp only [bind_apply, get_apply]
  rw [if_neg (show ¬ ((s.closeSlot .s0).closeSlot .s1).operandFile = ((s.closeSlot .s0).closeSlot .s1).operandOutFile
    from ne)]
  simp only [bind_apply]
  rcases openSlot_cases .s1 .write s.operandOutFile ((s.closeSlot .s0).closeSlot .s1) with
    ⟨m, h1, -, h2, e⟩ | ⟨h1, e⟩
  · have h2 := h2 rfl
    subst h2
    rw [show ((s.closeSlot .s0).closeSlot .s1).operandOutFile = s.operandOutFile from rfl, e]
    simp only
    generalize hu : ({ ((s.closeSlot .s0).closeSlot .s1).setSlot .s1 (Slot.opened .write s.operandOutFile) with
      io := ((s.closeSlot .s0).closeSlot .s1).io.next.2
      files := ((s.closeSlot .s0).closeSlot .s1).files.create s.operandOutFile } : State) = u
    have u1 : (u.slot .s1) = Slot.opened .write s.operandOutFile := by rw [← hu]; rfl
    have u2 : u.files = s.files.create s.operandOutFile := by rw [← hu]; rfl
    have u3 : u.io = s.io.next.2 := by rw [← hu]; rfl
    rcases truncateSlot_cases .s1 u with ⟨k1, e'⟩ | ⟨k1, e'⟩ | ⟨k1, e'⟩
    · rw [e']
      simp only
      generalize hw : (State.setSlot { u with
        io := u.io.next.2
        files := u.files.update (u.slot .s1).file [] } .s1 { u.slot .s1 with wpos := 0 }) = w
      have w1 : w.files = setupFiles s := by rw [← hw]; simp only [setSlot_files, u1, u2]; rfl
      have w2 : w.io = s.io.next.2.next.2 := by rw [← hw]; simp only [setSlot_io, u3]
      have w3 : w = { s with
          slot0 := Slot.reset
          slot1 := Slot.opened .write s.operandOutFile
          io := s.io.next.2.next.2
          files := setupFiles s } := by
        rw [← hw, u1, u2, u3, ← hu]; rfl
      have lk : w.files.lookup s.operandFile = s.files.lookup s.operandFile := by
        rw [w1]; exact (setupFiles_touched s).1 _ ne
      rcases openSlot_cases .s0 .read s.operandFile w with ⟨m', l1, l2, -, e''⟩ | ⟨l1, e''⟩
      · have l3 := (l2 rfl).1
        rw [(l2 rfl).2] at e''
        refine .inl ⟨by rw [lk] at l3; exact l3, w.io.next.2, ?_, ?_⟩
        · rw [show ((s.closeSlot .s0).closeSlot .s1).operandFile = s.operandFile from rfl, e'', w1]
          rw [w3]; rfl
        · intro nf
          rw [w2]
          exact (neverFails_next (neverFails_next (neverFails_next nf).2).2).2
      · refine .inr ⟨_, e'', ?_, fun nf => ?_⟩
        · show Touched _ _ w.files
          rw [w1]; exact setupFiles_touched s
        · rcases l1 with l1 | ⟨-, l1⟩
          · rw [w2] at l1
            exact absurd (neverFails_next (neverFails_next (neverFails_next nf).2).2).1 l1
          · rw [lk] at l1; exact l1
    · rw [e']
      refine .inr ⟨_, rfl, ?_, fun nf => ?_⟩
      · show Touched _ _ (u.files.update (u.slot .s1).file _)
        rw [u1, u2]
        refine Touched.trans ?_ (touched_update _ _ _)
        exact ⟨fun g hg => by rw [lookup_create, if_neg hg],
          fun g hg => by rw [lookup_create]; split; rfl; exact hg, fun h => create_wf h _⟩
      · rw [u3, (neverFails_next (neverFails_next nf).2).1] at k1
        cases k1
    · rw [e']
      refine .inr ⟨_, rfl, ?_, fun nf => ?_⟩
      · show Touched _ _ u.files
        rw [u2]
        exact ⟨fun g hg => by rw [lookup_create, if_neg hg],
          fun g hg => by rw [lookup_create]; split; rfl; exact hg, fun h => create_wf h _⟩
      · rw [u3, (neverFails_next (neverFails_next nf).2).1] at k1
        cases k1
  · rw [show ((s.closeSlot .s0).closeSlot .s1).operandOutFile = s.operandOutFile from rfl, e]
    refine .inr ⟨_, rfl, Touched.refl _ _, fun nf => ?_⟩
    rcases h1 with h1 | ⟨h1, -⟩
    · exact absurd (neverFails_next nf).1 h1
    · cases h1

/-! ## The loop over the input's bytes (R263, R266) -/

/-- The rule of the loop: what holds of the bytes still to come and the state, and does not look at SLOT[0] and the oracle,
is carried through by the action. -/
theorem eachByte_rule {F : List Byte} {act : Byte → Cmd Unit} {P : List Byte → State → Prop}
    {E : ErrCode → State → Prop}
    (stable : ∀ l s o x, P l s → P l ({ s with io := o }.setSlot .s0 x))
    (room : ∀ l s, P l s → F.length < 2 ^ 64 ∨ 8 * (F.length - l.length) + 8 < 2 ^ 64)
    (acts : ∀ v l s, (∃ pre, F = pre ++ v :: l) → P (v :: l) s →
      (∃ t, act v s = .ok () t ∧ P l t ∧ t.slot0 = s.slot0 ∧ t.files = s.files ∧ t.io = s.io) ∨
      (∃ e t, act v s = .error e t ∧ E e t)) :
    ∀ (l : List Byte) (k : Nat) (s : State), l.length < k → (∃ pre, F = pre ++ l) → P l s → s.slot0.coherent F →
      s.slot0.position = 8 * (F.length - l.length) → s.files.contents s.slot0.file = F →
      (∃ t, eachByte act k s = .ok () t ∧ P [] t ∧ t.slot0.coherent F ∧ t.slot0.file = s.slot0.file ∧
        t.files = s.files ∧ (s.io.neverFails → t.io.neverFails)) ∨
      (∃ e t, eachByte act k s = .error e t ∧ (E e t ∨ (e = .io ∧ ¬ s.io.neverFails)))
  | l, 0, s, h, _, _, _, _, _ => absurd h (by omega)
  | l, k + 1, s, h, hpre, hP, hc, hp, hF => by
    unfold eachByte
    rw [bind_apply]
    obtain ⟨pre, hpre⟩ := hpre
    have hlen : F.length = pre.length + l.length := by rw [hpre, List.length_append]
    have bits : (fileBits F).drop s.slot0.position = fileBits l := by
      rw [hp, ← fileBits_drop, hlen, Nat.add_sub_cancel, hpre, List.drop_left' rfl]
    rcases readBits_delivers (i := .s0) 8 hc hF (by rw [slot_s0, hp]; exact room l s hP) with
      ⟨t, r, d⟩ | ⟨t, r, nf⟩
    · rw [r]
      simp only [ite_apply, pure_apply, slot_s0, bits]
      have ds := d.slot
      have tf := d.files
      have Pt : P l t := by
        obtain ⟨o, x, et, -, -, -, -⟩ := d
        rw [et]; exact stable l s o x hP
      match l, hpre, hlen, Pt, hp, h, bits with
      | [], _, hlen, Pt, _, _, _ =>
        rw [if_pos (by rfl)]
        exact .inl ⟨t, rfl, Pt, ds.1, ds.2.2, tf, fun nf => d.neverFails nf⟩
      | v :: l, hpre, hlen, Pt, hp, h, bits =>
        have e8 : (fileBits (v :: l)).take 8 = bitsOf v := by
          show (bitsOf v ++ fileBits l).take 8 = _
          rw [List.take_left' (by simp)]
        rw [e8, if_neg (by simp), bind_apply, byteOfBits_bitsOf]
        rcases acts v l t ⟨pre, hpre⟩ Pt with ⟨u, a, Pu, u1, u2, u3⟩ | ⟨e, u, a, hE⟩
        · rw [a]
          have pos : t.slot0.position = 8 * (F.length - l.length) := by
            have := ds.2.1
            simp only [slot_s0, List.length_cons] at this hp hlen ⊢
            omega
          rcases eachByte_rule stable room acts l k u (by simp at h; omega) ⟨pre ++ [v], by rw [hpre]; simp⟩ Pu
            (by rw [u1]; exact ds.1) (by rw [u1]; exact pos) (by rw [u1, u2, tf]; exact ds.2.2 ▸ hF) with
            ⟨w, ew, w1, w2, w3, w4, w5⟩ | ⟨e, w, ew, hw⟩
          · exact .inl ⟨w, ew, w1, w2, w3.trans (by rw [u1]; exact ds.2.2), w4.trans (u2.trans tf),
              fun nf => w5 (by rw [u3]; exact d.neverFails nf)⟩
          · exact .inr ⟨e, w, ew, hw.imp id fun ⟨h1, h2⟩ => ⟨h1, fun nf => h2 (by rw [u3]; exact d.neverFails nf)⟩⟩
        · rw [a]
          exact .inr ⟨e, u, rfl, .inl hE⟩
    · rw [r]
      exact .inr ⟨.io, t, rfl, .inr ⟨rfl, nf⟩⟩

/-! ## COUNT -/

theorem freqOf_set (freq : Vector Word 256) (v u : Byte) (x : Word) :
    freqOf (freq.setIfInBounds v.toNat x) u = if u = v then x else freqOf freq u := by
  unfold freqOf entry
  simp only [Vector.getElem?_setIfInBounds]
  by_cases e : u = v
  · subst e; simp [u.isLt]
  · have : v.toNat ≠ u.toNat := fun h => e (BitVec.eq_of_toNat_eq h.symm)
    simp [e, this]

theorem freqOf_zero (v : Byte) : freqOf (Vector.replicate 256 0) v = 0 := by
  unfold freqOf entry
  rw [Vector.getElem?_replicate]; split <;> rfl

theorem length_eq_sum_count (l : List Byte) : l.length = (symbols.map fun v => l.count v).sum := by
  induction l with
  | nil => simp only [List.length_nil, List.count_nil, List.map_const', List.sum_replicate, smul_eq_mul, Nat.mul_zero]
  | cons v l ih =>
    have : ∀ (vs : List Byte), vs.Nodup → (vs.map fun u => (v :: l).count u).sum =
        (vs.map fun u => l.count u).sum + if v ∈ vs then 1 else 0 := by
      intro vs nd
      induction vs with
      | nil => simp
      | cons u vs ih =>
        have nd' := List.nodup_cons.1 nd
        rw [List.map_cons, List.sum_cons, List.map_cons, List.sum_cons, ih nd'.2, List.count_cons]
        by_cases e : v = u
        · subst e; simp [nd'.1]; omega
        · have : u ≠ v := Ne.symm e
          simp only [List.mem_cons, e, false_or]
          simp [e]
          omega
    rw [List.length_cons, ih, this symbols (by
      unfold symbols
      refine (List.nodup_range).map_on ?_
      intro a ha b hb e
      have ha := List.mem_range.1 ha
      have hb := List.mem_range.1 hb
      simp only [Config.symbols] at ha hb
      have := congrArg BitVec.toNat e
      simp only [BitVec.toNat_ofNat] at this
      omega), if_pos (mem_symbols v)]

/-- R263, one counted byte. -/
theorem countByte_cases (v : Byte) (s : State) :
    (freqOf s.freq v = 0xFFFFFFFF ∧ countByte v s = .error .countOverflow s) ∨
    (freqOf s.freq v ≠ 0xFFFFFFFF ∧
      countByte v s = .ok () { s with freq := s.freq.setIfInBounds v.toNat (freqOf s.freq v + 1) }) := by
  unfold countByte
  rw [bind_apply, get_apply]
  simp only [ite_apply, throw_apply, set_apply]
  by_cases h : freqOf s.freq v = 0xFFFFFFFF
  · exact .inl ⟨h, if_pos h⟩
  · exact .inr ⟨h, if_neg h⟩

/-- The table counts the bytes of a list. -/
def Counts (freq : Vector Word 256) (l : List Byte) : Prop := ∀ v, (freqOf freq v).toNat = l.count v

theorem Counts.length_lt {freq : Vector Word 256} {l : List Byte} (h : Counts freq l) : l.length < 2 ^ 40 := by
  rw [length_eq_sum_count]
  have := sum_le_mul (symbols.map fun v => l.count v) (2 ^ 32 - 1) (by
    intro x hx
    obtain ⟨v, -, rfl⟩ := List.mem_map.1 hx
    rw [← h v]
    have := (freqOf freq v).isLt
    omega)
  rw [List.length_map, symbols_length] at this
  omega

/-- R263: the count pass over the input F: FREQ counts its bytes and the slot is rewound, or a count overflows, or a
refill fails. Only FREQ, SLOT[0] and the oracle change. -/
theorem countFrequencies_cases {F : List Byte} (s : State) (hc : s.slot0.coherent F) (hp : s.slot0.position = 0)
    (hF : s.files.contents s.slot0.file = F) :
    (∃ o x f, countFrequencies s = .ok () { s with slot0 := x, io := o, freq := f } ∧ Counts f F ∧
      x.coherent F ∧ x.position = 0 ∧ x.file = s.slot0.file ∧ (s.io.neverFails → o.neverFails)) ∨
    (∃ e t, countFrequencies s = .error e t ∧
      ((e = .countOverflow ∧ t.files = s.files ∧ ∃ v, 2 ^ 32 ≤ F.count v) ∨ (e = .io ∧ ¬ s.io.neverFails))) := by
  unfold countFrequencies
  rw [bind_apply, modify_apply]
  simp only [bind_apply, get_apply]
  generalize hu : ({ s with freq := Vector.replicate 256 0 } : State) = u
  have rule := eachByte_rule (F := F) (act := countByte)
    (P := fun l t => (∃ o x f, t = { s with slot0 := x, io := o, freq := f }) ∧
      ∃ pre, F = pre ++ l ∧ Counts t.freq pre)
    (E := fun e t => e = .countOverflow ∧ t.files = s.files ∧ ∃ v, 2 ^ 32 ≤ F.count v)
    (by
      rintro l _ o x ⟨⟨o', x', f, rfl⟩, h⟩
      exact ⟨⟨o, x, f, rfl⟩, h⟩)
    (by
      rintro l t ⟨-, pre, hpre, hcnt⟩
      have := hcnt.length_lt
      have := congrArg List.length hpre
      rw [List.length_append] at this
      omega)
    (by
      rintro v l _ - ⟨⟨o, x, f, rfl⟩, pre, hpre, hcnt⟩
      rcases countByte_cases v { s with slot0 := x, io := o, freq := f } with ⟨h, e⟩ | ⟨h, e⟩
      · refine .inr ⟨_, _, e, rfl, rfl, v, ?_⟩
        have := hcnt v
        rw [h] at this
        rw [hpre, List.count_append, List.count_cons_self, ← this]
        show 2 ^ 32 ≤ 4294967295 + _
        omega
      · refine .inl ⟨_, e, ⟨⟨o, x, _, rfl⟩, pre ++ [v], by rw [hpre]; simp, fun w => ?_⟩, rfl, rfl, rfl⟩
        have hw := hcnt w
        simp only [freqOf_set, List.count_append] at hw ⊢
        by_cases e' : w = v
        · subst e'
          rw [if_pos rfl, BitVec.toNat_add, hw]
          have hne : (freqOf f w).toNat ≠ 4294967295 := fun e => h (BitVec.eq_of_toNat_eq e)
          have := (freqOf f w).isLt
          simp
          omega
        · rw [if_neg e', hw]
          simp [Ne.symm e'])
  rcases rule F u.loopBound u (by unfold State.loopBound; rw [← hu]; simp only [hF]; omega) ⟨[], rfl⟩
    ⟨⟨s.io, s.slot0, _, hu.symm⟩, [], rfl, fun v => by
      rw [← hu]
      show (freqOf (Vector.replicate 256 0) v).toNat = _
      rw [freqOf_zero]; rfl⟩ (by rw [← hu]; exact hc)
    (by rw [← hu]; simp [hp]) (by rw [← hu]; exact hF) with
    ⟨t, e, ⟨⟨o, x, f, rfl⟩, pre, hpre, hcnt⟩, h1, h2, -, h3⟩ | ⟨e, t, et, h⟩
  · rw [e]
    simp only [rewindSlot_apply]
    have rw_ := rewound_coherent (x := x) h1.2.1 h1.1 F
    refine .inl ⟨o, x.rewound, f, rfl, by rw [hpre, List.append_nil]; exact hcnt, rw_.1, rw_.2, ?_, ?_⟩
    · rw [← hu] at h2; exact h2
    · intro nf; exact h3 (by rw [← hu]; exact nf)
  · rw [et]
    exact .inr ⟨e, t, rfl, h.imp id fun ⟨h1, h2⟩ => ⟨h1, fun nf => h2 (by rw [← hu]; exact nf)⟩⟩

/-! ## WRITE_HEADER -/

/-- A write slot after appends that leave its accumulator at `acc`; the other fields a flush reads are as they were. -/
def Appended (x y : Slot) (acc : BitSeq) : Prop :=
  y.acc = acc ∧ y.file = x.file ∧ y.wpos = x.wpos ∧ y.mode = x.mode

theorem writeCounts_apply (freq : Vector Word 256) :
    ∀ (vs : List Byte) (s : State), s.freq = freq →
      ∃ y, writeCounts vs s = .ok () { s with slot1 := y } ∧
        Appended s.slot1 y (s.slot1.acc ++ fileBits (vs.flatMap fun v => le32 (freqOf freq v)))
  | [], s, _ => ⟨s.slot1, rfl, by simp [fileBits], rfl, rfl, rfl⟩
  | v :: vs, s, h => by
    unfold writeCounts
    rw [bind_apply, get_apply]
    simp only [bind_apply, appendBits_apply]
    obtain ⟨y, e, h1, h2, h3, h4⟩ := writeCounts_apply freq vs
      (s.setSlot .s1 ((s.slot .s1).append (unpack (le32 (freqOf s.freq v)) 32))) (by simpa using h)
    refine ⟨y, by rw [e]; rfl, ?_, h2, h3, h4⟩
    rw [h1, setSlot_s1_slot1, append_acc, h, unpack_all _ _ (by simp), List.flatMap_cons, fileBits_append,
      ← List.append_assoc]
    rfl

/-- R265: the header's bytes are appended. -/
theorem writeHeader_apply (s : State) :
    ∃ y, writeHeader s = .ok () { s with slot1 := y } ∧
      Appended s.slot1 y (s.slot1.acc ++ fileBits (headerBytes s.freq)) :=
  writeCounts_apply s.freq symbols s rfl

/-! ## ENCODE_BODY -/

/-- R266, one mapped byte. -/
theorem mapByte_cases (v : Byte) (s : State) :
    (entry s.codeLen v.toNat 0 = 0 ∧ mapByte v s = .error .protocol s) ∨
    (entry s.codeLen v.toNat 0 ≠ 0 ∧
      mapByte v s = .ok () (s.setSlot .s1 (s.slot1.append (s.codeOf v)))) := by
  unfold mapByte
  rw [bind_apply, get_apply]
  simp only [ite_apply, throw_apply, appendBits_apply]
  by_cases h : entry s.codeLen v.toNat 0 = 0
  · exact .inl ⟨h, if_pos h⟩
  · exact .inr ⟨h, if_neg h⟩

/-- R266: the body pass over an input all of whose bytes have a code appends the codes, or a refill fails. -/
theorem encodeBody_cases {F : List Byte} (s : State) (hc : s.slot0.coherent F) (hp : s.slot0.position = 0)
    (hF : s.files.contents s.slot0.file = F) (hlen : F.length < 2 ^ 64)
    (coded : ∀ v ∈ F, entry s.codeLen v.toNat 0 ≠ 0) :
    (∃ o x y, encodeBody s = .ok () { s with slot0 := x, slot1 := y, io := o } ∧
      Appended s.slot1 y (s.slot1.acc ++ F.flatMap s.codeOf) ∧ (s.io.neverFails → o.neverFails)) ∨
    (∃ e t, encodeBody s = .error e t ∧ e = .io ∧ ¬ s.io.neverFails) := by
  unfold encodeBody
  rw [bind_apply, get_apply]
  have rule := eachByte_rule (F := F) (act := mapByte)
    (P := fun l t => ∃ o x y, t = { s with slot0 := x, slot1 := y, io := o } ∧
      ∃ pre, F = pre ++ l ∧ Appended s.slot1 y (s.slot1.acc ++ pre.flatMap s.codeOf))
    (E := fun _ _ => False)
    (by
      rintro l _ o x ⟨o', x', y, rfl, h⟩
      exact ⟨o, x, y, rfl, h⟩)
    (fun _ _ _ => .inl hlen)
    (by
      rintro v l _ ⟨pre, hpre⟩ ⟨o, x, y, rfl, pre', hpre', h1, h2, h3, h4⟩
      have ep : pre' = pre := List.append_cancel_right (hpre' ▸ hpre)
      subst ep
      rcases mapByte_cases v { s with slot0 := x, slot1 := y, io := o } with ⟨h, -⟩ | ⟨-, e⟩
      · exact absurd h (coded v (by rw [hpre]; simp))
      · refine .inl ⟨_, e, ⟨o, x, _, rfl, pre' ++ [v], by rw [hpre]; simp, ?_, h2, h3, h4⟩, rfl, rfl, rfl⟩
        rw [append_acc, List.flatMap_append]
        simp only [List.flatMap_cons, List.flatMap_nil, List.append_nil]
        rw [h1, List.append_assoc]
        rfl)
  rcases rule F s.loopBound s (by unfold State.loopBound; rw [hF]; omega) ⟨[], rfl⟩
    ⟨s.io, s.slot0, s.slot1, rfl, [], rfl, by simp, rfl, rfl, rfl⟩ hc (by simp [hp]) hF with
    ⟨t, e, ⟨o, x, y, rfl, pre, hpre, h⟩, -, -, -, h3⟩ | ⟨e, t, et, h⟩
  · refine .inl ⟨o, x, y, e, ?_, h3⟩
    rw [List.append_nil] at hpre
    rw [hpre]
    exact h
  · rcases h with h | h
    · exact h.elim
    · exact .inr ⟨e, t, et, h.1, h.2⟩

/-! ## FLUSH -/

/-- R267: the flush of an accumulator over an empty file at offset 0 makes the file the packed accumulator. -/
theorem flush_out {s : State} {f : FileId} {acc : BitSeq} (h1 : s.slot1.acc = acc) (h2 : s.slot1.file = f)
    (h3 : s.slot1.wpos = 0) (h4 : s.files.lookup f = some []) :
    (∃ t, flushSlot .s1 s = .ok () t ∧ t.files.lookup f = some (pack acc) ∧
      (∀ g, g ≠ f → t.files.lookup g = s.files.lookup g) ∧ sameTables s t) ∨
    (∃ t, flushSlot .s1 s = .error .io t ∧ ¬ s.io.neverFails) := by
  rcases flushSlot_cases .s1 s with ⟨o, e, -, -, -⟩ | ⟨m, o, n, e, h, -⟩
  · refine .inl ⟨_, e, ?_, ?_, by simp [sameTables]⟩
    · rw [setSlot_files]
      simp only [flushedFiles, slot_s1, h1, h2, h3, Memory.contents, h4]
      split
      · rw [lookup_update_self]
        simp [splice]
      · next hl =>
        have : pack acc = [] := List.eq_nil_of_length_eq_zero (by omega)
        rw [h4, this]
    · intro g hg
      rw [setSlot_files]
      simp only [flushedFiles, slot_s1, h2]
      split
      · rw [lookup_update_ne _ _ hg]
      · rfl
  · refine .inr ⟨_, e, fun nf => ?_⟩
    rcases h with h | ⟨-, h⟩
    · exact h (neverFails_next nf).1
    · exact h (neverFails_next (neverFails_next nf).2).1

end Sys2Proof.Laws
end

