-- ==== Sys2Proof/Laws/Walk.lean ====
section
/-! SUPPORT. What DECODE's own phases do (spec/43_decoder.md rules R292 to R299): the header read, and the loop over the
body's bits as the pure walk `walkBits`. -/

namespace Sys2Proof.Laws

open Sys2Proof.Machine

/-! ## READ_HEADER -/

/-- R292: the header read of a coherent slot at position 0. -/
theorem readHeader_cases {F : List Byte} (s : State) (hc : s.slot0.coherent F) (hp : s.slot0.position = 0)
    (hF : s.files.contents s.slot0.file = F) :
    (1024 ≤ F.length ∧ ∃ o x, readHeader s =
        .ok () { s with slot0 := x, io := o, freq := parseHeader (F.take 1024) } ∧
      x.coherent F ∧ x.position = 8192 ∧ x.file = s.slot0.file ∧ (s.io.neverFails → o.neverFails)) ∨
    (F.length < 1024 ∧ ∃ o x, readHeader s = .error .malformedHeader { s with slot0 := x, io := o }) ∨
    (∃ t, readHeader s = .error .io t ∧ ¬ s.io.neverFails) := by
  unfold readHeader
  rw [bind_apply]
  rcases readBits_delivers (i := .s0) Config.headerBits hc hF (.inr (by rw [slot_s0, hp]; simp [Config.headerBits])) with
    ⟨t, r, d⟩ | ⟨t, r, nf⟩
  · rw [r]
    simp only [ite_apply, throw_apply, modify_apply, slot_s0, hp, List.drop_zero]
    have ds := d.slot
    obtain ⟨o, x, rfl, h1, h2, h3, h4⟩ := d
    have len : (((fileBits F).take Config.headerBits)).length = min 8192 (8 * F.length) := by
      simp [Config.headerBits]
    by_cases h : 1024 ≤ F.length
    · rw [if_neg (by rw [len]; simp only [Config.headerBits]; omega)]
      refine .inl ⟨h, o, x, ?_, h1, ?_, h3, h4⟩
      · rw [show Config.headerBits = 8 * 1024 from rfl, ← fileBits_take, pack_fileBits]
        rfl
      · rw [h2, slot_s0, hp]; simp only [Config.headerBits]; omega
    · rw [if_pos (by rw [len]; simp only [Config.headerBits]; omega)]
      exact .inr (.inl ⟨by omega, o, x, rfl⟩)
  · rw [r]
    exact .inr (.inr ⟨t, rfl, nf⟩)

/-! ## DECODE_BODY -/

/-- R297: what Emit does. -/
theorem emit_apply (v : Byte) (s : State) :
    emit v s = .ok () { s with
      slot1 := s.slot1.append (bitsOf v)
      emitted := store 64 (s.emitted.toNat + 1) } := by
  unfold emit
  rw [bind_apply, appendBits_apply]
  simp only [modify_apply]
  rw [unpack_all _ _ (by simp)]
  simp [fileBits]

/-- The limit of the stop rule latched in a state (R295). -/
def limitOf (s : State) : Option Nat :=
  match s.stopL with
  | .symbolCount => some s.total.toNat
  | .eofOnly => none

theorem limit_hit (s : State) :
    (s.stopL = .symbolCount ∧ s.emitted = s.total) ↔ limitOf s = some s.emitted.toNat := by
  unfold limitOf
  cases s.stopL with
  | symbolCount =>
    simp only [true_and, Option.some.injEq]
    exact ⟨fun h => by rw [h], fun h => BitVec.eq_of_toNat_eq h.symm⟩
  | eofOnly => simp

/-- R294: the loop over the bits left of the file is the walk of `walkBits`: what it emits is appended to the output's
accumulator; where the walk meets the absent root it raises MALFORMED_HEADER; or a refill fails. -/
theorem walkLoop_cases {F : List Byte} (room : 8 * F.length < 2 ^ 63) :
    ∀ (bits : BitSeq) (k : Nat) (s : State), bits.length < k → bits = (fileBits F).drop s.slot0.position →
      s.slot0.coherent F → s.files.contents s.slot0.file = F → s.emitted.toNat + bits.length < 2 ^ 64 →
      (∃ out o x y w e, walkBits s.tree (limitOf s) s.walk s.emitted.toNat bits = some out ∧
        walkLoop k s = .ok () { s with slot0 := x, slot1 := y, io := o, walk := w, emitted := e } ∧
        Appended s.slot1 y (s.slot1.acc ++ fileBits out) ∧ (s.io.neverFails → o.neverFails)) ∨
      (walkBits s.tree (limitOf s) s.walk s.emitted.toNat bits = none ∧
        ∃ t, walkLoop k s = .error .malformedHeader t ∧ t.files = s.files) ∨
      (∃ t, walkLoop k s = .error .io t ∧ ¬ s.io.neverFails)
  | bits, 0, s, h, _, _, _, _ => absurd h (by omega)
  | bits, k + 1, s, h, hb, hc, hF, hr => by
    unfold walkLoop
    rw [bind_apply, get_apply]
    simp only [ite_apply, pure_apply]
    by_cases hl : s.stopL = .symbolCount ∧ s.emitted = s.total
    · rw [if_pos hl]
      have lim := (limit_hit s).1 hl
      refine .inl ⟨[], s.io, s.slot0, s.slot1, s.walk, s.emitted, ?_, rfl, ⟨by simp [fileBits], rfl, rfl, rfl⟩, id⟩
      cases bits with
      | nil => rfl
      | cons b bs => rw [walkBits, if_pos lim]
    · rw [if_neg hl, bind_apply]
      have nlim := mt (limit_hit s).2 hl
      rcases readBits_delivers (i := .s0) 1 hc hF (.inl (by omega)) with ⟨t, r, d⟩ | ⟨t, r, nf⟩
      · rw [r]
        rw [slot_s0, ← hb]
        have ds := d.slot
        have len := congrArg List.length hb
        simp only [List.length_drop, length_fileBits] at len
        obtain ⟨o, x, et, h1, h2, h3, h4⟩ := d
        rw [slot_s0] at h2 h3
        have et' : t = { s with slot0 := x, io := o } := by rw [et]; rfl
        subst et'
        cases bits with
        | nil =>
          simp only [List.take_nil, pure_apply]
          exact .inl ⟨[], o, x, s.slot1, s.walk, s.emitted, rfl, rfl, ⟨by simp [fileBits], rfl, rfl, rfl⟩, h4⟩
        | cons b bs =>
          simp only [List.take_succ_cons, List.take_zero, bind_apply]
          simp only [List.length_cons] at h len hr
          have hbs : bs = (fileBits F).drop x.position := by
            rw [h2, show min 1 (8 * F.length - s.slot0.position) = 1 by omega, ← List.drop_drop, ← hb]
            rfl
          rw [walkBits, if_neg nlim]
          unfold walkBit
          simp only [bind_apply, get_apply, ite_apply, throw_apply]
          by_cases z : s.tree.nodeCount = 0
          · rw [if_pos z, if_pos z]
            exact .inr (.inl ⟨rfl, _, rfl, rfl⟩)
          · rw [if_neg z, if_neg z]
            by_cases z1 : s.tree.leafCount = 1
            · rw [if_pos z1, if_pos z1, emit_apply]
              simp only
              have es : (store 64 (s.emitted.toNat + 1)).toNat = s.emitted.toNat + 1 := store_toNat (by omega)
              have rec_ := walkLoop_cases room bs k
                { s with slot0 := x, io := o, slot1 := s.slot1.append (bitsOf (s.tree.nodeAt 0).sym),
                         emitted := store 64 (s.emitted.toNat + 1) } (by omega) hbs h1
                (by rw [show x.file = s.slot0.file from h3]; exact hF) (by simp only [es]; omega)
              simp only [es] at rec_
              rcases rec_ with ⟨out, o', x', y, w, e, w1, w2, ⟨w3, w4, w5, w6⟩, w7⟩ | ⟨w1, t, w2, w3⟩ | ⟨t, w1, w2⟩
              · refine .inl ⟨(s.tree.nodeAt 0).sym :: out, o', x', y, w, e, ?_, w2, ⟨?_, w4, w5, w6⟩, fun nf => w7 (h4 nf)⟩
                · exact congrArg (Option.map (fun l => (s.tree.nodeAt 0).sym :: l)) w1
                · rw [w3, append_acc, List.append_assoc]; rfl
              · exact .inr (.inl ⟨congrArg (Option.map (fun l => (s.tree.nodeAt 0).sym :: l)) w1, t, w2, w3⟩)
              · exact .inr (.inr ⟨t, w1, fun nf => w2 (h4 nf)⟩)
            · rw [if_neg z1, if_neg z1]
              simp only [set_apply, pure_apply]
              cases lf : (s.tree.nodeAt (s.tree.child s.walk b)).leaf with
              | true =>
                simp only [if_true, emit_apply, modify_apply]
                have es : (store 64 (s.emitted.toNat + 1)).toNat = s.emitted.toNat + 1 := store_toNat (by omega)
                have rec_ := walkLoop_cases room bs k
                  { s with slot0 := x, io := o,
                           slot1 := s.slot1.append (bitsOf (s.tree.nodeAt (s.tree.child s.walk b)).sym),
                           emitted := store 64 (s.emitted.toNat + 1), walk := s.tree.root } (by omega) hbs h1
                  (by rw [show x.file = s.slot0.file from h3]; exact hF) (by simp only [es]; omega)
                simp only [es] at rec_
                rcases rec_ with ⟨out, o', x', y, w, e, w1, w2, ⟨w3, w4, w5, w6⟩, w7⟩ | ⟨w1, t, w2, w3⟩ | ⟨t, w1, w2⟩
                · refine .inl ⟨(s.tree.nodeAt (s.tree.child s.walk b)).sym :: out, o', x', y, w, e, ?_, w2,
                    ⟨?_, w4, w5, w6⟩, fun nf => w7 (h4 nf)⟩
                  · exact congrArg (Option.map (fun l => (s.tree.nodeAt (s.tree.child s.walk b)).sym :: l)) w1
                  · rw [w3, append_acc, List.append_assoc]; rfl
                · exact .inr (.inl ⟨congrArg (Option.map (fun l => (s.tree.nodeAt (s.tree.child s.walk b)).sym :: l)) w1, t, w2, w3⟩)
                · exact .inr (.inr ⟨t, w1, fun nf => w2 (h4 nf)⟩)
              | false =>
                simp only [Bool.false_eq_true, if_false]
                have rec_ := walkLoop_cases room bs k
                  { s with slot0 := x, io := o, walk := s.tree.child s.walk b } (by omega) hbs h1
                  (by rw [show x.file = s.slot0.file from h3]; exact hF) (by simp only; omega)
                rcases rec_ with ⟨out, o', x', y, w, e, w1, w2, w3, w7⟩ | ⟨w1, t, w2, w3⟩ | ⟨t, w1, w2⟩
                · exact .inl ⟨out, o', x', y, w, e, w1, w2, w3, fun nf => w7 (h4 nf)⟩
                · exact .inr (.inl ⟨w1, t, w2, w3⟩)
                · exact .inr (.inr ⟨t, w1, fun nf => w2 (h4 nf)⟩)
      · rw [r]
        exact .inr (.inr ⟨t, rfl, nf⟩)

/-! ## The walk over codes (R301) -/

/-- A walk along a path to a leaf emits the leaf's symbol and starts again at the root. -/
theorem walkBits_path {t : Tree} {lim : Option Nat} (h0 : t.nodeCount ≠ 0) (h1 : t.leafCount ≠ 1) {i j : NodeIx}
    {q : BitSeq} (h : Path t i q j) :
    ∀ (n : Nat) (rest : BitSeq), lim ≠ some n → q ≠ [] → (t.nodeAt j).leaf = true →
      walkBits t lim i n (q ++ rest) = (walkBits t lim t.root (n + 1) rest).map ((t.nodeAt j).sym :: ·) := by
  induction h with
  | here i => intro n rest _ hq _; exact absurd rfl hq
  | @down i j b q hl hp ih =>
    intro n rest hn _ hj
    rw [List.cons_append, walkBits, if_neg hn, if_neg h0, if_neg h1]
    cases lf : (t.nodeAt (t.child i b)).leaf with
    | true =>
      have : q = [] ∧ t.child i b = j := by
        cases hp with
        | here => exact ⟨rfl, rfl⟩
        | down hl' _ => rw [lf] at hl'; cases hl'
      obtain ⟨rfl, rfl⟩ := this
      simp
    | false =>
      have : q ≠ [] := by
        rintro rfl
        cases hp with
        | here => rw [lf] at hj; cases hj
      simp only [Bool.false_eq_true, if_false]
      exact ih n rest hn this hj

end Sys2Proof.Laws
end

