-- ==== Sys2Proof/Laws/Frames.lean ====
section
/-! SUPPORT. What the phases of a session can change, and which errors each computation can raise
(spec/60_exceptions.md rules R320, R331). -/

namespace Sys2Proof.Laws

open Sys2Proof.Machine

/-! ## Errors -/

/-- The errors a computation can raise are among the given ones. -/
def Raises {α : Type} (m : Cmd α) (es : List ErrCode) : Prop := ∀ s e t, m s = .error e t → e ∈ es

section Raises

variable {α β : Type} {es : List ErrCode}

theorem raises_pure (a : α) : Raises (pure a : Cmd α) es := fun s e t h => by cases h

theorem raises_throw {e : ErrCode} (h : e ∈ es) : Raises (throw e : Cmd α) es := fun s e' t he => by
  cases he; exact h

theorem raises_get : Raises (get : Cmd State) es := fun s e t h => by cases h

theorem raises_set (u : State) : Raises (set u : Cmd PUnit) es := fun s e t h => by cases h

theorem raises_modify (f : State → State) : Raises (modify f : Cmd PUnit) es := fun s e t h => by cases h

theorem raises_bind {m : Cmd α} {f : α → Cmd β} (h : Raises m es) (h' : ∀ a, Raises (f a) es) :
    Raises (m >>= f) es := fun s e t he => by
  rw [bind_apply] at he
  cases hm : m s with
  | ok a u => rw [hm] at he; exact h' a u e t he
  | error x u => rw [hm] at he; cases he; exact h s _ _ hm

theorem raises_ite {c : Prop} [Decidable c] {m m' : Cmd α} (h : Raises m es) (h' : Raises m' es) :
    Raises (if c then m else m') es := by
  split
  · exact h
  · exact h'

theorem Raises.mono {m : Cmd α} {es' : List ErrCode} (h : Raises m es) (sub : ∀ e ∈ es, e ∈ es') : Raises m es' :=
  fun s e t he => sub e (h s e t he)

theorem raises_getSlot (i : SlotId) : Raises (getSlot i) es := fun s e t h => by cases h

theorem raises_putSlot (i : SlotId) (x : Slot) : Raises (putSlot i x) es := fun s e t h => by cases h

theorem raises_appendBits (i : SlotId) (b : BitSeq) : Raises (appendBits i b) es := fun s e t h => by cases h

theorem raises_rewindSlot (i : SlotId) : Raises (rewindSlot i) es := fun s e t h => by cases h

theorem raises_take (i : SlotId) (out : BitSeq) (n : Nat) : Raises (take i out n) es := fun s e t h => by cases h

end Raises

theorem raises_openSlot (i : SlotId) (d : Dir) (f : FileId) : Raises (openSlot i d f) [.io] := fun s e t h => by
  rcases openSlot_cases i d f s with ⟨m, -, -, -, e'⟩ | ⟨-, e'⟩ <;> rw [e'] at h <;> cases h
  simp

theorem raises_truncateSlot (i : SlotId) : Raises (truncateSlot i) [.io] := fun s e t h => by
  rcases truncateSlot_cases i s with ⟨-, e'⟩ | ⟨-, e'⟩ | ⟨-, e'⟩ <;> rw [e'] at h <;> cases h <;> simp

theorem raises_flushSlot (i : SlotId) : Raises (flushSlot i) [.io] := fun s e t h => by
  rcases flushSlot_cases i s with ⟨o, e', -⟩ | ⟨m, o, n, e', -⟩ <;> rw [e'] at h <;> cases h
  simp

theorem raises_refill (i : SlotId) : Raises (refill i) [.io] := fun s e t h => by
  rcases refill_cases i s with ⟨-, e'⟩ | ⟨-, e'⟩ <;> rw [e'] at h <;> cases h
  simp

theorem raises_readMore (i : SlotId) (size : Nat) : ∀ (k : Nat) (out : BitSeq), Raises (readMore k i out size) [.io]
  | 0, out => raises_pure out
  | k + 1, out => by
    unfold readMore
    refine raises_ite (raises_bind (raises_refill i) fun _ => raises_bind (raises_getSlot i) fun x => ?_)
      (raises_pure out)
    exact raises_ite (raises_pure out) (raises_bind (raises_take i out size) fun o => raises_readMore i size k o)

theorem raises_readChunks (i : SlotId) (size : Nat) : Raises (readChunks i size) [.io] :=
  raises_bind (raises_take i [] size) fun out => raises_readMore i size size out

/-- R173: a read raises IO only, from its refills. -/
theorem raises_readBits (i : SlotId) (size : Nat) : Raises (readBits i size) [.io] := by
  unfold readBits
  refine raises_bind (raises_getSlot i) fun x => raises_ite ?_ (raises_readChunks i size)
  refine raises_bind (raises_refill i) fun _ => raises_bind (raises_getSlot i) fun y => ?_
  exact raises_ite (raises_pure []) (raises_readChunks i size)

theorem raises_encSetup : Raises encSetup [.aliased, .io] := by
  unfold encSetup
  refine raises_bind (raises_modify _) fun _ => raises_bind raises_get fun s => ?_
  refine raises_ite (raises_throw (by simp)) ?_
  refine raises_bind ((raises_openSlot _ _ _).mono (by simp)) fun _ => ?_
  exact raises_bind ((raises_truncateSlot _).mono (by simp)) fun _ => (raises_openSlot _ _ _).mono (by simp)

theorem raises_eachByte {act : Byte → Cmd Unit} {es : List ErrCode} (io : .io ∈ es) (h : ∀ v, Raises (act v) es) :
    ∀ k, Raises (eachByte act k) es
  | 0 => raises_pure ()
  | k + 1 => by
    unfold eachByte
    refine raises_bind ((raises_readBits _ _).mono (by simpa using io)) fun x => ?_
    exact raises_ite (raises_pure ()) (raises_bind (h _) fun _ => raises_eachByte io h k)

theorem raises_countFrequencies : Raises countFrequencies [.io, .countOverflow] := by
  unfold countFrequencies
  refine raises_bind (raises_modify _) fun _ => raises_bind raises_get fun s => ?_
  refine raises_bind (raises_eachByte (by simp) (fun v => ?_) _) fun _ => raises_rewindSlot _
  unfold countByte
  exact raises_bind raises_get fun s => raises_ite (raises_throw (by simp)) (raises_set _)

theorem raises_writeCounts : ∀ vs : List Byte, Raises (writeCounts vs) []
  | [] => raises_pure ()
  | v :: vs => by
    unfold writeCounts
    exact raises_bind raises_get fun s => raises_bind (raises_appendBits _ _) fun _ => raises_writeCounts vs

theorem raises_buildAndDerive : Raises buildAndDerive [] :=
  raises_bind (raises_modify _) fun _ => raises_modify _

theorem raises_encodeBody : Raises encodeBody [.io, .protocol] := by
  unfold encodeBody
  refine raises_bind raises_get fun s => raises_eachByte (by simp) (fun v => ?_) _
  unfold mapByte
  exact raises_bind raises_get fun s => raises_ite (raises_throw (by simp)) (raises_appendBits _ _)

theorem raises_readHeader : Raises readHeader [.io, .malformedHeader] := by
  unfold readHeader
  refine raises_bind ((raises_readBits _ _).mono (by simp)) fun x => ?_
  exact raises_ite (raises_throw (by simp)) (raises_modify _)

theorem raises_emit (v : Byte) {es : List ErrCode} : Raises (emit v) es :=
  raises_bind (raises_appendBits _ _) fun _ => raises_modify _

theorem raises_walkBit (b : Bool) : Raises (walkBit b) [.io, .malformedHeader] := by
  unfold walkBit
  refine raises_bind raises_get fun s => raises_ite (raises_throw (by simp)) ?_
  refine raises_ite (raises_emit _) ?_
  refine raises_bind (raises_set _) fun _ => ?_
  exact raises_ite (raises_bind (raises_emit _) fun _ => raises_modify _) (raises_pure _)

theorem raises_walkLoop : ∀ k, Raises (walkLoop k) [.io, .malformedHeader]
  | 0 => raises_pure ()
  | k + 1 => by
    unfold walkLoop
    refine raises_bind raises_get fun s => raises_ite (raises_pure ()) ?_
    refine raises_bind ((raises_readBits _ _).mono (by simp)) fun x => ?_
    cases x with
    | nil => exact raises_pure ()
    | cons b bs => exact raises_bind (raises_walkBit b) fun _ => raises_walkLoop k

theorem raises_decodeBody : Raises decodeBody [.io, .malformedHeader] :=
  raises_bind (raises_modify _) fun _ => raises_bind raises_get fun _ => raises_walkLoop _

/-! ## What a session changes -/

/-- From s to t a session's phases wrote no file but f, no operand or result register, and no field of STATUS; the tree is
as it was or freshly built. -/
def SessionKeeps (f : FileId) (s t : State) : Prop :=
  Touched f s.files t.files ∧ sameOperands s t ∧ sameResults s t ∧ sameInputs s t ∧ t.status = s.status ∧
  t.stopL = s.stopL ∧ (t.tree = s.tree ∨ ∃ freq, t.tree = Tree.build freq)

/-- The same, and SLOT[1] stays on the file f if it is on it. -/
def InSession (f : FileId) (s t : State) : Prop :=
  s.slot1.file = f → t.slot1.file = f ∧ SessionKeeps f s t

theorem SessionKeeps.refl (f : FileId) (s : State) : SessionKeeps f s s :=
  ⟨Touched.refl _ _, ⟨rfl, rfl, rfl, rfl, rfl⟩, ⟨rfl, rfl⟩, ⟨rfl, rfl⟩, rfl, rfl, .inl rfl⟩

theorem SessionKeeps.trans {f : FileId} {s t u : State} (h : SessionKeeps f s t) (k : SessionKeeps f t u) :
    SessionKeeps f s u := by
  obtain ⟨h1, ⟨a1, a2, a3, a4, a5⟩, ⟨b1, b2⟩, ⟨c1, c2⟩, h5, h6, h7⟩ := h
  obtain ⟨k1, ⟨d1, d2, d3, d4, d5⟩, ⟨e1, e2⟩, ⟨g1, g2⟩, k5, k6, k7⟩ := k
  refine ⟨h1.trans k1, ⟨d1.trans a1, d2.trans a2, d3.trans a3, d4.trans a4, d5.trans a5⟩,
    ⟨e1.trans b1, e2.trans b2⟩, ⟨g1.trans c1, g2.trans c2⟩, k5.trans h5, k6.trans h6, ?_⟩
  rcases k7 with k7 | k7
  · rw [k7]; exact h7
  · exact .inr k7

theorem InSession.refl (f : FileId) (s : State) : InSession f s s := fun h => ⟨h, SessionKeeps.refl f s⟩

theorem InSession.trans (f : FileId) (s t u : State) (h : InSession f s t) (k : InSession f t u) : InSession f s u :=
  fun e => ⟨(k (h e).1).1, (h e).2.trans (k (h e).1).2⟩

/-- A change of fields that a session may change. -/
theorem inSession_of {f : FileId} {s t : State} (h1 : t.slot1.file = s.slot1.file) (h2 : t.files = s.files)
    (h3 : sameOperands s t) (h4 : sameResults s t) (h5 : sameInputs s t) (h6 : t.status = s.status)
    (h7 : t.stopL = s.stopL) (h8 : t.tree = s.tree ∨ ∃ freq, t.tree = Tree.build freq) : InSession f s t :=
  fun e => ⟨h1.trans e, by rw [h2]; exact Touched.refl _ _, h3, h4, h5, h6, h7, h8⟩

theorem readBits_inSession (f : FileId) (size : Nat) : Relates (InSession f) (readBits .s0 size) := by
  intro s
  obtain ⟨x, o, e, -, -⟩ := readBits_onlyReads .s0 size s
  rw [e]
  exact inSession_of rfl rfl ⟨rfl, rfl, rfl, rfl, rfl⟩ ⟨rfl, rfl⟩ ⟨rfl, rfl⟩ rfl rfl (.inl rfl)

theorem appendBits_inSession (f : FileId) (b : BitSeq) : Relates (InSession f) (appendBits .s1 b) :=
  fun _ => inSession_of rfl rfl ⟨rfl, rfl, rfl, rfl, rfl⟩ ⟨rfl, rfl⟩ ⟨rfl, rfl⟩ rfl rfl (.inl rfl)

theorem rewindSlot_inSession (f : FileId) : Relates (InSession f) (rewindSlot .s0) :=
  fun _ => inSession_of rfl rfl ⟨rfl, rfl, rfl, rfl, rfl⟩ ⟨rfl, rfl⟩ ⟨rfl, rfl⟩ rfl rfl (.inl rfl)

theorem flushSlot_inSession (f : FileId) : Relates (InSession f) (flushSlot .s1) := by
  intro s h
  rcases flushSlot_cases .s1 s with ⟨o, e, -⟩ | ⟨m, o, n, e, -, t⟩ <;> unfold after <;> rw [e]
  · refine ⟨h, ?_, ⟨rfl, rfl, rfl, rfl, rfl⟩, ⟨rfl, rfl⟩, ⟨rfl, rfl⟩, rfl, rfl, .inl rfl⟩
    show Touched f s.files (flushedFiles s.slot1 s.files)
    unfold flushedFiles
    rw [h]
    split
    · exact touched_update _ _ _
    · exact Touched.refl _ _
  · exact ⟨h, h ▸ t, ⟨rfl, rfl, rfl, rfl, rfl⟩, ⟨rfl, rfl⟩, ⟨rfl, rfl⟩, rfl, rfl, .inl rfl⟩

theorem eachByte_inSession {f : FileId} {act : Byte → Cmd Unit} (h : ∀ v, Relates (InSession f) (act v)) :
    ∀ k, Relates (InSession f) (eachByte act k)
  | 0 => relates_pure (InSession.refl f) ()
  | k + 1 => by
    unfold eachByte
    refine relates_bind (InSession.trans f) (readBits_inSession f 8) fun x => ?_
    refine relates_ite (relates_pure (InSession.refl f) ()) ?_
    exact relates_bind (InSession.trans f) (h _) fun _ => eachByte_inSession h k

theorem countFrequencies_inSession (f : FileId) : Relates (InSession f) countFrequencies := by
  unfold countFrequencies
  refine relates_bind (InSession.trans f) (relates_modify fun s => ?_) fun _ => ?_
  · exact inSession_of rfl rfl ⟨rfl, rfl, rfl, rfl, rfl⟩ ⟨rfl, rfl⟩ ⟨rfl, rfl⟩ rfl rfl (.inl rfl)
  · refine relates_bind (InSession.trans f) (relates_get (InSession.refl f)) fun s => ?_
    refine relates_bind (InSession.trans f) (eachByte_inSession (fun v => ?_) _) fun _ => rewindSlot_inSession f
    intro s
    rcases countByte_cases v s with ⟨-, e⟩ | ⟨-, e⟩ <;> unfold after <;> rw [e]
    · exact InSession.refl f s
    · exact inSession_of rfl rfl ⟨rfl, rfl, rfl, rfl, rfl⟩ ⟨rfl, rfl⟩ ⟨rfl, rfl⟩ rfl rfl (.inl rfl)

theorem buildTree_inSession (f : FileId) : Relates (InSession f) buildTree :=
  relates_modify fun s => inSession_of (by simp) (by simp) ⟨by simp, by simp, by simp, by simp, by simp⟩
    ⟨by simp, by simp⟩ ⟨by simp, by simp⟩ (by simp) (by simp) (.inr ⟨s.freq, by simp⟩)

theorem deriveCodes_inSession (f : FileId) : Relates (InSession f) deriveCodes :=
  relates_modify fun s => inSession_of (by simp) (by simp) ⟨by simp, by simp, by simp, by simp, by simp⟩
    ⟨by simp, by simp⟩ ⟨by simp, by simp⟩ (by simp) (by simp) (.inl (by simp))

theorem buildAndDerive_inSession (f : FileId) : Relates (InSession f) buildAndDerive :=
  relates_bind (InSession.trans f) (buildTree_inSession f) fun _ => deriveCodes_inSession f

theorem writeCounts_inSession (f : FileId) : ∀ vs : List Byte, Relates (InSession f) (writeCounts vs)
  | [] => relates_pure (InSession.refl f) ()
  | v :: vs => by
    unfold writeCounts
    refine relates_bind (InSession.trans f) (relates_get (InSession.refl f)) fun s => ?_
    exact relates_bind (InSession.trans f) (appendBits_inSession f _) fun _ => writeCounts_inSession f vs

theorem encodeBody_inSession (f : FileId) : Relates (InSession f) encodeBody := by
  unfold encodeBody
  refine relates_bind (InSession.trans f) (relates_get (InSession.refl f)) fun s => ?_
  refine eachByte_inSession (fun v => ?_) _
  intro s
  rcases mapByte_cases v s with ⟨-, e⟩ | ⟨-, e⟩ <;> unfold after <;> rw [e]
  · exact InSession.refl f s
  · exact inSession_of rfl rfl ⟨rfl, rfl, rfl, rfl, rfl⟩ ⟨rfl, rfl⟩ ⟨rfl, rfl⟩ rfl rfl (.inl rfl)

theorem readHeader_inSession (f : FileId) : Relates (InSession f) readHeader := by
  unfold readHeader
  refine relates_bind (InSession.trans f) (readBits_inSession f _) fun x => ?_
  refine relates_ite (relates_throw (InSession.refl f) _) (relates_modify fun s => ?_)
  exact inSession_of rfl rfl ⟨rfl, rfl, rfl, rfl, rfl⟩ ⟨rfl, rfl⟩ ⟨rfl, rfl⟩ rfl rfl (.inl rfl)

theorem emit_inSession (f : FileId) (v : Byte) : Relates (InSession f) (emit v) := by
  intro s
  unfold after
  rw [emit_apply]
  exact inSession_of rfl rfl ⟨rfl, rfl, rfl, rfl, rfl⟩ ⟨rfl, rfl⟩ ⟨rfl, rfl⟩ rfl rfl (.inl rfl)

/-- One body bit changes SLOT[1]'s accumulator, WALK and EMITTED only. -/
theorem walkBit_cases (b : Bool) (s : State) :
    (walkBit b s = .error .malformedHeader s) ∨
    (∃ y w e, walkBit b s = .ok () { s with slot1 := y, walk := w, emitted := e } ∧ y.file = s.slot1.file) := by
  unfold walkBit
  simp only [bind_apply, get_apply, ite_apply, throw_apply, set_apply, pure_apply, emit_apply, modify_apply]
  split
  · exact .inl rfl
  · split
    · exact .inr ⟨_, s.walk, _, rfl, rfl⟩
    · split
      · exact .inr ⟨_, _, _, rfl, rfl⟩
      · exact .inr ⟨s.slot1, _, s.emitted, rfl, rfl⟩

theorem walkBit_inSession (f : FileId) (b : Bool) : Relates (InSession f) (walkBit b) := by
  intro s
  rcases walkBit_cases b s with e | ⟨y, w, n, e, h⟩ <;> unfold after <;> rw [e]
  · exact InSession.refl f s
  · exact inSession_of h rfl ⟨rfl, rfl, rfl, rfl, rfl⟩ ⟨rfl, rfl⟩ ⟨rfl, rfl⟩ rfl rfl (.inl rfl)

theorem walkLoop_inSession (f : FileId) : ∀ k, Relates (InSession f) (walkLoop k)
  | 0 => relates_pure (InSession.refl f) ()
  | k + 1 => by
    unfold walkLoop
    refine relates_bind (InSession.trans f) (relates_get (InSession.refl f)) fun s => ?_
    refine relates_ite (relates_pure (InSession.refl f) ()) ?_
    refine relates_bind (InSession.trans f) (readBits_inSession f _) fun x => ?_
    cases x with
    | nil => exact relates_pure (InSession.refl f) ()
    | cons b bs => exact relates_bind (InSession.trans f) (walkBit_inSession f b) fun _ => walkLoop_inSession f k

theorem decodeBody_inSession (f : FileId) : Relates (InSession f) decodeBody := by
  unfold decodeBody
  refine relates_bind (InSession.trans f) (relates_modify fun s => ?_) fun _ => ?_
  · exact inSession_of rfl rfl ⟨rfl, rfl, rfl, rfl, rfl⟩ ⟨rfl, rfl⟩ ⟨rfl, rfl⟩ rfl rfl (.inl rfl)
  · exact relates_bind (InSession.trans f) (relates_get (InSession.refl f)) fun s => walkLoop_inSession f _

/-- The setup ends with SLOT[1] on the output, or raises; either way it keeps what a session keeps. -/
theorem encSetup_keeps (s : State) :
    (∃ t, encSetup s = .ok () t ∧ t.slot1.file = s.operandOutFile ∧ SessionKeeps s.operandOutFile s t) ∨
    (∃ e t, encSetup s = .error e t ∧ SessionKeeps s.operandOutFile s t) := by
  have pre : SessionKeeps s.operandOutFile s ((s.closeSlot .s0).closeSlot .s1) :=
    ⟨Touched.refl _ _, ⟨rfl, rfl, rfl, rfl, rfl⟩, ⟨rfl, rfl⟩, ⟨rfl, rfl⟩, rfl, rfl, .inl rfl⟩
  unfold encSetup
  rw [bind_apply, modify_apply]
  simp only [bind_apply, get_apply, ite_apply, throw_apply]
  generalize hu : (s.closeSlot .s0).closeSlot .s1 = u at pre ⊢
  have out : u.operandOutFile = s.operandOutFile := by rw [← hu]; rfl
  rw [out]
  split
  · exact .inr ⟨_, _, rfl, pre⟩
  · rcases openSlot_cases .s1 .write s.operandOutFile u with ⟨m, -, -, hm, e⟩ | ⟨-, e⟩
    · rw [e]
      simp only
      rw [hm rfl]
      generalize hv : ({ u.setSlot .s1 (Slot.opened .write s.operandOutFile) with
        io := u.io.next.2, files := u.files.create s.operandOutFile } : State) = v
      have v1 : v.slot1.file = s.operandOutFile := by rw [← hv]; rfl
      have pv : SessionKeeps s.operandOutFile u v := by
        rw [← hv]
        refine ⟨⟨fun g hg => ?_, fun g hg => ?_, fun h => create_wf h _⟩, ⟨rfl, rfl, rfl, rfl, rfl⟩, ⟨rfl, rfl⟩,
          ⟨rfl, rfl⟩, rfl, rfl, .inl rfl⟩
        · show (u.files.create _).lookup g = _
          rw [lookup_create, if_neg hg]
        · show ((u.files.create _).lookup g).isSome
          rw [lookup_create]
          split
          · rfl
          · exact hg
      rcases truncateSlot_cases .s1 v with ⟨-, e'⟩ | ⟨-, e'⟩ | ⟨-, e'⟩
      · rw [e']
        simp only
        generalize hw : (State.setSlot { v with
          io := v.io.next.2
          files := v.files.update (v.slot .s1).file [] } .s1 { v.slot .s1 with wpos := 0 }) = w
        have w1 : w.slot1.file = s.operandOutFile := by rw [← hw]; exact v1
        have pw : SessionKeeps s.operandOutFile v w := by
          rw [← hw]
          refine ⟨?_, ⟨rfl, rfl, rfl, rfl, rfl⟩, ⟨rfl, rfl⟩, ⟨rfl, rfl⟩, rfl, rfl, .inl rfl⟩
          show Touched _ _ (v.files.update v.slot1.file [])
          rw [v1]; exact touched_update _ _ _
        rcases openSlot_cases .s0 .read u.operandFile w with ⟨m', -, hm', -, e''⟩ | ⟨-, e''⟩
        · rw [(hm' rfl).2] at e''
          refine .inl ⟨_, e'', w1, (pre.trans pv).trans (pw.trans ?_)⟩
          exact ⟨Touched.refl _ _, ⟨rfl, rfl, rfl, rfl, rfl⟩, ⟨rfl, rfl⟩, ⟨rfl, rfl⟩, rfl, rfl, .inl rfl⟩
        · refine .inr ⟨_, _, e'', (pre.trans pv).trans (pw.trans ?_)⟩
          exact ⟨Touched.refl _ _, ⟨rfl, rfl, rfl, rfl, rfl⟩, ⟨rfl, rfl⟩, ⟨rfl, rfl⟩, rfl, rfl, .inl rfl⟩
      · rw [e']
        refine .inr ⟨_, _, rfl, (pre.trans pv).trans ?_⟩
        refine ⟨?_, ⟨rfl, rfl, rfl, rfl, rfl⟩, ⟨rfl, rfl⟩, ⟨rfl, rfl⟩, rfl, rfl, .inl rfl⟩
        show Touched _ _ (v.files.update v.slot1.file _)
        rw [v1]; exact touched_update _ _ _
      · rw [e']
        refine .inr ⟨_, _, rfl, (pre.trans pv).trans ?_⟩
        exact ⟨Touched.refl _ _, ⟨rfl, rfl, rfl, rfl, rfl⟩, ⟨rfl, rfl⟩, ⟨rfl, rfl⟩, rfl, rfl, .inl rfl⟩
    · rw [e]
      refine .inr ⟨_, _, rfl, pre.trans ?_⟩
      exact ⟨Touched.refl _ _, ⟨rfl, rfl, rfl, rfl, rfl⟩, ⟨rfl, rfl⟩, ⟨rfl, rfl⟩, rfl, rfl, .inl rfl⟩

/-- How a session ends: over some state that keeps what a session keeps, in a close and a completion, whose error, if there
is one, is raised by the phase it names. -/
theorem runSession_keeps {f : FileId} :
    ∀ (ps : List (Phase × Cmd Unit)), (∀ p ∈ ps, Relates (InSession f) p.2) → ∀ s, s.slot1.file = f →
      ∃ e p t, runSession ps s = complete e p (closeSession t) ∧ SessionKeeps f s t ∧
        ((e = .noError ∧ p = .done) ∨ ∃ q ∈ ps, q.1 = p ∧ ∃ u, q.2 u = .error e t)
  | [], _, s, _ => ⟨_, _, s, rfl, SessionKeeps.refl f s, .inl ⟨rfl, rfl⟩⟩
  | (p, m) :: ps, h, s, hf => by
    have hm : Relates (InSession f) m := h (p, m) (by simp)
    cases e : m s with
    | ok a t =>
      rw [runSession_ok e]
      have k := hm.of_ok e hf
      obtain ⟨x, q, u, h1, h2, h3⟩ := runSession_keeps ps (fun q hq => h q (by simp [hq])) t k.1
      exact ⟨x, q, u, h1, k.2.trans h2, h3.imp id fun ⟨r, hr, h4⟩ => ⟨r, by simp [hr], h4⟩⟩
    | error x t =>
      rw [runSession_error e]
      exact ⟨x, p, t, rfl, (hm.of_error e hf).2, .inr ⟨(p, m), by simp, rfl, s, e⟩⟩

/-- ENCODE and DECODE, as far as any of their runs goes. -/
theorem session_ends (rest : List (Phase × Cmd Unit)) (s : State)
    (h : ∀ p ∈ rest, Relates (InSession s.operandOutFile) p.2) :
    ∃ e p t, runSession ((.setup, encSetup) :: rest) s = complete e p (closeSession t) ∧
      SessionKeeps s.operandOutFile s t ∧
      ((e = .noError ∧ p = .done) ∨ ∃ q ∈ (Phase.setup, encSetup) :: rest, q.1 = p ∧ ∃ u, q.2 u = .error e t) := by
  rcases encSetup_keeps s with ⟨t, e, h1, h2⟩ | ⟨x, t, e, h1⟩
  · rw [runSession_ok e]
    obtain ⟨x, q, u, k1, k2, k3⟩ := runSession_keeps rest h t h1
    exact ⟨x, q, u, k1, h2.trans k2, k3.imp id fun ⟨r, hr, h4⟩ => ⟨r, by simp [hr], h4⟩⟩
  · rw [runSession_error e]
    exact ⟨x, .setup, t, rfl, h1, .inr ⟨(.setup, encSetup), by simp, rfl, s, e⟩⟩

theorem encode_phases_keep (f : FileId) :
    ∀ p ∈ encodePhases.tail, Relates (InSession f) p.2 := by
  intro p hp
  simp only [encodePhases, List.tail_cons, List.mem_cons, List.not_mem_nil, or_false] at hp
  rcases hp with rfl | rfl | rfl | rfl | rfl
  · exact countFrequencies_inSession f
  · exact buildAndDerive_inSession f
  · exact writeCounts_inSession f _
  · exact encodeBody_inSession f
  · exact flushSlot_inSession f

theorem decode_phases_keep (f : FileId) :
    ∀ p ∈ decodePhases.tail, Relates (InSession f) p.2 := by
  intro p hp
  simp only [decodePhases, List.tail_cons, List.mem_cons, List.not_mem_nil, or_false] at hp
  rcases hp with rfl | rfl | rfl | rfl
  · exact readHeader_inSession f
  · exact buildTree_inSession f
  · exact decodeBody_inSession f
  · exact flushSlot_inSession f

end Sys2Proof.Laws
end

