-- ==== Sys2Proof/Laws/Window.lean ====
section
/-! SUPPORT. The host's accesses (spec/10_state.md rules R50 to R71, spec/20_memory.md rules R91 to R96): which register is
where, what a read is answered with, what a write changes. -/

namespace Sys2Proof.Laws

open Sys2Proof.Machine

/-- CMD is word 1 of the window (R50). -/
theorem headReg_cmd {k : Nat} (h : headReg k = .cmd) : k = 1 := by
  unfold headReg at h; split at h <;> first | rfl | cases h

/-- CMD is at offset 4 (R50). -/
theorem regAt_cmd {off : Nat} (ha : off % 4 = 0) (h : regAt off = .cmd) : off = 4 := by
  unfold regAt at h
  split at h
  · have := headReg_cmd h; omega
  · split_ifs at h

/-- An entry inside a table is that entry. -/
theorem entry_eq {α n} (v : Vector α n) {i : Nat} (d : α) (h : i < n) : v[i]? = some (entry v i d) := by
  unfold entry; simp [h]

/-- A table of one value has that value everywhere. -/
theorem entry_replicate {α} (n : Nat) (a : α) (i) : entry (Vector.replicate n a) i a = a := by
  unfold entry; by_cases h : i < n
  · simp [h]
  · simp [h]

/-- R13: the number of a little-endian word. -/
theorem fromLe32_toNat (a b c d : Byte) : (fromLe32 a b c d).toNat = a.toNat + 256 * b.toNat + 65536 * c.toNat + 16777216 * d.toNat := by
  unfold fromLe32
  rw [BitVec.toNat_ofNat, Nat.mod_eq_of_lt]
  have := a.isLt; have := b.isLt; have := c.isLt; have := d.isLt; omega

/-- R13: the bytes of a little-endian word. -/
theorem fromLe32_extract (a b c d : Byte) : (fromLe32 a b c d).extractLsb' 0 8 = a ∧
    (fromLe32 a b c d).extractLsb' 8 8 = b ∧ (fromLe32 a b c d).extractLsb' 16 8 = c ∧
    (fromLe32 a b c d).extractLsb' 24 8 = d := by
  have := a.isLt; have := b.isLt; have := c.isLt; have := d.isLt
  refine ⟨?_, ?_, ?_, ?_⟩ <;> apply BitVec.eq_of_toNat_eq <;> rw [BitVec.extractLsb'_toNat, fromLe32_toNat,
      Nat.shiftRight_eq_div_pow] <;> omega

/-- R13: a word is made of its bytes. -/
theorem fromLe32_extracts (v : Word) : fromLe32 (v.extractLsb' 0 8) (v.extractLsb' 8 8) (v.extractLsb' 16 8)
    (v.extractLsb' 24 8) = v := by
  apply BitVec.eq_of_toNat_eq
  have := v.isLt
  rw [fromLe32_toNat]; simp only [BitVec.extractLsb'_toNat, Nat.shiftRight_eq_div_pow]; omega

/-- R96: byte k of the word at byte offset i of a window is byte i + k. -/
theorem windowWord_extract {n} (t : Vector Byte n) (i k : Nat) (hk : k < 4)
    (h : i + k < n) : t[i + k]? = some ((windowWord t i).extractLsb' (8 * k) 8) := by
  obtain ⟨e0, e1, e2, e3⟩ := fromLe32_extract (entry t i 0) (entry t (i + 1) 0) (entry t (i + 2) 0)
      (entry t (i + 3) 0)
  rw [entry_eq t 0 h]
  interval_cases k
  · exact congrArg some e0.symm
  · exact congrArg some e1.symm
  · exact congrArg some e2.symm
  · exact congrArg some e3.symm

/-- R96: a write of a word changes its four bytes and no other. -/
theorem setWindowWord_get {n} (t : Vector Byte n) (i : Nat) (v : Word) (h : i + 4 ≤ n) : (∀ k, k < 4 →
    (setWindowWord t i v)[i + k]? = some (v.extractLsb' (8 * k) 8)) ∧ ∀ m, m < i ∨ i + 4 ≤ m →
    (setWindowWord t i v)[m]? = t[m]? := by
  unfold setWindowWord
  constructor
  · intro k hk
    interval_cases k <;> simp [Vector.getElem?_setIfInBounds] <;> omega
  · intro m hm
    simp only [Vector.getElem?_setIfInBounds]
    repeat rw [if_neg (by omega)]

/-- R96: a word written reads back. -/
theorem windowWord_setWindowWord {n} (t : Vector Byte n) (i : Nat) (v : Word)
    (h : i + 4 ≤ n) : windowWord (setWindowWord t i v) i = v := by
  have g := (setWindowWord_get t i v h).1
  have e : ∀ k, k < 4 → entry (setWindowWord t i v) (i + k) 0 = v.extractLsb' (8 * k) 8 := by
    intro k hk; unfold entry; rw [g k hk]; rfl
  unfold windowWord
  rw [show entry (setWindowWord t i v) i 0 = _ from e 0 (by norm_num), e 1 (by norm_num), e 2 (by norm_num),
      e 3 (by norm_num)]
  exact fromLe32_extracts v

/-- The FREQ window (R66). -/
theorem regAt_freq {v : Nat} (h : v < 256) : regAt (0x400 + 4 * v) = .freq v := by
  generalize e : 0x400 + 4 * v = off
  unfold regAt; repeat' split
  all_goals first | omega | (congr 1; omega)

/-- The DATA_IN window (R67). -/
theorem regAt_dataIn {j : Nat} (h : j < 256) : regAt (0x800 + 4 * j) = .dataIn (4 * j) := by
  generalize e : 0x800 + 4 * j = off
  unfold regAt; repeat' split
  all_goals first | omega | exact congrArg Reg.dataIn (by omega)

/-- The CODE_LEN window (R69). -/
theorem regAt_codeLen {j : Nat} (h : j < 64) : regAt (0x1000 + 4 * j) = .codeLen (4 * j) := by
  generalize e : 0x1000 + 4 * j = off
  unfold regAt; repeat' split
  all_goals first | omega | exact congrArg Reg.codeLen (by omega)

/-- The CODE_BITS window (R70). -/
theorem regAt_codeBits {v m : Nat} (hm : m < 8) : regAt (0x2000 + 32 * v + 4 * m) = .codeBits v m := by
  generalize e : 0x2000 + 32 * v + 4 * m = off
  unfold regAt; repeat' split
  all_goals first | omega | exact congrArg₂ Reg.codeBits (by omega) (by omega)

/-- The CODE_BITS window by words (R70). -/
theorem regAt_codeBits_word {k : Nat}  : regAt (0x2000 + 4 * k) = .codeBits (k / 8) (k % 8) := by
  generalize e : 0x2000 + 4 * k = off
  unfold regAt; repeat' split
  all_goals first | omega | exact congrArg₂ Reg.codeBits (by omega) (by omega)

/-- The fields of TREE_INFO (R61). -/
theorem treeInfo_fields (a : BitVec 7) (b : BitVec 9) (c : BitVec 7)
    (d : BitVec 9) : (a ++ b ++ c ++ d).extractLsb' 0 9 = d ∧ (a ++ b ++ c ++ d).extractLsb' 9 7 = c ∧
    (a ++ b ++ c ++ d).extractLsb' 16 9 = b ∧ (a ++ b ++ c ++ d).extractLsb' 25 7 = a := by
  refine ⟨?_, ?_, ?_, ?_⟩ <;> apply BitVec.eq_of_getLsbD_eq <;> intro i hi <;> simp only [BitVec.getLsbD_extractLsb', BitVec.getLsbD_append, hi] <;> split_ifs <;> simp <;> (try omega)
  all_goals (congr 1; omega)

/-- A step takes the first input. -/
theorem step_cons {s : State} {x later} (h : s.inputs = x :: later) : step s = handle x {s with inputs := later} s := by
  unfold step; rw [h]

/-- With nothing to come, the core takes its turn. -/
theorem step_nil {s : State} (h : s.inputs = []) : step s = idleStep s := by
  unfold step; rw [h]

/-- A 32-bit access at a 4-aligned offset is legal (R91). -/
theorem legal_word {off : Nat} (h : off % 4 = 0) : legalAccess .word off = true := by simp [legalAccess, h]

/-- R91, R92: a host read inside the window. -/
theorem step_read {s : State} {w off later} (h : s.inputs = .read w off :: later) (ho : off < 0x4000) :
    step s = .next (if legalAccess w off then hostRead (regAt off) {s with inputs := later} else busError {s with inputs := later}) := by
  rw [step_cons h]
  exact if_neg (by simp [Config.regWindow]; omega)

/-- R91, R92: a host write inside the window. -/
theorem step_write {s : State} {w off later} {v : Word} (h : s.inputs = .write w off v :: later) (ho : off < 0x4000) :
    step s = .next (if legalAccess w off then hostWrite (regAt off) v {s with inputs := later} else busError {s with inputs := later}) := by
  rw [step_cons h]
  exact if_neg (by simp [Config.regWindow]; omega)

/-- The word a register is read as: its value, or what rule R372 leaves while BUSY = 1. -/
def readWord (s : State) (r : Reg) : Word :=
    if s.status.busy then s.busyRegValue (Config.busyWord s.taken) r else s.regValue r

theorem busyRegValue_inputs (s : State) (l : List Input)
    (a r) : ({s with inputs := l} : State).busyRegValue a r = s.busyRegValue a r := by cases r <;> rfl

theorem slot_inputs (s : State) (l : List Input) (i) : ({s with inputs := l} : State).slot i = s.slot i :=
    by cases i <;> rfl

theorem regValue_inputs (s : State) (l : List Input)
    (r) : ({s with inputs := l} : State).regValue r = s.regValue r := by
  cases r <;> rfl

/-- R93: a read changes only the response and the count of free values. -/
theorem hostRead_eq (r : Reg)
    (s : State) : hostRead r s = { s with response := .data (readWord s r), taken := if s.status.busy then s.taken + 1 else s.taken } := by
  unfold hostRead readWord; split <;> rfl

theorem seen_inputs (s : State) (l : List Input) (r) : readWord {s with inputs := l} r = readWord s r := by
  unfold readWord; simp only [busyRegValue_inputs, regValue_inputs]

/-- What a legal read is answered with. -/
theorem hostReads_eq (s : State) {off : Nat} (ho : off < 0x4000)
    (ha : off % 4 = 0) : s.hostReads off = some (readWord s (regAt off)) := by
  unfold State.hostReads
  rw [step_read (s := {s with inputs := [.read .word off]}) rfl ho, legal_word ha]
  simp only [if_true]
  rw [hostRead_eq]
  simp only [seen_inputs]

theorem seen_idle {s : State} (h : s.status.busy = false) (r) : readWord s r = s.regValue r :=
    by unfold readWord; simp [h]

theorem seen_busy {s : State} (h : s.status.busy = true)
    (r) : readWord s r = s.busyRegValue (Config.busyWord s.taken) r := by unfold readWord; simp [h]

/-- CMD and the reserved words read 0 (R53, R71). -/
theorem seen_zero (s : State) (r : Reg) (h : r = .cmd ∨ r = .reserved) : readWord s r = 0 := by
  unfold readWord; rcases h with rfl | rfl <;> split <;> rfl

/-- A legal read while BUSY = 0. -/
theorem reads_idle (s : State) {off : Nat} (hb : s.status.busy = false) (ho : off < 0x4000)
    (ha : off % 4 = 0) : s.hostReads off = some (s.regValue (regAt off)) := by
  rw [hostReads_eq s ho ha, seen_idle hb]

/-- A legal read while BUSY = 1 (R372). -/
theorem reads_busy (s : State) {off : Nat} (hb : s.status.busy = true) (ho : off < 0x4000)
    (ha : off % 4 = 0) : s.hostReads off = some (s.busyRegValue (Config.busyWord s.taken) (regAt off)) := by
  rw [hostReads_eq s ho ha, seen_busy hb]

/-- Where CMD and the reserved words are (R50, R71). -/
theorem regAt_hole {off : Nat} (h : off = 0x0004 ∨ off = 0x002C ∨ (0x0050 ≤ off ∧ off < 0x0400) ∨ (0x1100 ≤ off ∧
    off < 0x2000)) (ha : off % 4 = 0) : regAt off = .cmd ∨ regAt off = .reserved := by
  rcases h with rfl | rfl | h | h
  · exact .inl rfl
  · exact .inr rfl
  · right; unfold regAt; rw [if_pos h.2]
    unfold headReg; split <;> first | rfl | omega
  · right; unfold regAt; repeat rw [if_neg (by omega)]
    rw [if_pos (by omega)]

/-- R93: a write to a word that is not RW or CMD is ignored. -/
theorem headReg_writable {k : Nat} (h : k ≠ 1 ∧ k ≠ 3 ∧ k ≠ 4 ∧ k ≠ 6) (v : Word)
    (s : State) : writeReg v s (headReg k) = s := by
  unfold headReg; split <;> first | rfl | omega

/-- R93: a write to a register that is not RW or CMD is ignored. -/
theorem writeReg_ro {off : Nat} (ha : off % 4 = 0)
    (h : ¬ (off = 0x0004 ∨ off = 0x000C ∨ off = 0x0010 ∨ off = 0x0018 ∨ (0x0800 ≤ off ∧ off < 0x0C00))) (v : Word)
    (s : State) : writeReg v s (regAt off) = s := by
  unfold regAt
  split
  · exact headReg_writable (by omega) v s
  · repeat' split
    all_goals first | rfl | omega

end Sys2Proof.Laws
end

