-- ==== Sys2Proof/Laws/Run.lean ====
section
/-! SUPPORT. How each command runs, as one case distinction, and how it ends; what the core's transition and a step can do
(spec/60_exceptions.md rules R328 to R332). Later proofs cite these and do not unfold a command. -/

namespace Sys2Proof.Laws

open Sys2Proof.Machine

/-- A completion is the end of a command as rule R330 writes it. -/
theorem complete_eq (e p s) : complete e p s = ended e p s := rfl

/-- The core runs the latched command where no file has been raced. -/
theorem runLatched_clean {s : State} {i} (h : decodeFields s.latchedFields = .ok i)
    (r : s.raced = false) : runLatched s = exec i s := by
  unfold runLatched; rw [h]; simp [r]

/-- R328: an accepted command is what the latch decodes to. -/
theorem latchedFields_accept (w : Word) (s) (i)
    (h : decode w = .ok i): decodeFields (accept w s).latchedFields = .ok i := by
  have h2 := h
  unfold decode at h2
  have hd := (decodeFields_iff _ _).1 h2
  have : (accept w s).latchedFields = fieldsOf w := by
    rw [hd]
    show CmdFields.mk (fieldsOf w).op (fieldsOf w).s (fieldsOf w).d 0 = _
    rw [hd]
  rw [this]; exact h2

/-- The core's turn while a command runs. -/
theorem step_core_busy {s : State} {l} (h : s.inputs = .core :: l)
    (hb : s.status.busy = true) : step s = runLatched {s with inputs := l} := by
  rw [step_cons h]; show (if s.status.busy then _ else _) = _; rw [if_pos hb]

/-- The core's turn with nothing to come. -/
theorem step_nil_busy {s : State} (h : s.inputs = []) (hb : s.status.busy = true) : step s = runLatched s := by
  rw [step_nil h]; unfold idleStep; rw [if_pos hb]

/-- Writing a slot back changes nothing. -/
theorem slot_setSlot (s : State) (j) : s.setSlot j (s.slot j) = s := by cases j <;> rfl

theorem runStream_ok {m : Cmd Unit} {s t} (h : m s = .ok () t) : runStream m s = ended .noError .idle t := by
  unfold runStream; rw [h]; rfl

theorem runStream_error {m : Cmd Unit} {s t e} (h : m s = .error e t) : runStream m s = ended e .idle t := by
  unfold runStream; rw [h]; rfl

/-- R160: a stream command whose body starts with CheckSlot. -/
theorem checked_run (j : SlotId) (m : Mode) (body : Unit → Cmd Unit) (s : State) :
    runStream (checkSlot j m >>= body) s = if (s.slot j).mode = .closed then ended .notOpen .idle s
      else if (s.slot j).mode = m then runStream (body ()) s else ended .invalidMode .idle s := by
  unfold runStream
  rw [bind_apply]
  rcases checkSlot_cases j m s with ⟨h, e⟩ | ⟨h, h', e⟩ | ⟨h, h', e⟩
  · rw [e, if_pos h]; rfl
  · rw [e, if_neg h, if_neg h']; rfl
  · rw [e, if_neg h, if_pos h']

/-- R323: a body that goes on after the range check. -/
theorem xfer_run (n : Nat) (body : Unit → Cmd Unit) (s : State) :
    runStream (checkXfer n >>= body) s = if n > 8192 then ended .xferLen .idle s else runStream (body ()) s := by
  unfold runStream
  rw [bind_apply, checkXfer_apply]
  by_cases h : n > 8192
  · rw [if_pos h]; simp [Config.maxXferBits, h]; rfl
  · rw [if_neg h]; simp [Config.maxXferBits, h]

/-- BS_WRITE as one case distinction (R164). -/
theorem bsWrite_run (j s) : exec (.bsWrite j) s = .next (if (s.slot j).mode = .closed then ended .notOpen .idle s
      else if (s.slot j).mode = .write then
        if s.latch.arg0.toNat > 8192 then ended .xferLen .idle s else ended .noError .idle (s.setSlot j ((s.slot j).append (s.operandData s.operandBits)))
      else ended .invalidMode .idle s) := by
  show Host.Outcome.next (runStream (bsWriteBody j) s) = _
  unfold bsWriteBody
  rw [checked_run]
  congr 3
  exact xfer_run s.operandBits _ s

/-- BS_FLUSH as one case distinction (R166). -/
theorem bsFlush_run (j s) : exec (.bsFlush j) s = .next (if (s.slot j).mode = .closed then ended .notOpen .idle s
      else if (s.slot j).mode = .write then runStream (flushSlot j) s
      else ended .invalidMode .idle s) := by
  show Host.Outcome.next (runStream (bsFlushBody j) s) = _
  unfold bsFlushBody
  rw [checked_run]

/-- BS_CLEAR as one case distinction (R170). -/
theorem bsClear_run (j s) : exec (.bsClear j) s = .next (if (s.slot j).mode = .closed then ended .notOpen .idle s
      else if (s.slot j).mode = .write then runStream (truncateSlot j) s
      else ended .invalidMode .idle s) := by
  show Host.Outcome.next (runStream (bsClearBody j) s) = _
  unfold bsClearBody
  rw [checked_run]

/-- BS_REWIND as one case distinction (R178). -/
theorem bsRewind_run (j s) : exec (.bsRewind j) s = .next (if (s.slot j).mode = .closed then ended .notOpen .idle s
      else if (s.slot j).mode = .read then ended .noError .idle (s.setSlot j (s.slot j).rewound)
      else ended .invalidMode .idle s) := by
  show Host.Outcome.next (runStream (bsRewindBody j) s) = _
  unfold bsRewindBody
  rw [checked_run]; rfl

/-- BS_READ as one case distinction (R174). -/
theorem bsRead_run (j s) : exec (.bsRead j) s = .next (if (s.slot j).mode = .closed then ended .notOpen .idle s
      else if (s.slot j).mode = .read then
        if s.latch.arg0.toNat > 8192 then ended .xferLen .idle s else runStream (readBits j s.latch.arg0.toNat >>= writeReadResult) s
      else ended .invalidMode .idle s) := by
  show Host.Outcome.next (runStream (bsReadBody j) s) = _
  unfold bsReadBody
  rw [checked_run]
  congr 3
  exact xfer_run s.operandBits _ s

/-- How BS_WRITE ends. -/
theorem bsWrite_ends (j s) : ∃ e x, exec (.bsWrite j) s = .next (ended e .idle (s.setSlot j x)) ∧ (e = .noError ∧
    x = (s.slot j).append (s.operandData s.operandBits) ∧ (s.slot j).mode = .write ∧
    s.operandBits ≤ 8192 ∨ e ≠ .noError ∧ x = s.slot j ∧ (e, Phase.idle) ∈ completions (.bsWrite j)) := by
  show ∃ e x, Host.Outcome.next (runStream (bsWriteBody j) s) = _ ∧ _
  unfold runStream bsWriteBody
  rw [bind_apply]
  rcases checkSlot_cases j .write s with ⟨h, e⟩ | ⟨h, h', e⟩ | ⟨h, h', e⟩
  · rw [e]; exact ⟨.notOpen, s.slot j, by simp [complete_eq], .inr ⟨by simp, rfl, by simp [completions]⟩⟩
  · rw [e]; exact ⟨.invalidMode, s.slot j, by simp [complete_eq], .inr ⟨by simp, rfl, by simp [completions]⟩⟩
  · rw [e]
    simp only [bind_apply, get_apply, checkXfer_apply]
    by_cases hx : s.operandBits > Config.maxXferBits
    · rw [if_pos hx]; exact ⟨.xferLen, s.slot j, by simp [complete_eq], .inr ⟨by simp, rfl, by simp [completions]⟩⟩
    · rw [if_neg hx]
      simp only [appendBits_apply]
      exact ⟨.noError, _, rfl, .inl ⟨rfl, rfl, h', by simpa [Config.maxXferBits] using hx⟩⟩

/-- How BS_REWIND ends. -/
theorem bsRewind_ends (j s) : ∃ e x, exec (.bsRewind j) s = .next (ended e .idle (s.setSlot j x)) ∧ (e = .noError ∧
    x = (s.slot j).rewound ∧ (s.slot j).mode = .read ∨ e ≠ .noError ∧ x = s.slot j ∧ (e,
    Phase.idle) ∈ completions (.bsRewind j)) := by
  show ∃ e x, Host.Outcome.next (runStream (bsRewindBody j) s) = _ ∧ _
  unfold runStream bsRewindBody
  rw [bind_apply]
  rcases checkSlot_cases j .read s with ⟨h, e⟩ | ⟨h, h', e⟩ | ⟨h, h', e⟩
  · rw [e]; exact ⟨.notOpen, s.slot j, by simp [complete_eq], .inr ⟨by simp, rfl, by simp [completions]⟩⟩
  · rw [e]; exact ⟨.invalidMode, s.slot j, by simp [complete_eq], .inr ⟨by simp, rfl, by simp [completions]⟩⟩
  · rw [e]
    exact ⟨.noError, _, rfl, .inl ⟨rfl, rfl, h'⟩⟩

/-- How BS_FLUSH ends. -/
theorem bsFlush_ends (j s) : ∃ e x o m n,
    exec (.bsFlush j) s = .next (ended e .idle ({s with io := o, files := m, taken := n}.setSlot j x)) ∧
    Touched (s.slot j).file s.files m ∧
    (e = .noError ∧ x = (s.slot j).flushed (pack (s.slot j).acc).length ∧ m = flushedFiles (s.slot j) s.files ∧
        (s.slot j).mode = .write ∨ e ≠ .noError ∧ x = s.slot j ∧ (e, Phase.idle) ∈ completions (.bsFlush j)) := by
  show ∃ e x o m n, Host.Outcome.next (runStream (bsFlushBody j) s) = _ ∧ _
  unfold runStream bsFlushBody
  rw [bind_apply]
  rcases checkSlot_cases j .write s with ⟨h, e⟩ | ⟨h, h', e⟩ | ⟨h, h', e⟩
  · rw [e]; exact ⟨.notOpen, s.slot j, s.io, s.files, s.taken, by simp [complete_eq], Touched.refl _ _,
      .inr ⟨by simp, rfl, by simp [completions]⟩⟩
  · rw [e]; exact ⟨.invalidMode, s.slot j, s.io, s.files, s.taken, by simp [complete_eq], Touched.refl _ _,
      .inr ⟨by simp, rfl, by simp [completions]⟩⟩
  · rw [e]
    simp only
    rcases flushSlot_cases j s with ⟨o, e', -⟩ | ⟨m, o, n, e', -, t⟩
    · rw [e']
      refine ⟨.noError, _, o, _, s.taken, rfl, ?_, .inl ⟨rfl, rfl, rfl, h'⟩⟩
      unfold flushedFiles; split
      · exact touched_update _ _ _
      · exact Touched.refl _ _
    · rw [e']
      exact ⟨.io, s.slot j, o, m, n, by cases j <;> rfl, t, .inr ⟨by simp, rfl, by simp [completions]⟩⟩

/-- How BS_CLEAR ends. -/
theorem bsClear_ends (j s) : ∃ e x o m n,
    exec (.bsClear j) s = .next (ended e .idle ({s with io := o, files := m, taken := n}.setSlot j x)) ∧
    Touched (s.slot j).file s.files m ∧
    (e = .noError ∧ x = {s.slot j with wpos := 0} ∧ m = s.files.update (s.slot j).file [] ∧
        (s.slot j).mode = .write ∨ e ≠ .noError ∧ x = s.slot j ∧ (e, Phase.idle) ∈ completions (.bsClear j)) := by
  show ∃ e x o m n, Host.Outcome.next (runStream (bsClearBody j) s) = _ ∧ _
  unfold runStream bsClearBody
  rw [bind_apply]
  rcases checkSlot_cases j .write s with ⟨h, e⟩ | ⟨h, h', e⟩ | ⟨h, h', e⟩
  · rw [e]; exact ⟨.notOpen, s.slot j, s.io, s.files, s.taken, by simp [complete_eq], Touched.refl _ _,
      .inr ⟨by simp, rfl, by simp [completions]⟩⟩
  · rw [e]; exact ⟨.invalidMode, s.slot j, s.io, s.files, s.taken, by simp [complete_eq], Touched.refl _ _,
      .inr ⟨by simp, rfl, by simp [completions]⟩⟩
  · rw [e]
    simp only
    rcases truncateSlot_cases j s with ⟨-, e'⟩ | ⟨-, e'⟩ | ⟨-, e'⟩
    · rw [e']
      exact ⟨.noError, _, s.io.next.2, _, s.taken, rfl, touched_update _ _ _, .inl ⟨rfl, rfl, rfl, h'⟩⟩
    · rw [e']
      exact ⟨.io, s.slot j, s.io.next.2, _, s.taken + 1, by cases j <;> rfl, touched_update _ _ _, .inr ⟨by simp,
          rfl, by simp [completions]⟩⟩
    · rw [e']
      exact ⟨.io, s.slot j, s.io.next.2, s.files, s.taken, by cases j <;> rfl, Touched.refl _ _, .inr ⟨by simp, rfl,
          by simp [completions]⟩⟩

/-- How BS_OPEN ends. -/
theorem bsOpen_ends (j d s) : ∃ e x o m,
    exec (.bsOpen j d) s = .next (ended e .idle ({s with io := o, files := m}.setSlot j x)) ∧
    (e = .noError ∧ x = Slot.opened d s.operandFile ∧ (d = .read → (s.files.lookup s.operandFile).isSome ∧
        m = s.files) ∧ (d = .write → m = s.files.create s.operandFile)  ∨ e = .io ∧ x = Slot.reset ∧
        m = s.files) := by
  show ∃ e x o m, Host.Outcome.next (runStream (bsOpenBody j d) s) = _ ∧ _
  unfold runStream bsOpenBody
  rw [bind_apply, get_apply]
  simp only
  rcases openSlot_cases j d s.operandFile s with ⟨m, h1, h2, h3, e⟩ | ⟨h, e⟩
  · rw [e]; exact ⟨.noError, _, s.io.next.2, m, by cases j <;> rfl, .inl ⟨rfl, rfl, h2, h3⟩⟩
  · rw [e]; exact ⟨.io, _, s.io.next.2, s.files, by cases j <;> rfl, .inr ⟨rfl, rfl, rfl⟩⟩

/-- How BS_READ ends. -/
theorem bsRead_ends (j s) : ∃ e x o r d,
    exec (.bsRead j) s = .next (ended e .idle ({s with io := o, resultBits := r, dataOut := d}.setSlot j x)) ∧
    x.mode = (s.slot j).mode ∧ x.file = (s.slot j).file ∧ (e, Phase.idle) ∈ completions (.bsRead j) ∧
    (e ≠ .noError → r = s.resultBits ∧ d = s.dataOut) := by
  show ∃ e x o r d, Host.Outcome.next (runStream (bsReadBody j) s) = _ ∧ _
  unfold runStream bsReadBody
  rw [bind_apply]
  rcases checkSlot_cases j .read s with ⟨h, e⟩ | ⟨h, h', e⟩ | ⟨h, h', e⟩
  · rw [e]; exact ⟨.notOpen, s.slot j, s.io, s.resultBits, s.dataOut, by simp [complete_eq], rfl, rfl,
      by simp [completions], fun _ => ⟨rfl, rfl⟩⟩
  · rw [e]; exact ⟨.invalidMode, s.slot j, s.io, s.resultBits, s.dataOut, by simp [complete_eq], rfl, rfl,
      by simp [completions], fun _ => ⟨rfl, rfl⟩⟩
  · rw [e]
    simp only [bind_apply, get_apply, checkXfer_apply]
    by_cases hx : s.operandBits > Config.maxXferBits
    · rw [if_pos hx]; exact ⟨.xferLen, s.slot j, s.io, s.resultBits, s.dataOut, by simp [complete_eq], rfl, rfl,
        by simp [completions], fun _ => ⟨rfl, rfl⟩⟩
    · rw [if_neg hx]
      simp only
      have or := readBits_onlyReads j s.operandBits
      cases hr : readBits j s.operandBits s with
      | ok out t =>
        obtain ⟨x, o, rfl, h1, h2⟩ := or.of_ok hr
        refine ⟨.noError, x, o, store 32 out.length, packedOut out, ?_, h1, h2, by simp [completions],
            fun h => absurd rfl h⟩
        cases j <;> simp only [writeReadResult, modify_apply, complete_eq, State.setSlot]
      | error e t =>
        obtain ⟨x, o, rfl, h1, h2⟩ := or.of_error hr
        have := raises_readBits j s.operandBits s e _ hr
        simp at this; subst this
        exact ⟨.io, x, o, s.resultBits, s.dataOut, by cases j <;> rfl, h1, h2, by simp [completions], fun _ => ⟨rfl,
            rfl⟩⟩

/-- How a session ends: closed, with a listed completion, over a state that keeps what a session keeps. -/
theorem session_outcome (i s) (h : isSession i = true) : ∃ e p t, exec i s = .next (ended e p (closeSession t)) ∧
    SessionKeeps s.operandOutFile s t ∧ (e, p) ∈ completions i := by
  cases i <;> simp [isSession] at h
  · obtain ⟨e, p, t, h1, h2, h3⟩ := session_ends encodePhases.tail s (encode_phases_keep _)
    refine ⟨e, p, t, congrArg Host.Outcome.next h1, h2, ?_⟩
    rcases h3 with ⟨rfl, rfl⟩ | ⟨q, hq, rfl, u, hu⟩
    · simp [completions]
    · simp only [encodePhases, List.tail_cons, List.mem_cons, List.not_mem_nil, or_false] at hq
      rcases hq with rfl | rfl | rfl | rfl | rfl | rfl
      · have := raises_encSetup _ _ _ hu; simp at this; rcases this with rfl | rfl <;> simp [completions]
      · have := raises_countFrequencies _ _ _ hu; simp at this; rcases this with rfl | rfl <;> simp [completions]
      · have := raises_buildAndDerive _ _ _ hu; simp at this
      · have := raises_writeCounts _ _ _ _ hu; simp at this
      · have := raises_encodeBody _ _ _ hu; simp at this; rcases this with rfl | rfl <;> simp [completions]
      · have := raises_flushSlot _ _ _ _ hu; simp at this; subst this; simp [completions]
  · obtain ⟨e, p, t, h1, h2, h3⟩ := session_ends decodePhases.tail s (decode_phases_keep _)
    refine ⟨e, p, t, congrArg Host.Outcome.next h1, h2, ?_⟩
    rcases h3 with ⟨rfl, rfl⟩ | ⟨q, hq, rfl, u, hu⟩
    · simp [completions]
    · simp only [decodePhases, List.tail_cons, List.mem_cons, List.not_mem_nil, or_false] at hq
      rcases hq with rfl | rfl | rfl | rfl | rfl
      · have := raises_encSetup _ _ _ hu; simp at this; rcases this with rfl | rfl <;> simp [completions]
      · have := raises_readHeader _ _ _ hu; simp at this; rcases this with rfl | rfl <;> simp [completions]
      · cases hu
      · have := raises_decodeBody _ _ _ hu; simp at this; rcases this with rfl | rfl <;> simp [completions]
      · have := raises_flushSlot _ _ _ _ hu; simp at this; subst this; simp [completions]

/-- The state a command leaves. -/
def outcome (i : Instr) (s : State) : State := match exec i s with | .next t => t | _ => s

/-- R330: every command completes. -/
theorem exec_next (i : Instr) (s : State) : exec i s = .next (outcome i s) := by cases i <;> rfl

/- each stream command ends in `ended e idle t` with t described -/

/-- R121: no command writes an operand register, the latch or what is to come. -/
theorem exec_operands (i s t) (h : exec i s = .next t) : sameOperands s t ∧ sameInputs s t := by
  cases i with
  | bsOpen j d =>
    obtain ⟨e, x, o, m, h', -⟩ := bsOpen_ends j d s
    rw [h'] at h
    cases h
    cases j <;> exact ⟨⟨rfl,rfl,rfl,rfl,rfl⟩,rfl,rfl⟩
  | bsWrite j =>
    obtain ⟨e, x, h', -⟩ := bsWrite_ends j s
    rw [h'] at h
    cases h
    cases j <;> exact ⟨⟨rfl,rfl,rfl,rfl,rfl⟩,rfl,rfl⟩
  | bsRewind j =>
    obtain ⟨e, x, h', -⟩ := bsRewind_ends j s
    rw [h'] at h
    cases h
    cases j <;> exact ⟨⟨rfl,rfl,rfl,rfl,rfl⟩,rfl,rfl⟩
  | bsFlush j =>
    obtain ⟨e, x, o, m, n, h', -, -⟩ := bsFlush_ends j s
    rw [h'] at h
    cases h
    cases j <;> exact ⟨⟨rfl,rfl,rfl,rfl,rfl⟩,rfl,rfl⟩
  | bsClear j =>
    obtain ⟨e, x, o, m, n, h', -, -⟩ := bsClear_ends j s
    rw [h'] at h
    cases h
    cases j <;> exact ⟨⟨rfl,rfl,rfl,rfl,rfl⟩,rfl,rfl⟩
  | bsRead j =>
    obtain ⟨e, x, o, m, n, h', -⟩ := bsRead_ends j s
    rw [h'] at h
    cases h
    cases j <;> exact ⟨⟨rfl,rfl,rfl,rfl,rfl⟩,rfl,rfl⟩
  | encodeFile =>
    obtain ⟨e, p, u, h', ⟨-, k, -, l, -⟩, -⟩ := session_outcome .encodeFile s rfl
    rw [h'] at h
    cases h
    exact ⟨k, l⟩
  | decodeFile =>
    obtain ⟨e, p, u, h', ⟨-, k, -, l, -⟩, -⟩ := session_outcome .decodeFile s rfl
    rw [h'] at h
    cases h
    exact ⟨k, l⟩

/-- A raced command completes too. -/
theorem racedOutcome_next (i : Instr) (s : State) : ∃ u, racedOutcome i s = .next u ∧
    u.status = s.status.completed (pickCompletion i (Config.racePick s.taken)).1 (pickCompletion i (Config.racePick s.taken)).2 := by
  have h := exec_next i { s with
      files := s.files.replace (sourceFile i s) (Config.unspecifiedBytes s.taken)
      io := s.io.cutAfter (Config.raceReach s.taken)
      taken := s.taken + 2 }
  unfold racedOutcome
  simp only [h]
  exact ⟨_, rfl, rfl⟩

/-- The core's transition always ends in a next state. -/
theorem runLatched_next (s : State) : ∃ t, runLatched s = .next t ∧ t.inputs = s.inputs := by
  unfold runLatched
  split
  · split
    · unfold racedOutcome
      simp only [exec_next]
      exact ⟨_, rfl, (exec_operands _ _ _ (exec_next _ _)).2.1⟩
    · exact ⟨_, exec_next _ _, (exec_operands _ _ _ (exec_next _ _)).2.1⟩
  · exact ⟨_, rfl, rfl⟩

/-- A replacement changes which files exist in nothing. -/
theorem replace_dom (m : Memory) (f : Option FileId) (b : List Byte)
    (g : FileId) : ((m.replace f b).lookup g).isSome = (m.lookup g).isSome := by
  unfold Memory.replace
  split
  · rfl
  · split
    · next h => rw [lookup_update]; split
                · next e => subst e; exact h.symm
                · rfl
    · rfl

/-- What the core does: it runs the latched command, or the raced outcome, which is a run over other files and
another oracle with the files, the oracle and STATUS set after it, or completes an undecodable latch. -/
theorem runLatched_cases {s t : State} (h : runLatched s = .next t) :
   (∃ i u, decodeFields s.latchedFields = .ok i ∧ (exec i s = .next t ∨ (∃ m o n,
       exec i { s with files := m, io := o, taken := n } = .next u ∧ (∀ g,
       (m.lookup g).isSome = (s.files.lookup g).isSome) ∧ (s.files.wf → m.wf) ∧
        ∃ m' o' st, t = { u with files := m', io := o', status := st } ∧ st.busy = false ∧ (∀ g,
            (m'.lookup g).isSome = (u.files.lookup g).isSome) ∧ (u.files.wf → m'.wf)))) ∨
   t = complete .illegalCmd .idle s := by
  unfold runLatched at h
  split at h
  · next i hi =>
    left
    split at h
    · unfold racedOutcome at h
      simp only [exec_next] at h
      cases h
      refine ⟨i, _, hi, .inr ⟨_, _, _, exec_next _ _, fun g => replace_dom _ _ _ g, fun h => replace_wf h _ _, _, _,
          _, rfl, rfl, ?_, ?_⟩⟩
      · intro g; unfold racedFiles; rw [replace_dom]; split
        · rfl
        · rw [replace_dom]
      · intro h; unfold racedFiles; apply replace_wf; split
        · exact h
        · exact replace_wf h _ _
    · exact ⟨i, s, hi, .inl h⟩
  · cases h; exact .inr rfl

/-- A CMD write changes only the latch, STOP_L, STATUS and the race mark (R328, R329). -/
theorem submit_frame (v s) : ∃ l st so r,
    submit v s = { s with latch := l, status := st, stopL := so, raced := r } := by
  rcases submit_cases v s with ⟨-, e⟩ | ⟨-, -, e⟩ | ⟨-, -, e⟩ <;> rw [e] <;> exact ⟨_, _, _, _, rfl⟩

/-- The ways a step goes: reset, the core, a CMD write, an access that changes only host registers, a file change. -/
theorem step_next_cases {s t : State} (h : step s = .next t) :
    (∃ k l, s.inputs = .reset k :: l ∧ ∃ f o n,
        t = { State.reset with files := f, io := o, taken := n, inputs := l } ∧
       ((s.status.busy = false ∧ f = s.files) ∨ (s.status.busy = true ∧ ∃ u,
           runLatched { s with inputs := l, io := s.io.cutAfter k } = .next u ∧ f = u.files))) ∨
    (s.status.busy = true ∧ ∃ l, runLatched { s with inputs := l } = .next t) ∨
    (∃ w off l v, s.inputs = .write w off v :: l ∧ legalAccess w off = true ∧ regAt off = .cmd ∧
        t = { submit v { s with inputs := l } with response := .written }) ∨
    (∃ l r a0 a1 st d n, t = { s with inputs := l, response := r, arg0 := a0, arg1 := a1, stop := st, dataIn := d, taken := n }) ∨
    (∃ f b l, s.inputs = .fileChange f b :: l ∧ t = changeFile f b { s with inputs := l }) := by
  cases hi : s.inputs with
  | nil =>
    rw [step_nil hi] at h; unfold idleStep at h
    split at h
    · next hb => exact .inr (.inl ⟨hb, s.inputs, h⟩)
    · cases h; exact .inr (.inr (.inr (.inl ⟨_, _, _, _, _, _, _, rfl⟩)))
  | cons x l =>
    have h0 := h
    rw [step_cons hi] at h
    cases x with
    | read w off =>
      simp only [handle] at h
      split at h
      · cases h
      · cases h
        split
        · rw [hostRead_eq]; exact .inr (.inr (.inr (.inl ⟨_, _, _, _, _, _, _, rfl⟩)))
        · exact .inr (.inr (.inr (.inl ⟨_, _, _, _, _, _, _, rfl⟩)))
    | write w off v =>
      simp only [handle] at h
      split at h
      · cases h
      · cases h
        split
        · next hl =>
          cases hr : regAt off with
          | cmd => exact .inr (.inr (.inl ⟨w, off, l, v, rfl, hl, hr, rfl⟩))
          | _ => exact .inr (.inr (.inr (.inl ⟨_, _, _, _, _, _, _, rfl⟩)))
        · exact .inr (.inr (.inr (.inl ⟨_, _, _, _, _, _, _, rfl⟩)))
    | wait =>
      simp only [handle] at h
      split at h
      · next hb => exact .inr (.inl ⟨hb, s.inputs, h⟩)
      · cases h; rw [hostRead_eq]; exact .inr (.inr (.inr (.inl ⟨_, _, _, _, _, _, _, rfl⟩)))
    | core =>
      simp only [handle] at h
      split at h
      · next hb => exact .inr (.inl ⟨hb, l, h⟩)
      · cases h; exact .inr (.inr (.inr (.inl ⟨_, _, _, _, _, _, _, rfl⟩)))
    | reset k =>
      left
      refine ⟨k, l, rfl, ?_⟩
      change resetInput k { s with inputs := l } = .next t at h
      unfold resetInput at h
      split at h
      · next hb =>
        unfold cutShort at h
        obtain ⟨u, e, -⟩ := runLatched_next ({ ({s with inputs := l} : State) with io := ({s with inputs := l} : State).io.cutAfter k })
        rw [e] at h
        cases h
        exact ⟨_, _, _, rfl, .inr ⟨hb, u, e, rfl⟩⟩
      · next hb => cases h; exact ⟨_, _, _, rfl, .inl ⟨by simpa using hb, rfl⟩⟩
    | fileChange f b => cases h; exact .inr (.inr (.inr (.inr ⟨f, b, l, rfl, rfl⟩)))

/-- A session with fin = fout is bound to no file (R261, R269 (g)), so a change of any file while it runs is no race. -/
theorem changeFile_aliased {s : State} {i : Instr} (h : isSession i = true) (ha : s.latch.arg0 = s.latch.arg1)
    (hd : decodeFields s.latchedFields = .ok i) (f : FileId) (bytes : List Byte) :
    changeFile f bytes s = { s with files := s.files.update f bytes } := by
  have bound : boundFiles i s = [] := by
    cases i <;> first | exact if_pos ha | cases h
  unfold changeFile boundNow
  simp [hd, bound]

end Sys2Proof.Laws
end

