-- ==== Sys2Proof/Laws/Follow.lean ====
section
/-! SUPPORT. Two runs of the same computation from states that differ only in the host's registers, what is to come and
the oracle: where the first run raises nothing the second does the same (spec/20_memory.md rules R106, R121). -/

namespace Sys2Proof.Laws

open Sys2Proof.Machine

variable {α β : Type}

/-- s' is s but for the host's registers, the inputs, the response and the oracle, the two oracles being related. -/
def Alike (P : IoOracle → IoOracle → Prop) (s s' : State) : Prop :=
  ∃ o a b c d l r, s' = { s with
    io := o, arg0 := a, arg1 := b, stop := c, dataIn := d, inputs := l, response := r } ∧ P s.io o

/-- The second result follows the first: it is the same where the first is no error, and also where it is one if
`strict`. -/
def FollowsAt (P : IoOracle → IoOracle → Prop) (strict : Prop) (x y : EStateM.Result ErrCode State α) : Prop :=
  match x with
  | .ok a t => ∃ u, y = .ok a u ∧ Alike P t u
  | .error e t => strict → ∃ u, y = .error e u ∧ Alike P t u

/-- A computation whose runs from related states follow each other. -/
def Follows (P : IoOracle → IoOracle → Prop) (strict : Prop) (m : Cmd α) : Prop :=
  ∀ s s', Alike P s s' → FollowsAt P strict (m s) (m s')

/-- What the two oracles must have in common. -/
structure OraclesAgree (P : IoOracle → IoOracle → Prop) (strict : Prop) : Prop where
  done : ∀ o o', P o o' → o.next.1 = .done → o'.next.1 = .done ∧ P o.next.2 o'.next.2
  same : strict → ∀ o o', P o o' → o'.next.1 = o.next.1 ∧ P o.next.2 o'.next.2

/-- The same oracle agrees with itself, errors included. -/
theorem agree_eq : OraclesAgree (fun o o' => o' = o) True :=
  ⟨fun _ _ h d => by subst h; exact ⟨d, rfl⟩, fun _ _ _ h => by subst h; exact ⟨rfl, rfl⟩⟩

/-- An oracle that fails no request agrees with any other as long as that other fails none. -/
theorem agree_neverFails : OraclesAgree (fun _ o' => o'.neverFails) False :=
  ⟨fun _ _ h _ => neverFails_next h, fun h => h.elim⟩

variable {P : IoOracle → IoOracle → Prop} {strict : Prop}

theorem followsAt_bind {m m' : Cmd α} {f f' : α → Cmd β} {s s' : State} (h : FollowsAt P strict (m s) (m' s'))
    (hf : ∀ a t t', Alike P t t' → FollowsAt P strict (f a t) (f' a t')) :
    FollowsAt P strict ((m >>= f) s) ((m' >>= f') s') := by
  rw [bind_apply, bind_apply]
  cases e : m s with
  | ok a t =>
    rw [e] at h
    obtain ⟨u, e', k⟩ := h
    rw [e']
    exact hf a t u k
  | error x t =>
    rw [e] at h
    intro st
    obtain ⟨u, e', k⟩ := h st
    rw [e']
    exact ⟨u, rfl, k⟩

theorem follows_bind {m : Cmd α} {f : α → Cmd β} (h : Follows P strict m) (hf : ∀ a, Follows P strict (f a)) :
    Follows P strict (m >>= f) :=
  fun s s' a => followsAt_bind (h s s' a) fun b t t' k => hf b t t' k

/-- A computation that first looks at the state: `do let s ← get; f s`. -/
theorem follows_get_bind {f : State → Cmd β}
    (h : ∀ s s', Alike P s s' → FollowsAt P strict (f s s) (f s' s')) : Follows P strict (get >>= f) :=
  fun s s' a => h s s' a

theorem follows_pure (a : α) : Follows P strict (pure a : Cmd α) := fun _ s' h => ⟨s', rfl, h⟩

theorem follows_throw (e : ErrCode) : Follows P strict (throw e : Cmd α) := fun _ s' h _ => ⟨s', rfl, h⟩

theorem follows_modify {f : State → State} (h : ∀ s s', Alike P s s' → Alike P (f s) (f s')) :
    Follows P strict (modify f : Cmd PUnit) :=
  fun s s' a => ⟨_, rfl, h s s' a⟩

theorem follows_ite {c : Prop} [Decidable c] {m m' : Cmd α} (h : Follows P strict m) (h' : Follows P strict m') :
    Follows P strict (if c then m else m') := by
  split
  · exact h
  · exact h'

theorem follows_setSlot {i : SlotId} {s s' : State} (h : Alike P s s') (x : Slot) :
    Alike P (s.setSlot i x) (s'.setSlot i x) := by
  obtain ⟨o, a, b, c, d, l, r, rfl, p⟩ := h
  exact ⟨o, a, b, c, d, l, r, by cases i <;> rfl, by cases i <;> exact p⟩

theorem alike_slot {s s' : State} (h : Alike P s s') (i : SlotId) : s'.slot i = s.slot i := by
  obtain ⟨o, a, b, c, d, l, r, rfl, p⟩ := h
  cases i <;> rfl

theorem alike_files {s s' : State} (h : Alike P s s') : s'.files = s.files := by
  obtain ⟨o, a, b, c, d, l, r, rfl, p⟩ := h
  rfl

theorem alike_taken {s s' : State} (h : Alike P s s') : s'.taken = s.taken := by
  obtain ⟨o, a, b, c, d, l, r, rfl, p⟩ := h
  rfl

theorem follows_getSlot (i : SlotId) : Follows P strict (getSlot i) := fun s s' h =>
  ⟨s', by rw [getSlot_apply, alike_slot h i], h⟩

theorem follows_putSlot (i : SlotId) (x : Slot) : Follows P strict (putSlot i x) := fun _ _ h =>
  ⟨_, rfl, follows_setSlot h x⟩

/-- A change of one slot by a function of that slot. -/
theorem follows_changeSlot (i : SlotId) (f : Slot → Slot) :
    Follows P strict (modify fun s => s.setSlot i (f (s.slot i)) : Cmd PUnit) :=
  follows_modify fun _ _ h => by rw [alike_slot h i]; exact follows_setSlot h _

theorem follows_ask (A : OraclesAgree P strict) : ∀ s s', Alike P s s' →
    (s.io.next.1 = .done → s'.io.next.1 = .done ∧ Alike P { s with io := s.io.next.2 } { s' with io := s'.io.next.2 }) ∧
    (strict → s'.io.next.1 = s.io.next.1 ∧ Alike P { s with io := s.io.next.2 } { s' with io := s'.io.next.2 }) := by
  rintro s _ ⟨o, a, b, c, d, l, r, rfl, p⟩
  refine ⟨fun h => ?_, fun st => ?_⟩
  · obtain ⟨h1, h2⟩ := A.done _ _ p h
    exact ⟨h1, o.next.2, a, b, c, d, l, r, rfl, h2⟩
  · obtain ⟨h1, h2⟩ := A.same st _ _ p
    exact ⟨h1, o.next.2, a, b, c, d, l, r, rfl, h2⟩

theorem follows_mutate (A : OraclesAgree P strict) (f : FileId) (change : Memory → Memory) :
    Follows P strict (mutate f change) := by
  intro s s' h
  obtain ⟨hd, hs⟩ := follows_ask A s s' h
  rcases mutate_cases f change s with ⟨k, e⟩ | ⟨k, e⟩ | ⟨k, e⟩ <;> rw [e]
  · obtain ⟨k', o, a, b, c, d, l, r, e', p⟩ := hd k
    rw [mutate_done k']
    refine ⟨_, rfl, o, a, b, c, d, l, r, ?_, p⟩
    rw [← alike_files h]
    have := congrArg (fun t : State => { t with files := change s'.files }) e'
    exact this
  · intro st
    obtain ⟨k', o, a, b, c, d, l, r, e', p⟩ := hs st
    rw [k] at k'
    rcases mutate_cases f change s' with ⟨j, -⟩ | ⟨j, e2⟩ | ⟨j, -⟩
    · rw [k'] at j; cases j
    · refine ⟨_, e2, o, a, b, c, d, l, r, ?_, p⟩
      have ht := alike_taken h
      rw [← alike_files h, ← ht]
      exact congrArg (fun t : State => { t with
        files := s'.files.update f (Config.unspecifiedBytes s'.taken), taken := s'.taken + 1 }) e'
    · rw [k'] at j; cases j
  · intro st
    obtain ⟨k', al⟩ := hs st
    rw [k] at k'
    rcases mutate_cases f change s' with ⟨j, -⟩ | ⟨j, -⟩ | ⟨j, e2⟩
    · rw [k'] at j; cases j
    · rw [k'] at j; cases j
    · exact ⟨_, e2, al⟩

theorem follows_stRead (A : OraclesAgree P strict) (f : FileId) (off max : Nat) :
    Follows P strict (stRead f off max) := by
  intro s s' h
  obtain ⟨hd, hs⟩ := follows_ask A s s' h
  rcases stRead_cases f off max s with ⟨k, e⟩ | ⟨k, e⟩ <;> rw [e]
  · obtain ⟨k', al⟩ := hd k
    rcases stRead_cases f off max s' with ⟨-, e'⟩ | ⟨j, -⟩
    · exact ⟨_, by rw [e', alike_files h], al⟩
    · exact absurd k' j
  · intro st
    obtain ⟨k', al⟩ := hs st
    rcases stRead_cases f off max s' with ⟨j, -⟩ | ⟨-, e'⟩
    · exact absurd (k' ▸ j) k
    · exact ⟨_, e', al⟩

theorem follows_stOpenRead (A : OraclesAgree P strict) (f : FileId) : Follows P strict (stOpenRead f) := by
  intro s s' h
  obtain ⟨hd, hs⟩ := follows_ask A s s' h
  rcases stOpenRead_cases f s with ⟨⟨k1, k2⟩, e⟩ | ⟨k, e⟩ <;> rw [e]
  · obtain ⟨k', al⟩ := hd k2
    rcases stOpenRead_cases f s' with ⟨-, e'⟩ | ⟨j, -⟩
    · exact ⟨_, e', al⟩
    · exact absurd ⟨by rw [alike_files h]; exact k1, k'⟩ j
  · intro st
    obtain ⟨k', al⟩ := hs st
    rcases stOpenRead_cases f s' with ⟨j, -⟩ | ⟨-, e'⟩
    · exact absurd ⟨by rw [← alike_files h]; exact j.1, k' ▸ j.2⟩ k
    · exact ⟨_, e', al⟩

theorem follows_stOpenWrite (A : OraclesAgree P strict) (f : FileId) : Follows P strict (stOpenWrite f) := by
  intro s s' h
  obtain ⟨hd, hs⟩ := follows_ask A s s' h
  rcases stOpenWrite_cases f s with ⟨k, e⟩ | ⟨k, e⟩ <;> rw [e]
  · obtain ⟨k', o, a, b, c, d, l, r, e2, p⟩ := hd k
    rcases stOpenWrite_cases f s' with ⟨-, e'⟩ | ⟨j, -⟩
    · refine ⟨_, e', o, a, b, c, d, l, r, ?_, p⟩
      rw [← alike_files h]
      exact congrArg (fun t : State => { t with files := s'.files.create f }) e2
    · exact absurd k' j
  · intro st
    obtain ⟨k', al⟩ := hs st
    rcases stOpenWrite_cases f s' with ⟨j, -⟩ | ⟨-, e'⟩
    · exact absurd (k' ▸ j) k
    · exact ⟨_, e', al⟩

theorem follows_openSlot (A : OraclesAgree P strict) (i : SlotId) (d : Dir) (f : FileId) :
    Follows P strict (openSlot i d f) := by
  unfold openSlot State.closeSlot
  refine follows_bind (follows_changeSlot i fun _ => Slot.reset) fun _ => ?_
  cases d with
  | read => exact follows_bind (follows_stOpenRead A f) fun _ => follows_putSlot i _
  | write => exact follows_bind (follows_stOpenWrite A f) fun _ => follows_putSlot i _

theorem follows_refill (A : OraclesAgree P strict) (i : SlotId) : Follows P strict (refill i) :=
  follows_bind (follows_getSlot i) fun _ => follows_bind (follows_stRead A _ _ _) fun _ => follows_putSlot i _

theorem follows_take (i : SlotId) (out : BitSeq) (n : Nat) : Follows P strict (take i out n) := by
  intro s s' h
  rw [take_apply, take_apply, alike_slot h i]
  exact ⟨_, rfl, follows_setSlot h _⟩

theorem follows_readMore (A : OraclesAgree P strict) (i : SlotId) (n : Nat) :
    ∀ (k : Nat) (out : BitSeq), Follows P strict (readMore k i out n)
  | 0, out => follows_pure out
  | k + 1, out => by
    unfold readMore
    refine follows_ite (follows_bind (follows_refill A i) fun _ => follows_bind (follows_getSlot i) fun x => ?_)
      (follows_pure out)
    exact follows_ite (follows_pure out) (follows_bind (follows_take i out n) fun o => follows_readMore A i n k o)

theorem follows_readBits (A : OraclesAgree P strict) (i : SlotId) (n : Nat) : Follows P strict (readBits i n) := by
  have c : Follows P strict (readChunks i n) :=
    follows_bind (follows_take i [] n) fun out => follows_readMore A i n n out
  unfold readBits
  refine follows_bind (follows_getSlot i) fun x => follows_ite ?_ c
  exact follows_bind (follows_refill A i) fun _ => follows_bind (follows_getSlot i) fun y =>
    follows_ite (follows_pure []) c

theorem follows_flushSlot (A : OraclesAgree P strict) (i : SlotId) : Follows P strict (flushSlot i) := by
  unfold flushSlot
  refine follows_bind (follows_getSlot i) fun x => ?_
  have sync : Follows P strict (do
      stSync x.file
      putSlot i (x.flushed (pack x.acc).length)) :=
    follows_bind (follows_mutate A x.file _) fun _ => follows_putSlot i _
  simp only
  split
  · exact follows_bind (follows_mutate A x.file _) fun _ => sync
  · exact sync

theorem follows_truncateSlot (A : OraclesAgree P strict) (i : SlotId) : Follows P strict (truncateSlot i) :=
  follows_bind (follows_getSlot i) fun _ => follows_bind (follows_mutate A _ _) fun _ => follows_putSlot i _

theorem follows_appendBits (i : SlotId) (b : BitSeq) : Follows P strict (appendBits i b) :=
  follows_changeSlot i fun x => x.append b

theorem follows_rewindSlot (i : SlotId) : Follows P strict (rewindSlot i) := follows_changeSlot i Slot.rewound

theorem follows_checkSlot (i : SlotId) (m : Mode) : Follows P strict (checkSlot i m) :=
  follows_bind (follows_getSlot i) fun _ =>
    follows_ite (follows_throw _) (follows_ite (follows_throw _) (follows_pure _))

theorem follows_encSetup (A : OraclesAgree P strict) : Follows P strict encSetup := by
  unfold encSetup
  refine follows_bind (follows_modify fun s s' h => follows_setSlot (follows_setSlot h _) _) fun _ => ?_
  refine follows_get_bind ?_
  rintro s _ ⟨o, a, b, c, d, l, r, rfl, p⟩
  refine (follows_ite (follows_throw _) (follows_bind (follows_openSlot A _ _ _) fun _ =>
    follows_bind (follows_truncateSlot A _) fun _ => follows_openSlot A _ _ _) :
      Follows P strict (if s.operandFile = s.operandOutFile then throw .aliased
        else do
          openSlot .s1 .write s.operandOutFile
          truncateSlot .s1
          openSlot .s0 .read s.operandFile)) s _ ⟨o, a, b, c, d, l, r, rfl, p⟩

theorem follows_eachByte (A : OraclesAgree P strict) {act : Byte → Cmd Unit} (h : ∀ v, Follows P strict (act v)) :
    ∀ k, Follows P strict (eachByte act k)
  | 0 => follows_pure ()
  | k + 1 => by
    unfold eachByte
    refine follows_bind (follows_readBits A _ _) fun x => follows_ite (follows_pure ()) ?_
    exact follows_bind (h _) fun _ => follows_eachByte A h k

theorem follows_countByte (v : Byte) : Follows P strict (countByte v) := by
  rintro s _ ⟨o, a, b, c, d, l, r, rfl, p⟩
  rcases countByte_cases v s with ⟨h, e⟩ | ⟨h, e⟩ <;> rw [e]
  · rcases countByte_cases v { s with
      io := o, arg0 := a, arg1 := b, stop := c, dataIn := d, inputs := l, response := r } with ⟨-, e'⟩ | ⟨h', -⟩
    · exact fun _ => ⟨_, e', o, a, b, c, d, l, r, rfl, p⟩
    · exact absurd h h'
  · rcases countByte_cases v { s with
      io := o, arg0 := a, arg1 := b, stop := c, dataIn := d, inputs := l, response := r } with ⟨h', -⟩ | ⟨-, e'⟩
    · exact absurd h' h
    · exact ⟨_, e', o, a, b, c, d, l, r, rfl, p⟩

theorem follows_countFrequencies (A : OraclesAgree P strict) : Follows P strict countFrequencies := by
  unfold countFrequencies
  refine follows_bind (follows_modify ?_) fun _ => follows_get_bind ?_
  · rintro s _ ⟨o, a, b, c, d, l, r, rfl, p⟩
    exact ⟨o, a, b, c, d, l, r, rfl, p⟩
  · rintro s _ ⟨o, a, b, c, d, l, r, rfl, p⟩
    exact (follows_bind (follows_eachByte A follows_countByte s.loopBound) fun _ => follows_rewindSlot .s0) s _
      ⟨o, a, b, c, d, l, r, rfl, p⟩

theorem follows_build {f : State → State}
    (h : ∀ s o a b c d l r, f { s with
      io := o, arg0 := a, arg1 := b, stop := c, dataIn := d, inputs := l, response := r } =
      { f s with io := o, arg0 := a, arg1 := b, stop := c, dataIn := d, inputs := l, response := r })
    (k : ∀ s, (f s).io = s.io) : Follows P strict (modify f : Cmd PUnit) :=
  follows_modify <| by
    rintro s s' ⟨o, a, b, c, d, l, r, rfl, p⟩
    exact ⟨o, a, b, c, d, l, r, h s o a b c d l r, by rw [k s]; exact p⟩

theorem follows_buildTree : Follows P strict buildTree :=
  follows_build (fun _ _ _ _ _ _ _ _ => by simp only [State.buildTree]) fun s => buildTree_io s

theorem follows_buildAndDerive : Follows P strict buildAndDerive :=
  follows_bind follows_buildTree fun _ =>
    follows_build (fun _ _ _ _ _ _ _ _ => by simp only [State.deriveCodes]) fun s => deriveCodes_io s

theorem follows_writeCounts : ∀ vs : List Byte, Follows P strict (writeCounts vs)
  | [] => follows_pure ()
  | v :: vs => by
    unfold writeCounts
    refine follows_get_bind ?_
    rintro s _ ⟨o, a, b, c, d, l, r, rfl, p⟩
    exact (follows_bind (follows_appendBits .s1 (unpack (le32 (freqOf s.freq v)) 32))
      fun _ => follows_writeCounts vs) s _ ⟨o, a, b, c, d, l, r, rfl, p⟩

theorem follows_mapByte (v : Byte) : Follows P strict (mapByte v) := by
  unfold mapByte
  refine follows_get_bind ?_
  rintro s _ ⟨o, a, b, c, d, l, r, rfl, p⟩
  exact (follows_ite (follows_throw _) (follows_appendBits .s1 (s.codeOf v)) :
    Follows P strict (if entry s.codeLen v.toNat 0 = 0 then throw .protocol
      else appendBits .s1 (s.codeOf v))) s _ ⟨o, a, b, c, d, l, r, rfl, p⟩

theorem follows_encodeBody (A : OraclesAgree P strict) : Follows P strict encodeBody := by
  unfold encodeBody
  refine follows_get_bind ?_
  rintro s _ ⟨o, a, b, c, d, l, r, rfl, p⟩
  exact (follows_eachByte A follows_mapByte s.loopBound) s _ ⟨o, a, b, c, d, l, r, rfl, p⟩

theorem follows_readHeader (A : OraclesAgree P strict) : Follows P strict readHeader := by
  unfold readHeader
  refine follows_bind (follows_readBits A _ _) fun x => follows_ite (follows_throw _) (follows_modify ?_)
  rintro s _ ⟨o, a, b, c, d, l, r, rfl, p⟩
  exact ⟨o, a, b, c, d, l, r, rfl, p⟩

theorem follows_emit (v : Byte) : Follows P strict (emit v) := by
  unfold emit
  refine follows_bind (follows_appendBits _ _) fun _ => follows_modify ?_
  rintro s _ ⟨o, a, b, c, d, l, r, rfl, p⟩
  exact ⟨o, a, b, c, d, l, r, rfl, p⟩

theorem follows_walkBit (x : Bool) : Follows P strict (walkBit x) := by
  rintro s _ ⟨o, a, b, c, d, l, r, rfl, p⟩
  unfold walkBit
  simp only [bind_apply, get_apply, ite_apply, throw_apply, set_apply, pure_apply, emit_apply, modify_apply]
  split
  · exact fun _ => ⟨_, rfl, o, a, b, c, d, l, r, rfl, p⟩
  · split
    · exact ⟨_, rfl, o, a, b, c, d, l, r, rfl, p⟩
    · split
      · exact ⟨_, rfl, o, a, b, c, d, l, r, rfl, p⟩
      · exact ⟨_, rfl, o, a, b, c, d, l, r, rfl, p⟩

theorem follows_walkLoop (A : OraclesAgree P strict) : ∀ k, Follows P strict (walkLoop k)
  | 0 => follows_pure ()
  | k + 1 => by
    unfold walkLoop
    refine follows_get_bind ?_
    rintro s _ ⟨o, a, b, c, d, l, r, rfl, p⟩
    have body : Follows P strict (do
        let x ← readBits .s0 1
        match x with
        | [] => pure ()
        | y :: _ => do
          walkBit y
          walkLoop k) := by
      refine follows_bind (follows_readBits A _ _) fun x => ?_
      cases x with
      | nil => exact follows_pure ()
      | cons y ys => exact follows_bind (follows_walkBit y) fun _ => follows_walkLoop A k
    exact (follows_ite (c := s.stopL = .symbolCount ∧ s.emitted = s.total) (follows_pure ()) body) s _
      ⟨o, a, b, c, d, l, r, rfl, p⟩

theorem follows_decodeBody (A : OraclesAgree P strict) : Follows P strict decodeBody := by
  unfold decodeBody
  refine follows_bind (follows_modify ?_) fun _ => follows_get_bind ?_
  · rintro s _ ⟨o, a, b, c, d, l, r, rfl, p⟩
    exact ⟨o, a, b, c, d, l, r, rfl, p⟩
  · rintro s _ ⟨o, a, b, c, d, l, r, rfl, p⟩
    exact (follows_walkLoop A s.loopBound) s _ ⟨o, a, b, c, d, l, r, rfl, p⟩

end Sys2Proof.Laws
end

