-- ==== Sys2Proof/Laws/Cut.lean ====
section
/-! SUPPORT. What a command leaves in storage when its oracle is cut after some requests, as a reset during it does
(spec/70_reset_and_hazards.md rule R362). -/

namespace Sys2Proof.Laws

open Sys2Proof.Machine

/-! ## Oracles that are cut -/

/-- No request to come fails leaving its file unspecified. -/
def NoSpoil (o : IoOracle) : Prop := ∀ k, (o.skip k).next.1 ≠ .failed

theorem noSpoil_next {o : IoOracle} (h : NoSpoil o) : o.next.1 ≠ .failed ∧ NoSpoil o.next.2 :=
  ⟨h 0, fun k => h (k + 1)⟩

theorem notReached_skip (j n : Nat) :
    ((IoOracle.skip j { planned := [], rest := some .notReached, asked := n }).next).1 = .notReached := by
  induction j generalizing n with
  | zero => rfl
  | succ j ih => exact ih (n + 1)

theorem noSpoil_answers (k : Nat) (o : IoOracle) (n : Nat) (h : o.neverFails) :
    NoSpoil { planned := o.answers k, rest := some .notReached, asked := n } := by
  induction k generalizing o n with
  | zero => intro j; show ((IoOracle.skip j { planned := [], rest := some .notReached, asked := n }).next).1 ≠ _
            rw [notReached_skip]; decide
  | succ k ih =>
    intro j
    obtain ⟨h1, h2⟩ := neverFails_next h
    cases j with
    | zero => show o.next.1 ≠ _; rw [h1]; decide
    | succ j => exact ih o.next.2 (n + 1) h2 j

/-- An oracle that fails no request, cut after k requests. -/
theorem noSpoil_cut (k : Nat) (o : IoOracle) (h : o.neverFails) : NoSpoil (o.cutAfter k) := noSpoil_answers k o _ h

theorem NoSpoil.of_neverFails {o : IoOracle} (h : o.neverFails) : NoSpoil o := fun k => by rw [h k]; decide

theorem cutAfter_zero (o : IoOracle) : (o.cutAfter 0).next.1 = .notReached := rfl

theorem cutAfter_succ {k : Nat} (o : IoOracle) (h : k ≠ 0) : (o.cutAfter k).next.1 = o.next.1 := by
  cases k with
  | zero => exact absurd rfl h
  | succ k => rfl

/-! ## One request -/

/-- A request that changes f, where it does not spoil f: performed or not. -/
theorem mutate_after {f : FileId} {c : Memory → Memory} {s : State} (h : s.io.next.1 ≠ .failed) :
    (after (mutate f c) s).files = if s.io.next.1 = .done then c s.files else s.files := by
  unfold after
  rcases mutate_cases f c s with ⟨e, e'⟩ | ⟨e, -⟩ | ⟨e, e'⟩
  · rw [e', if_pos e]
  · exact absurd e h
  · rw [e', if_neg (by rw [e]; decide)]

/-- A flush, where no request spoils the file: its write has been performed or not (R167). -/
theorem flushSlot_after {i : SlotId} {s : State} (h : NoSpoil s.io) :
    (after (flushSlot i) s).files = if s.io.next.1 = .done then flushedFiles (s.slot i) s.files else s.files := by
  obtain ⟨n1, h'⟩ := noSpoil_next h
  obtain ⟨n2, -⟩ := noSpoil_next h'
  unfold after flushSlot stWrite stSync flushedFiles
  rw [bind_apply, getSlot_apply]
  simp only
  by_cases h0 : (pack (s.slot i).acc).length > 0
  · simp only [if_pos h0]
    rw [bind_apply]
    rcases mutate_cases (s.slot i).file (fun m => m.update (s.slot i).file (splice (m.contents (s.slot i).file)
        (s.slot i).wpos.toNat (pack (s.slot i).acc))) s with ⟨d, e⟩ | ⟨d, -⟩ | ⟨d, e⟩
    · rw [e, if_pos d]
      simp only [bind_apply]
      rcases mutate_cases (s.slot i).file (fun m => m) { s with
          io := s.io.next.2
          files := s.files.update (s.slot i).file (splice (s.files.contents (s.slot i).file)
            (s.slot i).wpos.toNat (pack (s.slot i).acc)) } with ⟨-, e⟩ | ⟨d, -⟩ | ⟨-, e⟩
      · rw [e]; simp only [putSlot_apply, setSlot_files]
      · exact absurd d n2
      · rw [e]
    · exact absurd d n1
    · rw [e, if_neg (by rw [d]; decide)]
  · simp only [if_neg h0]
    rw [bind_apply]
    rcases mutate_cases (s.slot i).file (fun m => m) s with ⟨d, e⟩ | ⟨d, -⟩ | ⟨d, e⟩
    · rw [e, if_pos d]; simp only [putSlot_apply, setSlot_files]
    · exact absurd d n1
    · rw [e, if_neg (by rw [d]; decide)]

theorem truncateSlot_after {i : SlotId} {s : State} (h : s.io.next.1 ≠ .failed) :
    (after (truncateSlot i) s).files = if s.io.next.1 = .done then s.files.update (s.slot i).file [] else s.files := by
  unfold after
  rcases truncateSlot_cases i s with ⟨d, e⟩ | ⟨d, -⟩ | ⟨d, e⟩
  · rw [e, if_pos d]; exact setSlot_files _ _ _
  · exact absurd d h
  · rw [e, if_neg (by rw [d]; decide)]

theorem after_ok {m : Cmd Unit} {s t : State} {x : Unit} (h : m s = .ok x t) : after m s = t := by
  unfold after; rw [h]

theorem after_error {m : Cmd Unit} {s t : State} {e : ErrCode} (h : m s = .error e t) : after m s = t := by
  unfold after; rw [h]

theorem runStream_after (m : Cmd Unit) (s : State) : (runStream m s).files = (after m s).files := by
  unfold runStream after
  cases m s <;> rfl

/-! ## Stream commands -/

/-- What a stream command makes of storage where its changing request is performed. -/
def streamFiles (i : Instr) (s : State) : Memory :=
  match i with
  | .bsOpen _ .write => s.files.create s.latch.arg0
  | .bsFlush j => if (s.slot j).mode = .write then flushedFiles (s.slot j) s.files else s.files
  | .bsClear j => if (s.slot j).mode = .write then s.files.update (s.slot j).file [] else s.files
  | .bsOpen _ .read | .bsWrite _ | .bsRead _ | .bsRewind _ | .encodeFile | .decodeFile => s.files

/-- A stream command performs its changing request or not, as the oracle answers its first request. -/
theorem stream_files {i : Instr} {s t : State} (hi : isSession i = false) (ns : NoSpoil s.io)
    (h : exec i s = .next t) : t.files = if s.io.next.1 = .done then streamFiles i s else s.files := by
  cases i with
  | bsOpen j d =>
    cases h
    show (runStream (bsOpenBody j d) s).files = _
    rw [runStream_after]
    unfold after bsOpenBody
    rw [bind_apply, get_apply]
    simp only
    rcases openSlot_cases j d s.operandFile s with ⟨m, h1, h2, h3, e⟩ | ⟨h, e⟩
    · rw [e, if_pos h1]
      cases d with
      | read => exact (h2 rfl).2
      | write => exact h3 rfl
    · rw [e]
      show (s.setSlot j Slot.reset).files = _
      rw [setSlot_files]
      rcases h with h | ⟨rfl, -⟩
      · rw [if_neg h]
      · split <;> rfl
  | bsWrite j =>
    obtain ⟨e, x, h', -⟩ := bsWrite_ends j s
    rw [h] at h'; cases h'
    show (s.setSlot j x).files = _
    rw [setSlot_files]; split <;> rfl
  | bsRewind j =>
    obtain ⟨e, x, h', -⟩ := bsRewind_ends j s
    rw [h] at h'; cases h'
    show (s.setSlot j x).files = _
    rw [setSlot_files]; split <;> rfl
  | bsRead j =>
    obtain ⟨e, x, o, r, d, h', -⟩ := bsRead_ends j s
    rw [h] at h'; cases h'
    show (State.setSlot _ j x).files = _
    rw [setSlot_files]; split <;> rfl
  | bsFlush j =>
    rw [bsFlush_run] at h
    cases h
    show _ = if s.io.next.1 = .done then (if (s.slot j).mode = .write then flushedFiles (s.slot j) s.files else s.files)
      else s.files
    by_cases c : (s.slot j).mode = .closed
    · rw [if_pos c, if_neg (show ¬(s.slot j).mode = .write by rw [c]; decide)]; split <;> rfl
    · rw [if_neg c]
      by_cases w : (s.slot j).mode = .write
      · rw [if_pos w, if_pos w, runStream_after, flushSlot_after ns]
      · rw [if_neg w, if_neg w]; split <;> rfl
  | bsClear j =>
    rw [bsClear_run] at h
    cases h
    show _ = if s.io.next.1 = .done then (if (s.slot j).mode = .write then s.files.update (s.slot j).file [] else s.files)
      else s.files
    by_cases c : (s.slot j).mode = .closed
    · rw [if_pos c, if_neg (show ¬(s.slot j).mode = .write by rw [c]; decide)]; split <;> rfl
    · rw [if_neg c]
      by_cases w : (s.slot j).mode = .write
      · rw [if_pos w, if_pos w, runStream_after, truncateSlot_after (noSpoil_next ns).1]
      · rw [if_neg w, if_neg w]; split <;> rfl
  | encodeFile => cases hi
  | decodeFile => cases hi

/-- A session whose first request is not reached changes no file. -/
theorem encSetup_notReached {s : State} (h : s.io.next.1 = .notReached) :
    ∃ e t, encSetup s = .error e t ∧ t.files = s.files := by
  unfold encSetup
  simp only [bind_apply, modify_apply, get_apply]
  rw [Sys2Proof.Laws.ite_apply]
  split
  · exact ⟨_, _, rfl, rfl⟩
  · rcases openSlot_cases .s1 .write ((s.closeSlot .s0).closeSlot .s1).operandOutFile ((s.closeSlot .s0).closeSlot .s1)
      with ⟨m, h1, -⟩ | ⟨-, e⟩
    · exact absurd (h.symm.trans h1) (by decide)
    · simp only [bind_apply, e]
      exact ⟨_, _, rfl, rfl⟩

/-- A command whose first request is not reached changes no file. -/
theorem notReached_files {i : Instr} {s t : State} (ns : NoSpoil s.io) (hn : s.io.next.1 = .notReached)
    (h : exec i s = .next t) : t.files = s.files := by
  by_cases hi : isSession i = false
  · rw [stream_files hi ns h, if_neg (by rw [hn]; decide)]
  · obtain ⟨e, u, he, hf⟩ := encSetup_notReached hn
    cases i with
    | encodeFile =>
      have h := Host.Outcome.next.inj h
      change runSession encodePhases s = t at h
      unfold encodePhases at h
      rw [runSession_error he] at h
      rw [← h]; exact hf
    | decodeFile =>
      have h := Host.Outcome.next.inj h
      change runSession decodePhases s = t at h
      unfold decodePhases at h
      rw [runSession_error he] at h
      rw [← h]; exact hf
    | bsOpen j d => exact absurd rfl hi
    | bsWrite j => exact absurd rfl hi
    | bsFlush j => exact absurd rfl hi
    | bsRead j => exact absurd rfl hi
    | bsRewind j => exact absurd rfl hi
    | bsClear j => exact absurd rfl hi

/-! ## The phases between a session's setup and its flush -/

/-- The storage, the output slot's file and position are the same, and no request to come spoils a file if none did. -/
def KeepsOut (s t : State) : Prop :=
  t.files = s.files ∧ t.slot1.file = s.slot1.file ∧ (NoSpoil s.io → NoSpoil t.io) ∧ t.slot1.wpos = s.slot1.wpos

theorem keepsOut_refl (s : State) : KeepsOut s s := ⟨rfl, rfl, id, rfl⟩

theorem keepsOut_trans : ∀ s t u, KeepsOut s t → KeepsOut t u → KeepsOut s u :=
  fun _ _ _ ⟨a, b, c, d⟩ ⟨a', b', c', d'⟩ => ⟨a'.trans a, b'.trans b, fun h => c' (c h), d'.trans d⟩

theorem refill_keepsOut : Relates KeepsOut (refill .s0) := by
  intro s
  rcases refill_cases .s0 s with ⟨-, e⟩ | ⟨-, e⟩ <;> unfold after <;> rw [e] <;> exact ⟨rfl, rfl, fun h => (noSpoil_next h).2, rfl⟩

theorem take_keepsOut (o n) : Relates KeepsOut (take .s0 o n) := by
  intro s; unfold after; rw [take_apply]; exact ⟨rfl, rfl, id, rfl⟩

theorem getSlot_keepsOut (j) : Relates KeepsOut (getSlot j) := fun s => keepsOut_refl s

theorem readMore_keepsOut (size : Nat) : ∀ (k : Nat) (out : BitSeq), Relates KeepsOut (readMore k .s0 out size)
  | 0, out => relates_pure keepsOut_refl out
  | k + 1, out => by
    unfold readMore
    refine relates_ite ?_ (relates_pure keepsOut_refl out)
    refine relates_bind keepsOut_trans refill_keepsOut fun _ => ?_
    refine relates_bind keepsOut_trans (getSlot_keepsOut _) fun x => ?_
    refine relates_ite (relates_pure keepsOut_refl out) ?_
    exact relates_bind keepsOut_trans (take_keepsOut out size) fun out' => readMore_keepsOut size k out'

theorem readBits_keepsOut (size : Nat) : Relates KeepsOut (readBits .s0 size) := by
  unfold readBits
  refine relates_bind keepsOut_trans (getSlot_keepsOut _) fun x => ?_
  have c : Relates KeepsOut (readChunks .s0 size) := relates_bind keepsOut_trans (take_keepsOut [] size) fun out => readMore_keepsOut size size out
  refine relates_ite ?_ c
  refine relates_bind keepsOut_trans refill_keepsOut fun _ => ?_
  refine relates_bind keepsOut_trans (getSlot_keepsOut _) fun y => ?_
  exact relates_ite (relates_pure keepsOut_refl []) c

theorem eachByte_keepsOut {act : Byte → Cmd Unit} (h : ∀ v, Relates KeepsOut (act v)) : ∀ k, Relates KeepsOut (eachByte act k)
  | 0 => relates_pure keepsOut_refl ()
  | k + 1 => by
    unfold eachByte
    refine relates_bind keepsOut_trans (readBits_keepsOut 8) fun x => ?_
    refine relates_ite (relates_pure keepsOut_refl ()) ?_
    exact relates_bind keepsOut_trans (h _) fun _ => eachByte_keepsOut h k

theorem appendBits_keepsOut (b) : Relates KeepsOut (appendBits .s1 b) := fun _ => ⟨rfl, rfl, id, rfl⟩

theorem countFrequencies_keepsOut : Relates KeepsOut countFrequencies := by
  unfold countFrequencies
  refine relates_bind keepsOut_trans (relates_modify fun s => ⟨rfl, rfl, id, rfl⟩) fun _ => ?_
  refine relates_bind keepsOut_trans (relates_get keepsOut_refl) fun s => ?_
  refine relates_bind keepsOut_trans (eachByte_keepsOut (fun v => ?_) _) fun _ => fun s => ⟨rfl, rfl, id, rfl⟩
  intro s
  rcases countByte_cases v s with ⟨-, e⟩ | ⟨-, e⟩ <;> unfold after <;> rw [e] <;> exact ⟨rfl, rfl, id, rfl⟩

theorem buildTree_keepsOut : Relates KeepsOut buildTree := relates_modify fun s => ⟨by simp, by simp, by simp, by simp⟩

theorem buildAndDerive_keepsOut : Relates KeepsOut buildAndDerive := relates_bind keepsOut_trans buildTree_keepsOut fun _ => relates_modify fun s => ⟨by simp, by simp, by simp, by simp⟩

theorem writeCounts_keepsOut : ∀ vs, Relates KeepsOut (writeCounts vs)
  | [] => relates_pure keepsOut_refl ()
  | v :: vs => by
    unfold writeCounts
    refine relates_bind keepsOut_trans (relates_get keepsOut_refl) fun s => ?_
    exact relates_bind keepsOut_trans (appendBits_keepsOut _) fun _ => writeCounts_keepsOut vs

theorem encodeBody_keepsOut : Relates KeepsOut encodeBody := by
  unfold encodeBody
  refine relates_bind keepsOut_trans (relates_get keepsOut_refl) fun s => eachByte_keepsOut (fun v => ?_) _
  intro s
  rcases mapByte_cases v s with ⟨-, e⟩ | ⟨-, e⟩ <;> unfold after <;> rw [e] <;> exact ⟨rfl, rfl, id, rfl⟩

theorem readHeader_keepsOut : Relates KeepsOut readHeader := by
  unfold readHeader
  refine relates_bind keepsOut_trans (readBits_keepsOut _) fun x => ?_
  exact relates_ite (relates_throw keepsOut_refl _) (relates_modify fun s => ⟨rfl, rfl, id, rfl⟩)

theorem walkBit_keepsOut (b) : Relates KeepsOut (walkBit b) := by
  intro s
  unfold walkBit after
  simp only [bind_apply, get_apply, Sys2Proof.Laws.ite_apply, throw_apply, set_apply, pure_apply, emit_apply, modify_apply]
  split_ifs <;> exact ⟨rfl, rfl, id, rfl⟩

theorem walkLoop_keepsOut : ∀ k, Relates KeepsOut (walkLoop k)
  | 0 => relates_pure keepsOut_refl ()
  | k + 1 => by
    unfold walkLoop
    refine relates_bind keepsOut_trans (relates_get keepsOut_refl) fun s => ?_
    refine relates_ite (relates_pure keepsOut_refl ()) ?_
    refine relates_bind keepsOut_trans (readBits_keepsOut _) fun x => ?_
    cases x with
    | nil => exact relates_pure keepsOut_refl ()
    | cons b l => exact relates_bind keepsOut_trans (walkBit_keepsOut b) fun _ => walkLoop_keepsOut k

theorem decodeBody_keepsOut : Relates KeepsOut decodeBody := by
  unfold decodeBody
  refine relates_bind keepsOut_trans (relates_modify fun s => ⟨rfl, rfl, id, rfl⟩) fun _ => ?_
  exact relates_bind keepsOut_trans (relates_get keepsOut_refl) fun s => walkLoop_keepsOut _

/-! ## Whole sessions -/

/-- The setup of a session where no request spoils a file: the output is opened and empty, or the setup ended with the output
as it was or empty. -/
theorem setup_cut (s : State) (ns : NoSpoil s.io) : 
   (∃ t, encSetup s = .ok () t ∧ t.files.lookup s.latch.arg1 = some [] ∧ t.slot1.file = s.latch.arg1 ∧ t.slot1.wpos = 0 ∧ NoSpoil t.io) ∨
   (∃ e t, encSetup s = .error e t ∧ (t.files.lookup s.latch.arg1 = s.files.lookup s.latch.arg1 ∨ t.files.lookup s.latch.arg1 = some [])) := by
  unfold encSetup
  simp only [bind_apply, modify_apply, get_apply]
  rw [Sys2Proof.Laws.ite_apply]
  split
  · exact .inr ⟨_, _, rfl, .inl rfl⟩
  · obtain ⟨n1, ns1⟩ := noSpoil_next ns
    obtain ⟨n2, ns2⟩ := noSpoil_next ns1
    obtain ⟨n3, ns3⟩ := noSpoil_next ns2
    rw [show ((s.closeSlot .s0).closeSlot .s1).operandOutFile = s.latch.arg1 from rfl, show ((s.closeSlot .s0).closeSlot .s1).operandFile = s.latch.arg0 from rfl]
    simp only [bind_apply]
    rcases openSlot_cases .s1 .write s.latch.arg1 ((s.closeSlot .s0).closeSlot .s1) with ⟨m, -, -, hm, e⟩ | ⟨h, e⟩
    rotate_left
    · rw [e]; exact .inr ⟨_, _, rfl, .inl rfl⟩
    have hm := hm rfl
    rw [e]
    simp only
    generalize hu : ({ ((s.closeSlot .s0).closeSlot .s1).setSlot .s1 (Slot.opened .write s.latch.arg1) with
      io := ((s.closeSlot .s0).closeSlot .s1).io.next.2
      files := m } : State) = u
    have u1 : (u.slot .s1).file = s.latch.arg1 := by subst hu; rfl
    have u2 : u.io = s.io.next.2 := by subst hu; rfl
    have u3 : u.files.lookup s.latch.arg1 = s.files.lookup s.latch.arg1 ∨ u.files.lookup s.latch.arg1 = some [] := by
      have e3 : u.files = s.files.create s.latch.arg1 := by subst hu; exact hm
      rw [e3]
      unfold Memory.create
      split
      · exact .inl rfl
      · exact .inr (lookup_update_self _ _ _)
    rcases truncateSlot_cases .s1 u with ⟨-, e2⟩ | ⟨h, -⟩ | ⟨h, e2⟩
    · rw [e2]
      simp only
      generalize hv : (({ u with io := u.io.next.2, files := u.files.update (u.slot .s1).file [] } : State).setSlot .s1 { u.slot .s1 with wpos := 0 }) = v
      have v1 : v.files = u.files.update s.latch.arg1 [] := by subst hv; rw [← u1]; rfl
      have v2 : v.slot1.file = s.latch.arg1 := by subst hv; exact u1
      have v3 : v.slot1.wpos = 0 := by subst hv; rfl
      have v4 : v.io = s.io.next.2.next.2 := by subst hv; rw [← u2]; rfl
      rcases openSlot_cases .s0 .read s.latch.arg0 v with ⟨m', -, hh, -, e3⟩ | ⟨-, e3⟩
      · rw [e3]
        have := (hh rfl).2
        refine .inl ⟨_, rfl, ?_, v2, v3, ?_⟩
        · show m'.lookup _ = _
          rw [this, v1, lookup_update_self]
        · show NoSpoil v.io.next.2; rw [v4]; exact ns3
      · rw [e3]
        refine .inr ⟨_, _, rfl, .inr ?_⟩
        show v.files.lookup _ = _
        rw [v1, lookup_update_self]
    · rw [u2] at h; exact absurd h n2
    · rw [e2]; exact .inr ⟨_, _, rfl, u3⟩


/-- The phases after the setup: the output stays empty, or is what the run without a cut leaves. -/
theorem rest_cut (f : FileId) : ∀ (ps : List (Phase × Cmd Unit)), (∀ p ∈ ps, Relates KeepsOut p.2 ∧ Follows (fun _ o' => o'.neverFails) False p.2) → ∀ s s' : State, Alike (fun _ o' => o'.neverFails) s s' → NoSpoil s.io → s.files.lookup f = some [] → s.slot1.file = f →
   ∀ q : Phase, (runSession (ps ++ [(q, flushSlot .s1)]) s).files.lookup f = some [] ∨ (runSession (ps ++ [(q, flushSlot .s1)]) s).files.lookup f = (runSession (ps ++ [(q, flushSlot .s1)]) s').files.lookup f
  | [], _, s, s', al, ns, hf, h1, q => by
    have al' := al
    obtain ⟨o, a, b, c, d, l, r, e, nf⟩ := al'
    have run' : ∃ t, flushSlot .s1 s' = .ok () t ∧ t.files = flushedFiles s.slot1 s.files := by
      rcases flushSlot_cases .s1 s' with ⟨o', e', -⟩ | ⟨m, o', n, -, h, -⟩
      · refine ⟨_, e', ?_⟩
        rw [e]; rfl
      · have nf' : s'.io.neverFails := by rw [e]; exact nf
        obtain ⟨d1, nf1⟩ := neverFails_next nf'
        obtain ⟨d2, nf2⟩ := neverFails_next nf1
        rcases h with h | ⟨-, h⟩
        · exact absurd d1 h
        · exact absurd d2 h
    obtain ⟨t', r', hr'⟩ := run'
    have R' : (runSession ([] ++ [(q, flushSlot .s1)]) s').files = flushedFiles s.slot1 s.files := by
      rw [List.nil_append, runSession_ok r']; exact hr'
    rw [R', List.nil_append]
    have key := flushSlot_after (i := .s1) ns
    have key : (after (flushSlot .s1) s).files = s.files ∨
        (after (flushSlot .s1) s).files = flushedFiles s.slot1 s.files := by
      rw [key]; split
      · exact .inr rfl
      · exact .inl rfl
    cases hfl : flushSlot .s1 s with
    | ok x t =>
      rw [runSession_ok hfl]
      rw [after_ok hfl] at key
      rcases key with k | k
      · left; show t.files.lookup f = _; rw [k, hf]
      · right; show t.files.lookup f = _; rw [k]
    | error x t =>
      rw [runSession_error hfl]
      rw [after_error hfl] at key
      rcases key with k | k
      · left; show t.files.lookup f = _; rw [k, hf]
      · right; show t.files.lookup f = _; rw [k]
  | (p, m) :: ps, h, s, s', al, ns, hf, h1, q => by
    obtain ⟨rel, fol⟩ := h (p, m) (by simp)
    have fo := fol s s' al
    rw [List.cons_append]
    cases hm : m s with
    | error e t =>
      rw [runSession_error hm]
      left
      show t.files.lookup f = _
      rw [(rel.of_error hm).1, hf]
    | ok x t =>
      simp only [hm] at fo
      obtain ⟨u, e', k⟩ := fo
      rw [runSession_ok hm, runSession_ok e']
      obtain ⟨f1, f2, f3, f4⟩ := rel.of_ok hm
      exact rest_cut f ps (fun q hq => h q (by simp [hq])) t u k (f3 ns) (by rw [f1, hf]) (by rw [f2, h1]) q

/-- A session where no request spoils a file: the output is as it was, or empty, or what the run without a cut leaves. -/
theorem session_cut (f : FileId) (ps : List (Phase × Cmd Unit)) (hp : ∀ p ∈ ps, Relates KeepsOut p.2 ∧ Follows (fun _ o' => o'.neverFails) False p.2) (s s' : State) (al : Alike (fun _ o' => o'.neverFails) s s') (ns : NoSpoil s.io) (hf : s.latch.arg1 = f) :
   (runSession ((.setup, encSetup) :: (ps ++ [(.flush, flushSlot .s1)])) s).files.lookup f = s.files.lookup f ∨
   (runSession ((.setup, encSetup) :: (ps ++ [(.flush, flushSlot .s1)])) s).files.lookup f = some [] ∨
   (runSession ((.setup, encSetup) :: (ps ++ [(.flush, flushSlot .s1)])) s).files.lookup f = (runSession ((.setup, encSetup) :: (ps ++ [(.flush, flushSlot .s1)])) s').files.lookup f := by
  subst hf
  have fo := follows_encSetup agree_neverFails s s' al
  rcases setup_cut s ns with ⟨t, e, k1, k2, k3, k4⟩ | ⟨er, t, e, k⟩
  · rw [e] at fo
    obtain ⟨u, e', al'⟩ := fo
    rw [runSession_ok e, runSession_ok e']
    rcases rest_cut _ ps hp t u al' k4 k1 k2 .flush with h | h
    · exact .inr (.inl h)
    · exact .inr (.inr h)
  · rw [runSession_error e]
    rcases k with k | k
    · exact .inl k
    · exact .inr (.inl k)

/-- R362: how a session under a cut oracle leaves its output, u being what the whole session leaves. -/
theorem session_prefix {i : Instr} {s s' t u : State} (hi : isSession i = true)
    (al : Alike (fun _ o' => o'.neverFails) s s') (ns : NoSpoil s.io) (h : exec i s = .next t) (h' : exec i s' = .next u) :
    t.files.lookup s.latch.arg1 = s.files.lookup s.latch.arg1 ∨ t.files.lookup s.latch.arg1 = some [] ∨
      t.files.lookup s.latch.arg1 = u.files.lookup s.latch.arg1 := by
  have mid : ∀ ps : List (Phase × Cmd Unit),
      (∀ p ∈ ps, Relates KeepsOut p.2 ∧ Follows (fun _ o' => o'.neverFails) False p.2) →
      (∀ v : State, exec i v = .next (runSession ((.setup, encSetup) :: (ps ++ [(.flush, flushSlot .s1)])) v)) →
      t.files.lookup s.latch.arg1 = s.files.lookup s.latch.arg1 ∨ t.files.lookup s.latch.arg1 = some [] ∨
        t.files.lookup s.latch.arg1 = u.files.lookup s.latch.arg1 :=
    fun ps hp e => by
      have := session_cut s.latch.arg1 ps hp s s' al ns rfl
      rw [← Host.Outcome.next.inj ((e s).symm.trans h), ← Host.Outcome.next.inj ((e s').symm.trans h')]
      exact this
  cases i with
  | encodeFile =>
    refine mid [(.count, countFrequencies), (.build, buildAndDerive), (.writeHeader, writeHeader),
      (.encodeBody, encodeBody)] (fun p hp => ?_) fun _ => rfl
    simp only [List.mem_cons, List.not_mem_nil, or_false] at hp
    rcases hp with rfl | rfl | rfl | rfl
    · exact ⟨countFrequencies_keepsOut, follows_countFrequencies agree_neverFails⟩
    · exact ⟨buildAndDerive_keepsOut, follows_buildAndDerive⟩
    · exact ⟨writeCounts_keepsOut _, follows_writeCounts _⟩
    · exact ⟨encodeBody_keepsOut, follows_encodeBody agree_neverFails⟩
  | decodeFile =>
    refine mid [(.readHeader, readHeader), (.build, buildTree), (.decodeBody, decodeBody)] (fun p hp => ?_) fun _ => rfl
    simp only [List.mem_cons, List.not_mem_nil, or_false] at hp
    rcases hp with rfl | rfl | rfl
    · exact ⟨readHeader_keepsOut, follows_readHeader agree_neverFails⟩
    · exact ⟨buildTree_keepsOut, follows_buildTree⟩
    · exact ⟨decodeBody_keepsOut, follows_decodeBody agree_neverFails⟩
  | bsOpen j d => cases hi
  | bsWrite j => cases hi
  | bsFlush j => cases hi
  | bsRead j => cases hi
  | bsRewind j => cases hi
  | bsClear j => cases hi

end Sys2Proof.Laws
end

