-- ==== Sys2Proof/Laws/PerInstr.lean ====
section
/-! SUPPORT. Statements for all instructions, one lemma per instruction: the command's word agrees with its row of the
opcode map (spec/30_encoding.md rule R133). -/

namespace Sys2Proof.Laws.MatchesTable

/-- R133: "A word w selects a command when w AND mask = match": the encoder's word does. -/
def Statement (i : Instr) : Prop := encode i &&& maskOf i = matchOf i

theorem bsOpen (slot : SlotId) (dir : Dir) : Statement (.bsOpen slot dir) := by
  unfold Statement; cases slot <;> cases dir <;> decide

theorem bsWrite (slot : SlotId) : Statement (.bsWrite slot) := by unfold Statement; cases slot <;> decide

theorem bsFlush (slot : SlotId) : Statement (.bsFlush slot) := by unfold Statement; cases slot <;> decide

theorem bsRead (slot : SlotId) : Statement (.bsRead slot) := by unfold Statement; cases slot <;> decide

theorem bsRewind (slot : SlotId) : Statement (.bsRewind slot) := by unfold Statement; cases slot <;> decide

theorem bsClear (slot : SlotId) : Statement (.bsClear slot) := by unfold Statement; cases slot <;> decide

theorem encodeFile : Statement .encodeFile := by unfold Statement; decide

theorem decodeFile : Statement .decodeFile := by unfold Statement; decide

end Sys2Proof.Laws.MatchesTable
end

