-- ==== Sys2Proof/Laws/Whole.lean ====
section
/-! SUPPORT. Whole sessions: the code of a symbol, and how ENCODE and DECODE end over the storage (spec/42_encoder.md rule
R268, spec/43_decoder.md rules R292 to R301). -/

namespace Sys2Proof.Laws

open Sys2Proof.Machine

/-- R110: bit k of a file. -/
theorem fileBits_get (b : List Byte) (k : Nat) : (fileBits b)[k]? = (b[k/8]?).map fun v => v.getLsbD (k % 8) := by
  induction b generalizing k with
  | nil => rfl
  | cons v b ih =>
    show (bitsOf v ++ fileBits b)[k]? = _
    by_cases h : k < 8
    · rw [List.getElem?_append_left (by simpa using h), Nat.div_eq_of_lt h, Nat.mod_eq_of_lt h]
      simp [bitsOf, h]
    · rw [List.getElem?_append_right (by simp; omega), bitsOf_length, ih]
      have e1 : k / 8 = (k - 8) / 8 + 1 := by omega
      rw [e1]
      simp only [List.getElem?_cons_succ]
      congr 1; funext v; congr 1; omega

/-- R12: bit k of an unpacked sequence. -/
theorem unpack_get (b : List Byte) (n k : Nat)
    (hk : k < n) : (unpack b n)[k]? = (b[k/8]?).map fun v => v.getLsbD (k % 8) := by
  unfold unpack; rw [List.getElem?_take_of_lt hk]; exact fileBits_get b k

/-- R12: the length of an unpacked sequence. -/
theorem unpack_len (b : List Byte) (n : Nat) (h : (n + 7) / 8 ≤ b.length) : (unpack b n).length = n := by
  unfold unpack; rw [List.length_take, fileBits_length]; omega

/-- Bit i of a packed byte. -/
theorem byteOfBits_get (x : BitSeq) (i : Nat)
    (hi : i < 8) : (byteOfBits x).getLsbD i = (x[i]?).getD false := by
  unfold byteOfBits
  rw [BitVec.getLsbD_ofNat, bitsToNat_testBit]; simp [hi]

theorem pack_pos {x : BitSeq} : (pack x).length > 0 ↔ x ≠ [] := by
  rw [pack_length]; cases x <;> simp

theorem acc_nil {x : Slot} : x.acc = [] ↔ x.accRev = [] := by unfold Slot.acc; simp

theorem freqSum_eq (freq) : ∀ vs : List Byte,
    ((used freq vs).map fun v => (freqOf freq v).toNat).sum = (vs.map fun v => (freqOf freq v).toNat).sum := by
  intro vs
  induction vs with
  | nil => rfl
  | cons v vs ih =>
    by_cases h : freqOf freq v = 0
    · have e : used freq (v :: vs) = used freq vs := by simp [used, h]
      rw [e, ih]; simp [h]
    · have e : used freq (v :: vs) = v :: used freq vs := List.filter_cons_of_pos (by simpa using h)
      rw [e, List.map_cons, List.sum_cons, ih, List.map_cons, List.sum_cons]

/-- R38: the sum of the counts is below 2^40. -/
theorem freqSum_lt (freq) : freqSum freq < 2 ^ 40 := by
  have := used_sum_lt freq
  rw [freqSum_eq] at this; exact this

theorem counts_sum {freq F} (h : Counts freq F) : freqSum freq = F.length := by
  rw [length_eq_sum_count]
  unfold freqSum
  exact congrArg List.sum (List.map_congr_left fun v _ => h v)

/-- R14: the symbols rise. -/
theorem symbols_pairwise : symbols.Pairwise (· < ·) := by
  rw [List.pairwise_iff_getElem]
  intro i j hi hj hij
  rw [symbols_getElem _ hi, symbols_getElem _ hj, BitVec.lt_def]
  simp at hi hj
  simp; omega

theorem codes_of (s : State) : s.buildTree.deriveCodes.codeLen = ((Tree.build s.freq).codes (Vector.replicate 256 0,
    Vector.replicate 256 0)).1 ∧
    s.buildTree.deriveCodes.codeBits = ((Tree.build s.freq).codes (Vector.replicate 256 0,
    Vector.replicate 256 0)).2 ∧ s.buildTree.deriveCodes.tree = Tree.build s.freq := by
  refine ⟨by simp, by simp, by simp⟩

/-- R228, R230: the code of a symbol with a count. -/
theorem code_spec (s : State) (v : Byte) (h : freqOf s.freq v ≠ 0) : ∃ q : BitSeq,
    s.buildTree.deriveCodes.codeOf v = q ∧ entry s.buildTree.deriveCodes.codeLen v.toNat 0 = store 8 q.length ∧
    entry s.buildTree.deriveCodes.codeBits v.toNat 0 = store 256 (bitsToNat q) ∧ 1 ≤ q.length ∧ q.length ≤ 255 ∧
      (usedCount s.freq = 1 → q = [false]) ∧
      (2 ≤ usedCount s.freq → q.length + 1 ≤ usedCount s.freq ∧
        ∃ j, Path (Tree.build s.freq) (Tree.build s.freq).root q j ∧ j.toNat < (Tree.build s.freq).nodeCount.toNat ∧
          ((Tree.build s.freq).nodeAt j).leaf = true ∧ ((Tree.build s.freq).nodeAt j).sym = v) := by
  obtain ⟨h1, h2, h3⟩ := codes_of s
  obtain ⟨q, a1, a2, a3, a4, a5, a6⟩ := (codes_spec s.freq v _ rfl).2 h
  rw [← h1] at a1; rw [← h2] at a2
  exact ⟨q, codeOf_eq a1 a2 a4, a1, a2, a3, a4, a5, a6⟩

/-- R228: a symbol without a count has no code. -/
theorem code_zero (s : State) (v : Byte)
    (h : freqOf s.freq v = 0) : entry s.buildTree.deriveCodes.codeLen v.toNat 0 = 0 ∧
    entry s.buildTree.deriveCodes.codeBits v.toNat 0 = 0 := by
  obtain ⟨h1, h2, h3⟩ := codes_of s
  obtain ⟨a1, a2⟩ := (codes_spec s.freq v _ rfl).1 h
  rw [← h1] at a1; rw [← h2] at a2
  exact ⟨a1, a2⟩

/-- Where one symbol has a count, it is the only one. -/
theorem used_single (freq) (h : usedCount freq = 1) {u v : Byte} (hu : freqOf freq u ≠ 0)
    (hv : freqOf freq v ≠ 0) : u = v := by
  obtain ⟨x, hx⟩ := List.length_eq_one_iff.1 h
  have m : ∀ w, freqOf freq w ≠ 0 → w = x := by
    intro w hw
    have : w ∈ used freq symbols := List.mem_filter.2 ⟨mem_symbols w, by simpa using hw⟩
    rw [hx] at this; simpa using this
  rw [m u hu, m v hv]

/-- The tables an ENCODE of F leaves: the counts of F, its tree, its total, its codes. -/
def Coded (t : State) (F : List Byte) : Prop := Counts t.freq F ∧ t.tree = Tree.build t.freq ∧
    t.total.toNat = F.length ∧ t.codeLen = ((Tree.build t.freq).codes (Vector.replicate 256 0,
    Vector.replicate 256 0)).1 ∧ t.codeBits = ((Tree.build t.freq).codes (Vector.replicate 256 0,
    Vector.replicate 256 0)).2

/-- How ENCODE ends, the input being F: with the output of rule R268, with COUNT_OVERFLOW, or with IO. -/
theorem encode_run (s : State) (F : List Byte) (ne : s.latch.arg0 ≠ s.latch.arg1)
    (hF : s.files.lookup s.latch.arg0 = some F) :
    (∃ t, runSession encodePhases s = complete .noError .done (closeSession t) ∧ Coded t F ∧
       t.files.lookup s.latch.arg1 = some (headerBytes t.freq ++ pack (F.flatMap t.codeOf))) ∨
    (∃ t, runSession encodePhases s = complete .countOverflow .count (closeSession t) ∧
        t.files.lookup s.latch.arg1 = some [] ∧ ∃ v, 2 ^ 32 ≤ F.count v) ∨
    (∃ p t, runSession encodePhases s = complete .io p (closeSession t) ∧ ¬ s.io.neverFails) := by
  unfold encodePhases
  rcases encSetup_cases s ne with ⟨-, o, e, nf⟩ | ⟨t, e, -, nf⟩
  rotate_left
  · rw [runSession_error e]
    refine .inr (.inr ⟨_, _, rfl, fun h => ?_⟩)
    have := nf h
    rw [show s.operandFile = s.latch.arg0 from rfl, hF] at this; cases this
  rw [runSession_ok e]
  generalize hu : ({ s with slot0 := Slot.opened .read s.operandFile, slot1 := Slot.opened .write s.operandOutFile, io := o, files := setupFiles s } : State) = u
  have nfu : s.io.neverFails → u.io.neverFails := by subst hu; exact nf
  have uF : u.files.contents u.slot0.file = F := by
    subst hu
    show (setupFiles s).contents s.latch.arg0 = F
    unfold Memory.contents
    rw [(setupFiles_touched s).1 _ ne, hF]; rfl
  obtain ⟨c1, c2⟩ := opened_coherent s.latch.arg0 F
  have u0 : u.slot0 = Slot.opened .read s.latch.arg0 := by subst hu; rfl
  have u1 : u.slot1 = Slot.opened .write s.latch.arg1 := by subst hu; rfl
  have uo : u.files.lookup s.latch.arg1 = some [] := by subst hu; exact setupFiles_out s
  rw [← u0] at c1 c2
  rcases countFrequencies_cases u c1 c2 uF with ⟨o', x, f, e, cn, d1, d2, d3, d4⟩ | ⟨er, t, e, h⟩
  rotate_left
  · rw [runSession_error e]
    rcases h with ⟨rfl, h1, h2⟩ | ⟨rfl, h⟩
    · exact .inr (.inl ⟨t, rfl, by rw [h1, uo], h2⟩)
    · exact .inr (.inr ⟨_, _, rfl, fun n => h (nfu n)⟩)
  rw [runSession_ok e]
  have hb : buildAndDerive { u with slot0 := x, io := o', freq := f } = .ok ()
      ({ u with slot0 := x, io := o', freq := f } : State).buildTree.deriveCodes := rfl
  rw [runSession_ok hb]
  generalize hw : ({ u with slot0 := x, io := o', freq := f } : State).buildTree.deriveCodes = w
  have w0 : w.slot0 = x := by subst hw; simp
  have w1 : w.slot1 = u.slot1 := by subst hw; simp
  have wf : w.files = u.files := by subst hw; simp
  have wio : w.io = o' := by subst hw; simp
  have wfreq : w.freq = f := by subst hw; simp
  have wc : Coded w F := by
    unfold Coded; rw [wfreq]
    refine ⟨cn, by subst hw; simp, ?_, by subst hw; simp, by subst hw; simp⟩
    subst hw
    rw [deriveCodes_total, buildTree_total, store_toNat (by have := freqSum_lt f; show freqSum f < _; omega)]
    exact counts_sum cn
  obtain ⟨y, e2, a1, a2, a3, a4⟩ := writeHeader_apply w
  rw [runSession_ok e2]
  have coded : ∀ v ∈ F, entry w.codeLen v.toNat 0 ≠ 0 := by
    intro v hv
    have : freqOf f v ≠ 0 := by
      intro h; have := cn v; rw [h] at this
      have := List.count_pos_iff.2 hv; have e0 : (0 : Word).toNat = 0 := rfl; omega
    obtain ⟨q, b1, b2, b3, b4, -⟩ := (codes_spec f v _ rfl).2 this
    rw [wc.2.2.2.1, wfreq, b1]
    intro h; have := congrArg BitVec.toNat h; rw [store_toNat (by omega)] at this; simp at this; simp [this] at b3
  rcases encodeBody_cases (F :=
      F) { w with slot1 := y } (by rw [show ({ w with slot1 := y } : State).slot0 = x from w0]; exact d1)
      (by rw [show ({ w with slot1 := y } : State).slot0 = x from w0]; exact d2) (by
      show w.files.contents w.slot0.file = F
      rw [wf, w0, d3, uF]) (by have := cn.length_lt; omega) coded with ⟨o2, x2, y2, e3, ⟨b1, b2, b3, b4⟩, b5⟩ | ⟨er,
          t, e3, rfl, h⟩
  rotate_left
  · rw [runSession_error e3]
    exact .inr (.inr ⟨_, _, rfl, fun n => h (by show w.io.neverFails; rw [wio]; exact d4 (nfu n))⟩)
  rw [runSession_ok e3]
  have acc : y2.acc = fileBits (headerBytes w.freq) ++ F.flatMap w.codeOf := by
    rw [b1]; show y.acc ++ F.flatMap w.codeOf = _
    rw [a1, w1, u1]; rfl
  rcases flush_out (s := { w with slot1 := y2, slot0 := x2, io := o2 }) (f :=
      s.latch.arg1) acc (b2.trans (a2.trans (by rw [w1, u1]; rfl))) (b3.trans (a3.trans (by rw [w1, u1]; rfl)))
      (by show w.files.lookup _ = _; rw [wf, uo]) with ⟨t, e4, f1, -, f3⟩ | ⟨t, e4, h⟩
  · rw [runSession_ok e4]
    obtain ⟨g1, g2, g3, g4, g5⟩ := f3
    refine .inl ⟨t, rfl, ?_, ?_⟩
    · unfold Coded; rw [g1, g2, g3, g4, g5]; exact wc
    · have : t.codeOf = w.codeOf := by funext v; unfold State.codeOf; rw [g4, g5]
      rw [f1, this, g1, pack_fileBits_append]
  · rw [runSession_error e4]
    exact .inr (.inr ⟨_, _, rfl, fun n => h (b5 (by show w.io.neverFails; rw [wio]; exact d4 (nfu n)))⟩)

/-- How DECODE ends, the input being F: with a short header, with what the walk of the body emits, or with IO. -/
theorem decode_run (s : State) (F : List Byte) (ne : s.latch.arg0 ≠ s.latch.arg1)
    (hF : s.files.lookup s.latch.arg0 = some F) :
    (F.length < 1024 ∧ ∃ t, runSession decodePhases s = complete .malformedHeader .readHeader (closeSession t) ∧
        t.files.lookup s.latch.arg1 = some [] ∧ sameTables s t) ∨
    (1024 ≤ F.length ∧ (F.length < 2 ^ 60 → ∃ t, (t.freq = parseHeader (F.take 1024) ∧ t.tree = Tree.build t.freq) ∧
      ((∃ out, decodedFile s.stopL F = some out ∧
          runSession decodePhases s = complete .noError .done (closeSession t) ∧
          t.files.lookup s.latch.arg1 = some out) ∨
       (decodedFile s.stopL F = none ∧ ∃ t',
           runSession decodePhases s = complete .malformedHeader .decodeBody (closeSession t') ∧
           t'.files.lookup s.latch.arg1 = some [])))) ∨
    (∃ p t, runSession decodePhases s = complete .io p (closeSession t) ∧ ¬ s.io.neverFails) := by
  unfold decodePhases
  rcases encSetup_cases s ne with ⟨-, o, e, nf⟩ | ⟨t, e, -, nf⟩
  rotate_left
  · rw [runSession_error e]
    refine .inr (.inr ⟨_, _, rfl, fun h => ?_⟩)
    have := nf h
    rw [show s.operandFile = s.latch.arg0 from rfl, hF] at this; cases this
  rw [runSession_ok e]
  generalize hu : ({ s with slot0 := Slot.opened .read s.operandFile, slot1 := Slot.opened .write s.operandOutFile, io := o, files := setupFiles s } : State) = u
  have nfu : s.io.neverFails → u.io.neverFails := by subst hu; exact nf
  have uF : u.files.contents u.slot0.file = F := by
    subst hu
    show (setupFiles s).contents s.latch.arg0 = F
    unfold Memory.contents
    rw [(setupFiles_touched s).1 _ ne, hF]; rfl
  obtain ⟨c1, c2⟩ := opened_coherent s.latch.arg0 F
  have u0 : u.slot0 = Slot.opened .read s.latch.arg0 := by subst hu; rfl
  have u1 : u.slot1 = Slot.opened .write s.latch.arg1 := by subst hu; rfl
  have uo : u.files.lookup s.latch.arg1 = some [] := by subst hu; exact setupFiles_out s
  have ust : u.stopL = s.stopL := by subst hu; rfl
  have utab : sameTables s u := by subst hu; exact ⟨rfl,rfl,rfl,rfl,rfl⟩
  rw [← u0] at c1 c2
  rcases readHeader_cases u c1 c2 uF with ⟨hl, o', x, e, d1, d2, d3, d4⟩ | ⟨hl, o', x, e⟩ | ⟨t, e, h⟩
  rotate_left
  · rw [runSession_error e]
    exact .inl ⟨hl, _, rfl, uo, utab⟩
  · rw [runSession_error e]
    exact .inr (.inr ⟨_, _, rfl, fun n => h (nfu n)⟩)
  rw [runSession_ok e]
  generalize hfr : parseHeader (F.take 1024) = fr at e
  have hb : buildTree { u with slot0 := x, io := o', freq := fr } = .ok ()
      ({ u with slot0 := x, io := o', freq := fr } : State).buildTree := rfl
  rw [runSession_ok hb]
  generalize hw : ({ u with slot0 := x, io := o', freq := fr } : State).buildTree = w
  have w0 : w.slot0 = x := by subst hw; simp
  have w1 : w.slot1 = u.slot1 := by subst hw; simp
  have wf : w.files = u.files := by subst hw; simp
  have wio : w.io = o' := by subst hw; simp
  have wfreq : w.freq = fr := by subst hw; simp
  have wtree : w.tree = Tree.build fr := by subst hw; simp
  have wstop : w.stopL = s.stopL := by subst hw; simp [ust]
  have wtot : w.total.toNat = freqSum fr := by
    subst hw; rw [buildTree_total, store_toNat (by have := freqSum_lt fr; show freqSum fr < _; omega)]
  by_cases hl2 : F.length < 2 ^ 60
  rotate_left
  · exact .inr (.inl ⟨hl, fun h => absurd h hl2⟩)
  have hroot : (if w.tree.nodeCount = 0 then (0 : NodeIx) else w.tree.root) = if w.tree.nodeCount = 0 then 0 else w.tree.root := rfl
  have db : decodeBody w = walkLoop w.loopBound { w with emitted := 0, walk := if w.tree.nodeCount = 0 then 0 else w.tree.root } := rfl
  have lF : (fileBits F).length = 8 * F.length := fileBits_length F
  have hbits : (fileBits F).drop 8192 = fileBits (F.drop 1024) := (fileBits_drop F 1024).symm
  have lim : limitOf { w with emitted := 0, walk := if w.tree.nodeCount = 0 then 0 else w.tree.root } = stopLimit s.stopL fr := by
    unfold limitOf stopLimit; cases h : s.stopL <;> simp [wstop, wtot, h]
  have walkeq : walkBits w.tree (stopLimit s.stopL fr)
      (if w.tree.nodeCount = 0 then 0 else w.tree.root) 0 ((fileBits F).drop 8192) = decodedFile s.stopL F := by
    unfold decodedFile
    simp only [hfr, ← wtree, hbits]
    by_cases z : w.tree.nodeCount = 0
    · rw [if_pos z]
      cases fileBits (F.drop 1024) with
      | nil => rfl
      | cons b bs => rw [walkBits, walkBits, if_pos z, if_pos z]
    · rw [if_neg z]
  rcases walkLoop_cases (F := F) (by omega)
      ((fileBits F).drop 8192) w.loopBound { w with emitted := 0, walk := if w.tree.nodeCount = 0 then 0 else w.tree.root }
    (by rw [List.length_drop, lF]; unfold State.loopBound; rw [wf, w0, d3, uF]; omega)
    (by show _ = List.drop w.slot0.position _; rw [w0, d2]) (by show w.slot0.coherent F; rw [w0]; exact d1)
    (by show w.files.contents w.slot0.file = F; rw [wf, w0, d3, uF])
    (by rw [List.length_drop, lF]; show 0 + _ < _; omega) with ⟨out, o3, x3, y3, w3, e3, k1, k2, ⟨k3, k4, k5, k6⟩,
        k7⟩ | ⟨k1, t, k2, k3⟩ | ⟨t, k1, k2⟩
  · rw [runSession_ok (db.trans k2)]
    have acc : y3.acc = fileBits out := by rw [k3]; show w.slot1.acc ++ _ = _; rw [w1, u1]; rfl
    rcases flush_out (s := { w with slot1 := y3, slot0 := x3, io := o3, walk := w3, emitted := e3 }) 
      (f := s.latch.arg1) acc (k4.trans (by show w.slot1.file = _; rw [w1, u1]; rfl))
        (k5.trans (by show w.slot1.wpos = _; rw [w1, u1]; rfl)) (by show w.files.lookup _ = _; rw [wf, uo]) with
      ⟨t, e4, f1, -, f3⟩ | ⟨t, e4, h⟩
    · rw [runSession_ok e4]
      obtain ⟨g1, g2, g3, g4, g5⟩ := f3
      have tf : t.freq = fr := by rw [g1]; exact wfreq
      have tt : t.tree = Tree.build t.freq := by rw [g1, g3]; exact wtree.trans (congrArg Tree.build wfreq.symm)
      refine .inr (.inl ⟨hl, fun _ => ⟨t, ⟨tf, tt⟩, .inl ⟨out, ?_, rfl, ?_⟩⟩⟩)
      · rw [← walkeq, ← lim]; exact k1
      · rw [f1, pack_fileBits]
    · rw [runSession_error e4]
      exact .inr (.inr ⟨_, _, rfl, fun n => h (k7 (by show w.io.neverFails; rw [wio]; exact d4 (nfu n)))⟩)
  · rw [runSession_error (db.trans k2)]
    refine .inr (.inl ⟨hl, fun _ => ⟨w, ⟨wfreq, by rw [wtree, wfreq]⟩, .inr ⟨?_, t, rfl, ?_⟩⟩⟩)
    · rw [← walkeq, ← lim]; exact k1
    · rw [k3]; show w.files.lookup _ = _; rw [wf, uo]
  · rw [runSession_error (db.trans k1)]
    exact .inr (.inr ⟨_, _, rfl, fun n => k2 (by show w.io.neverFails; rw [wio]; exact d4 (nfu n))⟩)

/-- R301: the walk of a tree of two leaves or more over the codes of F emits F. -/
theorem walk_codes {s : State} (lim : Option Nat) (h0 : (Tree.build s.freq).nodeCount ≠ 0)
    (h1 : 2 ≤ usedCount s.freq) (pad : BitSeq) :
   ∀ (F : List Byte) (n : Nat), (∀ v ∈ F, freqOf s.freq v ≠ 0) → lim = some (n + F.length) →
     walkBits (Tree.build s.freq) lim (Tree.build s.freq).root n (F.flatMap s.buildTree.deriveCodes.codeOf ++ pad) = some F
  | [], n, _, hl => by
    show walkBits _ _ _ _ pad = _
    cases pad with
    | nil => rfl
    | cons b bs => rw [walkBits, if_pos (by rw [hl]; simp)]
  | v :: F, n, hv, hl => by
    obtain ⟨q, e, a1, a2, a3, a4, a5, a6⟩ := code_spec s v (hv v (by simp))
    obtain ⟨-, j, p, jl, lf, sy⟩ := a6 h1
    have ne : (Tree.build s.freq).leafCount ≠ 1 := by
      intro h; have := (build_counts s.freq).1; rw [h] at this
      have : (1 : BitVec 9).toNat = 1 := rfl
      omega
    rw [List.flatMap_cons, e, List.append_assoc, walkBits_path h0 ne p n _ (by rw [hl]; simp)
        (by rintro rfl; simp at a3) lf, walk_codes lim h0 h1 pad F (n+1) (fun w hw => hv w (by simp [hw]))
        (by rw [hl]; congr 1; simp; omega), sy]
    rfl

/-- R299: the walk of a single leaf emits its symbol for each bit. -/
theorem walk_single {t : Tree} {v : Byte} (h0 : t.nodeCount ≠ 0) (h1 : t.leafCount = 1) (hs : (t.nodeAt 0).sym = v)
    (lim : Option Nat) (i) (pad : BitSeq) :
   ∀ (k n : Nat), lim = some (n + k) → walkBits t lim i n (List.replicate k false ++ pad) = some (List.replicate k v)
  | 0, n, hl => by
    show walkBits _ _ _ _ pad = _
    cases pad with
    | nil => rfl
    | cons b bs => rw [walkBits, if_pos (by rw [hl]; simp)]; rfl
  | k + 1, n, hl => by
    rw [List.replicate_succ, List.cons_append, walkBits, if_neg (by rw [hl]; simp), if_neg h0, if_pos h1,
        walk_single h0 h1 hs lim i pad k (n+1) (by rw [hl]; congr 1; omega), hs]
    rfl

end Sys2Proof.Laws
end

