-- ==== Sys2Proof/Machine/HostProgram.lean ====
section
/-! DEFINITION. The host syntax of spec/30_encoding.md rules R145 and R146 as inputs of the machine: the statements
`st`, `ld`, `wait`, `cmd` and the pseudo-instructions with their expansions. -/

namespace Sys2Proof.Machine

/-- `st REG, v` at a window offset (R145). -/
def st (off : Nat) (v : Word) : Input := .write .word off v

/-- `ld REG` at a window offset (R145). -/
def ld (off : Nat) : Input := .read .word off

/-- `cmd MNEMONIC` (R145): its command word is written to CMD. -/
def cmd (i : Instr) : Input := st 0x0004 (encode i)

/-- `open s, d, f` (R146). -/
def hostOpen (i : SlotId) (d : Dir) (f : FileId) : List Input := [st 0x000C f, cmd (.bsOpen i d), .wait]

/-- Byte i of DATA_IN after a `put`: the i-th byte given, or, past the last one given, what DATA_IN held (R146, "`put`
leaves DATA_IN bytes it does not name as they were"). -/
def putByte (old : Vector Byte 1024) (bytes : List Byte) (i : Nat) : Byte := bytes.getD i (entry old i 0)

/-- The stores of `put` (R146): `st DATA_IN+4j` "for each j with 4j < number of bytes given". A store changes a whole
word, so the last one gives the bytes that `put` does not name the values they had, which the host knows as their only
writer (R67; notes/assumptions/21.md). -/
def storeBytes (old : Vector Byte 1024) (bytes : List Byte) : List Input :=
  (List.range ((bytes.length + 3) / 4)).map fun j =>
    st (0x0800 + 4 * j)
      (fromLe32 (putByte old bytes (4 * j)) (putByte old bytes (4 * j + 1)) (putByte old bytes (4 * j + 2))
        (putByte old bytes (4 * j + 3)))

/-- `put s, n, bytes` (R146), where DATA_IN holds `old`. -/
def hostPut (old : Vector Byte 1024) (i : SlotId) (n : Word) (bytes : List Byte) : List Input :=
  storeBytes old bytes ++ [st 0x000C n, cmd (.bsWrite i), .wait]

/-- `get s, n` (R146). -/
def hostGet (i : SlotId) (n : Word) : List Input := [st 0x000C n, cmd (.bsRead i), .wait]

/-- `flush s` (R146). -/
def hostFlush (i : SlotId) : List Input := [cmd (.bsFlush i), .wait]

/-- `rewind s` (R146). -/
def hostRewind (i : SlotId) : List Input := [cmd (.bsRewind i), .wait]

/-- `clear s` (R146). -/
def hostClear (i : SlotId) : List Input := [cmd (.bsClear i), .wait]

/-- `encode fin, fout` (R146). -/
def hostEncode (fin fout : FileId) : List Input := [st 0x000C fin, st 0x0010 fout, cmd .encodeFile, .wait]

/-- `decode fin, fout` (R146). -/
def hostDecode (fin fout : FileId) : List Input := [st 0x000C fin, st 0x0010 fout, cmd .decodeFile, .wait]

/-- `stop m` (R146). -/
def hostStop (m : Word) : List Input := [st 0x0018 m]

end Sys2Proof.Machine
end

