-- ==== Sys2Proof/Tests/Slice0.lean ====
section
/-! SUPPORT. The model's own tests: the legality checks on ill-formed words, command words written out from the spec's
opcode map, one step per command with the results spec/95_test_vectors.md gives, and a witness for the hypotheses of each
statement of Sys2Proof/Certificates/Slice0/Obligations.lean. -/

namespace Sys2Proof.Tests

open Sys2Proof.Machine

set_option Elab.async false

/-! ## Which words are legal (R134) -/

theorem test_reserved_bit_refused :
    CmdFields.reservedClear { op := 0x01, s := 0, d := 0, rsv := 1 } = false ∧
    CmdFields.wellFormed { op := 0x01, s := 0, d := 0, rsv := 1 } = false := by decide

theorem test_unknown_opcode_refused :
    CmdFields.opKnown { op := 0x07, s := 0, d := 0, rsv := 0 } = false ∧
    CmdFields.wellFormed { op := 0x07, s := 0, d := 0, rsv := 0 } = false := by decide

theorem test_direction_bit_refused :
    CmdFields.dirAllowed { op := 0x02, s := 0, d := 1, rsv := 0 } = false ∧
    CmdFields.wellFormed { op := 0x02, s := 0, d := 1, rsv := 0 } = false := by decide

theorem test_slot_bit_refused :
    CmdFields.slotAllowed { op := 0x10, s := 1, d := 0, rsv := 0 } = false ∧
    CmdFields.wellFormed { op := 0x10, s := 1, d := 0, rsv := 0 } = false := by decide

theorem test_legal_fields_pass :
    CmdFields.wellFormed { op := 0x01, s := 1, d := 1, rsv := 0 } = true ∧
    CmdFields.wellFormed { op := 0x06, s := 1, d := 0, rsv := 0 } = true ∧
    CmdFields.wellFormed { op := 0x11, s := 0, d := 0, rsv := 0 } = true := by decide

/-! ## Command words, bit by bit: RSV (22 bits), D, S, OP (R130, R133) -/

theorem test_decode_bsOpen :
    decode 0b0000000000000000000000_1_1_00000001 = .ok (.bsOpen .s1 .write) ∧
    decode 0b0000000000000000000000_0_1_00000001 = .ok (.bsOpen .s1 .read) := by decide

theorem test_decode_bsWrite : decode 0b0000000000000000000000_0_1_00000010 = .ok (.bsWrite .s1) := by decide

theorem test_decode_bsFlush : decode 0b0000000000000000000000_0_0_00000011 = .ok (.bsFlush .s0) := by decide

theorem test_decode_bsRead : decode 0b0000000000000000000000_0_1_00000100 = .ok (.bsRead .s1) := by decide

theorem test_decode_bsRewind : decode 0b0000000000000000000000_0_0_00000101 = .ok (.bsRewind .s0) := by decide

theorem test_decode_bsClear : decode 0b0000000000000000000000_0_1_00000110 = .ok (.bsClear .s1) := by decide

theorem test_decode_encode : decode 0b0000000000000000000000_0_0_00010000 = .ok .encodeFile := by decide

theorem test_decode_decode : decode 0b0000000000000000000000_0_0_00010001 = .ok .decodeFile := by decide

/-- The words A1 to A6 of spec/95_test_vectors.md section 2.7, and the ends of the reserved opcode ranges. -/
theorem test_illegal_words :
    decode 0x00000000 = .error .unknownOpcode ∧ decode 0x00000007 = .error .unknownOpcode ∧
    decode 0x0000000F = .error .unknownOpcode ∧ decode 0x00000012 = .error .unknownOpcode ∧
    decode 0x000000FF = .error .unknownOpcode ∧ decode 0x00000202 = .error .directionBit ∧
    decode 0x00000206 = .error .directionBit ∧ decode 0x00000110 = .error .slotBit ∧
    decode 0x00000111 = .error .slotBit ∧ decode 0x00000210 = .error .directionBit ∧
    decode 0x00000401 = .error .reservedBits ∧ decode 0x80000001 = .error .reservedBits := by decide

theorem test_encode_words :
    encode (.bsOpen .s1 .write) = 0x00000301 ∧ encode (.bsRead .s1) = 0x00000104 ∧
    encode (.bsClear .s0) = 0x00000006 ∧ encode .decodeFile = 0x00000011 := by decide

/-! ## Small states -/

/-- A storage that answers every request the same way. -/
def always (a : IoAnswer) : IoOracle := { planned := [], rest := some a, asked := 0 }

/-- After reset, the oracle failing no request, with the given files. -/
def stored (files : Memory) : State := { State.reset with io := always .done, files := files }

/-- SLOT[1] a write slot on file 7, the given bits in its accumulator, the file holding the given bytes up to WPOS. -/
def writing (bits : BitSeq) (bytes : List Byte) : State :=
  { stored [(7, bytes)] with
    slot1 := { Slot.reset with
      mode := .write, file := 7, accRev := bits.reverse, wcur := BitVec.ofNat 64 bits.length,
      wpos := BitVec.ofNat 64 bytes.length } }

/-- SLOT[0] a read slot on file 8, freshly opened. -/
def reading (bytes : List Byte) : State :=
  { stored [(8, bytes)] with slot0 := { Slot.reset with mode := .read, file := 8 } }

/-- The same, after one refill of a file of at most 4096 bytes and with the cursor moved. -/
def readingAt (bytes : List Byte) (cur : BitVec 16) : State :=
  { stored [(8, bytes)] with
    slot0 := { Slot.reset with
      mode := .read, file := 8, buf := bytes, valid := BitVec.ofNat 13 bytes.length, cur := cur,
      fpos := BitVec.ofNat 64 bytes.length } }

/-- The command i just accepted, with ARG0, ARG1 and the first word of DATA_IN as given. -/
def issued (i : Instr) (a b v : Word) (s : State) : State :=
  accept (encode i) { s with arg0 := a, arg1 := b, dataIn := setWindowWord s.dataIn 0 v }

/-- What the block faces next. -/
def facing (l : List Input) (s : State) : State := { s with inputs := l }

/-- The state one step on. -/
def onward (s : State) : State :=
  match step s with
  | .next t => t
  | .fault _ => s
  | .refused _ => s

/-- The bytes of "aaab". -/
def aaab : List Byte := [0x61, 0x61, 0x61, 0x62]

/-- The file of vector T1: the header of "aaab" and the body 07. -/
def t1 : List Byte := List.replicate 388 0 ++ [3, 0, 0, 0, 1, 0, 0, 0] ++ List.replicate 628 0 ++ [7]

theorem always_skip (a : IoAnswer) (n : Nat) :
    ∀ k, IoOracle.skip k { planned := [], rest := some a, asked := n } =
      { planned := [], rest := some a, asked := n + k }
  | 0 => rfl
  | k + 1 => by
    show IoOracle.skip k { planned := [], rest := some a, asked := n + 1 } = _
    rw [always_skip a (n + 1) k, Nat.add_right_comm, Nat.add_assoc]

theorem always_done_never_fails : (always .done).neverFails := by
  intro k; unfold always; rw [always_skip]; rfl

theorem stored_never_fails (files : Memory) : (stored files).io.neverFails := always_done_never_fails

/-! ## One step per command (spec/95_test_vectors.md) -/

/-- O3: an existing file opened for writing keeps its bytes. -/
theorem test_bsOpen_write_keeps_file :
    (onward (issued (.bsOpen .s1 .write) 5 0 0 (stored [(5, [0xAA])]))).files = [(5, [0xAA])] ∧
    (onward (issued (.bsOpen .s1 .write) 5 0 0 (stored [(5, [0xAA])]))).status.word = 0x02 := by decide +kernel

/-- O1: a read open of an absent file is IO and leaves the slot closed. -/
theorem test_bsOpen_read_absent :
    (onward (issued (.bsOpen .s0 .read) 4 0 0 (stored []))).status.word = 0x22 ∧
    (onward (issued (.bsOpen .s0 .read) 4 0 0 (stored []))).slot0 = Slot.reset := by decide +kernel

/-- W5: twelve bits of 34 12 after the fifteen bits FD 7F. -/
theorem test_bsWrite_appends :
    pack (onward (issued (.bsWrite .s1) 12 0 0x1234 (writing (unpack [0xFD, 0x7F] 15) []))).slot1.acc =
      [0xFD, 0x7F, 0x1A, 0x01] ∧
    (onward (issued (.bsWrite .s1) 12 0 0x1234 (writing (unpack [0xFD, 0x7F] 15) []))).slot1.wcur = 27 := by
  decide +kernel

/-- W11: 8193 bits are XFER_LEN. -/
theorem test_bsWrite_too_long :
    (onward (issued (.bsWrite .s1) 8193 0 0 (writing [true] []))).status.word = 0x62 ∧
    (onward (issued (.bsWrite .s1) 8193 0 0 (writing [true] []))).slot1.acc = [true] := by decide +kernel

/-- W6 and W7: the flush writes at WPOS, after what the file holds. -/
theorem test_bsFlush_writes_at_wpos :
    (onward (issued (.bsFlush .s1) 0 0 0 (writing [true] [0xFD, 0x7F, 0x1A, 0x01]))).files =
      [(7, [0xFD, 0x7F, 0x1A, 0x01, 0x01])] ∧
    (onward (issued (.bsFlush .s1) 0 0 0 (writing [true] [0xFD, 0x7F, 0x1A, 0x01]))).slot1.wpos = 5 := by
  decide +kernel

/-- W15: a flush whose write fails keeps the slot. -/
theorem test_bsFlush_failure_keeps_slot :
    (onward (issued (.bsFlush .s1) 0 0 0 { writing [true] [] with io := always .failed })).status.word = 0x22 ∧
    (onward (issued (.bsFlush .s1) 0 0 0 { writing [true] [] with io := always .failed })).slot1 =
      (writing [true] []).slot1 := by decide +kernel

/-- B2: eight bits across a byte boundary, the cursor at bit 3 of FD 07. -/
theorem test_bsRead_crosses_bytes :
    ((onward (issued (.bsRead .s0) 8 0 0 (readingAt [0xFD, 0x07] 3))).dataOut.toList.take 2 = [0xFF, 0x00]) ∧
    (onward (issued (.bsRead .s0) 8 0 0 (readingAt [0xFD, 0x07] 3))).slot0.cur = 11 := by decide +kernel

/-- B3: at the end of the file the read is short and the slot ends empty. -/
theorem test_bsRead_short_at_end :
    (onward (issued (.bsRead .s0) 8 0 0 (readingAt [0xFD, 0x07] 11))).resultBits = 5 ∧
    (onward (issued (.bsRead .s0) 8 0 0 (readingAt [0xFD, 0x07] 11))).slot0 =
      { Slot.reset with mode := .read, file := 8, fpos := 2 } := by decide +kernel

/-- R178: BS_REWIND returns the slot to the start. -/
theorem test_bsRewind_returns :
    (onward (issued (.bsRewind .s0) 0 0 0 (readingAt [0xFD, 0x07] 11))).slot0 =
      { Slot.reset with mode := .read, file := 8 } := by decide +kernel

/-- B13: BS_REWIND of a closed slot is NOT_OPEN. -/
theorem test_bsRewind_closed :
    (onward (issued (.bsRewind .s1) 0 0 0 (readingAt [0xFD] 0))).status.word = 0x52 := by decide +kernel

/-- R170: BS_CLEAR empties the file and keeps the accumulator. -/
theorem test_bsClear_keeps_acc :
    (onward (issued (.bsClear .s1) 0 0 0 (writing [true, true] [0xAA]))).files = [(7, [])] ∧
    (onward (issued (.bsClear .s1) 0 0 0 (writing [true, true] [0xAA]))).slot1.acc = [true, true] := by
  decide +kernel

/-- W13's twin: BS_CLEAR of a read slot is INVALID_MODE. -/
theorem test_bsClear_read_slot :
    (onward (issued (.bsClear .s0) 0 0 0 (readingAt [0xFD] 0))).status.word = 0x12 ∧
    (onward (issued (.bsClear .s0) 0 0 0 (readingAt [0xFD] 0))).files = [(8, [0xFD])] := by decide +kernel

/-- T1: ENCODE of "aaab". -/
theorem test_encode_aaab :
    (onward (issued .encodeFile 1 2 0 (stored [(1, aaab)]))).files = [(1, aaab), (2, t1)] := by decide +kernel

/-- T10: ENCODE of a file into itself is ALIAS. -/
theorem test_encode_alias :
    (onward (issued .encodeFile 1 1 0 (stored [(1, aaab)]))).status.word = 0x192 ∧
    (onward (issued .encodeFile 1 1 0 (stored [(1, aaab)]))).files = [(1, aaab)] := by decide +kernel

/-- R269 (g), R370: a file changed under an aliased session does not race it; the session still ends with ALIAS. -/
theorem test_aliased_session_is_not_raced :
    let s := facing [.fileChange 1 [0xAA]] (issued .encodeFile 1 1 0 (stored [(1, aaab)]))
    (onward (onward s)).status.word = 0x192 ∧ (onward (onward s)).files = [(1, [0xAA])] := by decide +kernel

/-- D2: DECODE of T1's file under EOF_ONLY decodes the padding too. -/
theorem test_decode_eof_only :
    (onward (issued .decodeFile 1 2 0 { stored [(1, t1)] with stop := .eofOnly })).files =
      [(1, t1), (2, [0x61, 0x61, 0x61, 0x62, 0x62, 0x62, 0x62, 0x62])] := by decide +kernel

/-- D13: a header that is too short. -/
theorem test_decode_short_header :
    (onward (issued .decodeFile 1 2 0 (stored [(1, List.replicate 1000 0)]))).status.word = 0x632 := by decide +kernel

/-- R146: a `put` of one byte names only that byte; the word's other bytes stay as DATA_IN has them. -/
theorem test_put_keeps_unnamed_bytes :
    hostPut ((Vector.replicate 1024 0).setIfInBounds 3 0xEE) .s1 8 [0x61] =
      [.write .word 0x0800 0xEE000061, .write .word 0x000C 8, .write .word 0x0004 0x102, .wait] := by decide +kernel

/-! ## Witnesses: concrete states and operands that meet the hypotheses of each statement -/

theorem witness_MaskAndMatchSelectCommand :
    decode 0x301 = .ok (.bsOpen .s1 .write) ∧ decode 0x011 = .ok .decodeFile := by decide

theorem witness_DecodeAndEncodeAgree :
    (Instr.bsRead .s1).wellFormed = true ∧ decode 0x104 = .ok (.bsRead .s1) := by decide

/-- An illegal CMD write comes to an idle block; each clause of R134 at an end of its range. -/
theorem witness_IllegalWordCompletesAtOnce :
    (facing [.write .word 0x0004 0x12] State.reset).status.busy = false ∧
    decode 0x12 = .error .unknownOpcode ∧
    (facing [.write .word 0x0004 0x12] State.reset).inputs = .write .word 0x0004 0x12 :: [] ∧
    decode 0x0F = .error .unknownOpcode ∧ decode 0xFFFFFFFF = .error .reservedBits ∧
    decode 0x306 = .error .directionBit ∧ decode 0x111 = .error .slotBit := ⟨rfl, rfl, rfl, rfl, rfl, rfl, rfl⟩

/-- A running command: BS_REWIND of slot 1. -/
theorem witness_StepRunsLatchedInstruction :
    let s := issued (.bsRewind .s1) 0 0 0 State.reset
    s.status.busy = true ∧ s.raced = false ∧ decodeFields s.latchedFields = .ok (.bsRewind .s1) ∧
    s.inputs = [] ∧ (facing [.core] s).inputs = .core :: [] ∧ (facing [.wait] s).inputs = .wait :: [] :=
  ⟨rfl, rfl, rfl, rfl, rfl, rfl⟩

theorem witness_PlacedWordRunsNext :
    decodeTableWord 32 0x104 = some (.bsRead .s1) ∧ decodeTableWord 32 0x011 = some .decodeFile := ⟨rfl, rfl⟩

theorem witness_CmdWriteIsAccepted :
    (facing [.write .word 0x0004 0x011, .core] State.reset).status.busy = false ∧
    (facing [.write .word 0x0004 0x011, .core] State.reset).inputs = .write .word 0x0004 0x011 :: [.core] ∧
    decode 0x011 = .ok .decodeFile ∧
    (facing [.write .word 0x0004 0x012] State.reset).inputs = .write .word 0x0004 0x012 :: [] ∧
    decode 0x012 = .error .unknownOpcode := ⟨rfl, rfl, rfl, rfl, rfl⟩

/-- A CMD write to a busy block; and OVR at 1 before a step that keeps it, before a reset, before an acceptance. -/
theorem witness_CmdWriteWhileBusyIsLost :
    let s := facing [.write .word 0x0004 0x011] (issued .encodeFile 1 2 0 State.reset)
    let o := { State.reset with status := { Status.reset with ovr := true } }
    (s.status.busy = true ∧ s.inputs = .write .word 0x0004 0x011 :: []) ∧
    (o.status.ovr = true ∧ ∃ t, step o = .next t) ∧
    (∃ t, step (facing [.reset 0] o) = .next t) ∧
    ∃ t, step (facing [.write .word 0x0004 0x011] o) = .next t :=
  ⟨⟨rfl, rfl⟩, ⟨rfl, _, rfl⟩, ⟨_, rfl⟩, ⟨_, rfl⟩⟩

/-- A command that another agent's write to one of its files races (R370), with nothing to come and on the core's turn. -/
theorem witness_EveryCommandCompletes :
    let s := { issued .encodeFile 1 2 0 (stored [(1, aaab)]) with raced := true }
    s.status.busy = true ∧ s.raced = true ∧ decodeFields s.latchedFields = .ok .encodeFile ∧ s.inputs = [] ∧
    (facing [.core] s).inputs = .core :: [] := ⟨rfl, rfl, rfl, rfl, rfl⟩

theorem witness_SessionsCloseSlotsStreamsDoNot :
    (isSession .decodeFile = true ∧ ∃ t, exec .decodeFile (issued .decodeFile 1 2 0 (stored [(1, t1)])) = .next t) ∧
    (checkedSlot (.bsClear .s1) = some (.s1, .write) ∧
      ∃ t, exec (.bsClear .s1) (issued (.bsClear .s1) 0 0 0 (writing [true] [])) = .next t) ∧
    checkedSlot (.bsRead .s0) = some (.s0, .read) := ⟨⟨rfl, _, rfl⟩, ⟨rfl, _, rfl⟩, rfl⟩

/-- A byte read at the window's last byte, and a 32-bit write at offset 6. -/
theorem witness_OddAccessGetsBusError :
    (0x3FFF < 0x4000 ∧ Width.byte ≠ .word ∧
      (facing [.read .byte 0x3FFF] State.reset).inputs = .read .byte 0x3FFF :: []) ∧
    6 % 4 ≠ 0 ∧ (facing [.write .word 6 1] State.reset).inputs = .write .word 6 1 :: [] :=
  ⟨⟨by decide, by decide, rfl⟩, by decide, rfl⟩

/-- Reserved offsets at the ends of their ranges, reads and writes at the window's last word. -/
theorem witness_HostAccessesHaveNoSideEffects :
    (0x0050 ≤ 0x03FC ∧ 0x03FC < 0x0400 ∧ 0x03FC % 4 = 0) ∧ (0x1100 ≤ 0x1FFC ∧ 0x1FFC < 0x2000 ∧ 0x1FFC % 4 = 0) ∧
    (0x3FFC < 0x4000 ∧ 0x3FFC % 4 = 0 ∧
      (facing [.read .word 0x3FFC] State.reset).inputs = .read .word 0x3FFC :: []) ∧
    (¬ (0x0C00 = 0x0004 ∨ 0x0C00 = 0x000C ∨ 0x0C00 = 0x0010 ∨ 0x0C00 = 0x0018 ∨ (0x0800 ≤ 0x0C00 ∧ 0x0C00 < 0x0C00)) ∧
      (facing [.write .word 0x0C00 7] State.reset).inputs = .write .word 0x0C00 7 :: []) ∧
    (facing [.write .word 0x0018 1] State.reset).inputs = .write .word 0x0018 1 :: [] :=
  ⟨by decide, by decide, ⟨by decide, by decide, rfl⟩, ⟨by decide, rfl⟩, rfl⟩

theorem witness_StatusWordLayout : State.reset.status.busy = false := rfl

/-- An idle block with a closed, a read and a write slot. -/
theorem witness_SlotRegistersReadTheSlots :
    (writing [true] []).status.busy = false ∧ ((writing [true] []).slot .s0).mode = .closed ∧
    ((writing [true] []).slot .s1).mode = .write ∧ ((reading [1]).slot .s0).mode = .read ∧
    (reading [1]).status.busy = false := ⟨rfl, rfl, rfl, rfl, rfl⟩

theorem witness_TableWindowsReadTheTables : (stored [(1, aaab)]).status.busy = false := rfl

/-- The first and the last word of DATA_IN, and a command that runs. -/
theorem witness_DataInIsWrittenByTheHostOnly :
    (0 < 256 ∧ (facing [.write .word 0x0800 7] State.reset).inputs = .write .word (0x0800 + 4 * 0) 7 :: []) ∧
    (255 < 256 ∧ (facing [.write .word 0x0BFC 7] State.reset).inputs = .write .word (0x0800 + 4 * 255) 7 :: []) ∧
    ∃ t, exec (.bsRead .s0) (reading [1]) = .next t := ⟨⟨by decide, rfl⟩, ⟨by decide, rfl⟩, _, rfl⟩

theorem witness_BusyReadsThatAreExact : (issued .encodeFile 1 2 0 State.reset).status.busy = true := rfl

theorem witness_CommandIgnoresLaterOperandWrites :
    ∃ t, exec .encodeFile (issued .encodeFile 1 2 0 (stored [(1, aaab)])) = .next t := ⟨_, rfl⟩

/-- A reset while idle and one while a command runs. -/
theorem witness_ResetInputResetsTheBlock :
    ((facing [.reset 0] State.reset).status.busy = false ∧ (facing [.reset 0] State.reset).inputs = .reset 0 :: []) ∧
    (facing [.reset 3] (issued .encodeFile 1 2 0 State.reset)).inputs = .reset 3 :: [] := ⟨⟨rfl, rfl⟩, rfl⟩

/-- A session cut after three requests, a stream command cut after its write, and one cut before its only request. -/
theorem witness_ResetDuringSessionLeavesPrefix :
    (let s := facing [.reset 3] (issued .encodeFile 1 2 0 (stored [(1, aaab)]))
     isSession .encodeFile = true ∧ s.status.busy = true ∧ s.raced = false ∧
     decodeFields s.latchedFields = .ok .encodeFile ∧ s.io.neverFails ∧ s.inputs = .reset 3 :: [] ∧
     some 1 ≠ some s.latch.arg1 ∧ ∃ u, exec .encodeFile s = .next u) ∧
    (let s := facing [.reset 1] (issued (.bsFlush .s1) 0 0 0 (writing [true] [0xAA]))
     isSession (.bsFlush .s1) = false ∧ s.status.busy = true ∧ s.raced = false ∧
     decodeFields s.latchedFields = .ok (.bsFlush .s1) ∧ s.io.neverFails ∧ s.inputs = .reset 1 :: [] ∧ 1 ≠ 0 ∧
     ∃ u, exec (.bsFlush .s1) s = .next u) ∧
    (let s := facing [.reset 0] (issued (.bsOpen .s1 .write) 5 0 0 (stored []))
     s.status.busy = true ∧ s.raced = false ∧ decodeFields s.latchedFields = .ok (.bsOpen .s1 .write) ∧
     s.inputs = .reset 0 :: [] ∧ ∃ u, exec (.bsOpen .s1 .write) s = .next u) :=
  ⟨⟨rfl, rfl, rfl, rfl, always_done_never_fails, rfl, by decide, _, rfl⟩,
    ⟨rfl, rfl, rfl, rfl, always_done_never_fails, rfl, by decide, _, rfl⟩, ⟨rfl, rfl, rfl, rfl, _, rfl⟩⟩

/-- R362: a reset before the one request of a WRITE open creates no file; one after it finds the file created. -/
theorem test_reset_during_open :
    (onward (facing [.reset 0] (issued (.bsOpen .s1 .write) 5 0 0 (stored [])))).files = [] ∧
    (onward (facing [.reset 1] (issued (.bsOpen .s1 .write) 5 0 0 (stored [])))).files = [(5, [])] := by decide +kernel

/-- A storage that answers, a file that exists; a storage that fails; a file that does not exist. -/
theorem witness_BsOpenBindsTheSlot :
    let s := issued (.bsOpen .s0 .read) 5 0 0 (stored [(5, [0xAA])])
    (s.io.next.1 = .done ∧ (s.files.lookup s.latch.arg0).isSome = true) ∧
    ({ s with io := always .failed } : State).io.next.1 ≠ .done ∧
    ({ s with files := [] } : State).files.lookup s.latch.arg0 = none :=
  ⟨⟨rfl, rfl⟩, by decide, rfl⟩

theorem writing_wf : ((writing [true] []).slot .s1).wf := ⟨rfl, rfl, rfl, rfl, fun _ => rfl⟩

/-- A closed, a read and a write slot; the lengths 8192 and 8193. -/
theorem witness_BsWriteAppendsBits :
    (State.reset.slot .s1).mode = .closed ∧ ((reading []).slot .s0).mode = .read ∧
    ((writing [true] []).slot .s1).mode = .write ∧
    8192 < (issued (.bsWrite .s1) 8193 0 0 (writing [true] [])).latch.arg0.toNat ∧
    (issued (.bsWrite .s1) 8192 0 0 (writing [true] [])).latch.arg0.toNat ≤ 8192 ∧
    ((issued (.bsWrite .s1) 8192 0 0 (writing [true] [])).slot .s1).wf ∧
    ((issued (.bsWrite .s1) 8192 0 0 (writing [true] [])).slot .s1).acc.length +
      (issued (.bsWrite .s1) 8192 0 0 (writing [true] [])).latch.arg0.toNat < 2 ^ 64 :=
  ⟨rfl, rfl, rfl, by decide, by decide, writing_wf, by decide⟩

/-- The slots of every clause, an empty and a filled accumulator, a failing write and a failing sync. -/
theorem witness_BsFlushWritesTheAccumulator :
    (State.reset.slot .s1).mode = .closed ∧ ((reading []).slot .s0).mode = .read ∧
    (((writing [] []).slot .s1).mode = .write ∧ ((writing [] []).slot .s1).acc = [] ∧
      (writing [] []).io.next.1 = .done) ∧
    (((writing [true] []).slot .s1).acc ≠ [] ∧ (writing [true] []).io.next.2.next.1 = .done ∧
      ((writing [true] []).slot .s1).wpos.toNat + (pack ((writing [true] []).slot .s1).acc).length < 2 ^ 64) ∧
    (always .failed).next.1 ≠ .done ∧
    ({ planned := [.done], rest := some .failed, asked := 0 } : IoOracle).next.2.next.1 ≠ .done :=
  ⟨rfl, rfl, ⟨rfl, rfl, rfl⟩, ⟨by decide, rfl, by decide⟩, by decide, by decide⟩

theorem witness_BsClearTruncatesTheFile :
    (State.reset.slot .s1).mode = .closed ∧ ((reading []).slot .s0).mode = .read ∧
    ((writing [true] [1]).slot .s1).mode = .write ∧ (writing [true] [1]).io.next.1 = .done ∧
    ({ writing [true] [1] with io := always .notReached } : State).io.next.1 ≠ .done :=
  ⟨rfl, rfl, rfl, rfl, by decide⟩

theorem witness_BsRewindReturnsToStart :
    (State.reset.slot .s1).mode = .closed ∧ ((writing [] []).slot .s1).mode = .write ∧
    ((readingAt [1] 3).slot .s0).mode = .read := ⟨rfl, rfl, rfl⟩

/-- The slots of every clause, the lengths 8193 and 8192, a slot that needs a refill and a storage that fails it. -/
theorem witness_BsReadErrorsKeepResults :
    let s := issued (.bsRead .s0) 8192 0 0 { reading [1] with io := always .failed }
    (State.reset.slot .s1).mode = .closed ∧ ((writing [] []).slot .s1).mode = .write ∧
    ((reading [1]).slot .s0).mode = .read ∧
    8192 < (issued (.bsRead .s0) 8193 0 0 (reading [1])).latch.arg0.toNat ∧
    s.latch.arg0.toNat ≤ 8192 ∧ (s.slot .s0).cur.toNat = 8 * (s.slot .s0).valid.toNat ∧ s.io.next.1 ≠ .done ∧
    ∃ t, exec (.bsRead .s0) s = .next t ∧ t.status.err ≠ .noError :=
  ⟨rfl, rfl, rfl, by decide, by decide, rfl, by decide, _, rfl, by decide⟩

/-- A slot in the middle of its file's buffered bytes, asked for more bits than are left. -/
theorem witness_BsReadDeliversTheNextBits :
    let s := issued (.bsRead .s0) 8 0 0 (readingAt [0xFD, 0x07] 11)
    (s.slot .s0).coherent (s.files.contents (s.slot .s0).file) ∧ s.latch.arg0.toNat ≤ 8192 ∧
    (s.files.contents (s.slot .s0).file).length < 2 ^ 64 ∧
    5 = min s.latch.arg0.toNat (8 * (s.files.contents (s.slot .s0).file).length - (s.slot .s0).position) ∧
    s.io.neverFails ∧
    (exec (.bsRead .s0) s = .next (onward s) ∧ (onward s).status.err = .noError) :=
  ⟨⟨rfl, ⟨rfl, by decide, by decide, rfl, rfl, rfl⟩, by decide, by decide, rfl⟩, by decide, by decide, by decide,
    always_done_never_fails, rfl, by decide +kernel⟩

theorem witness_ReadBackGivesWhatWasWritten :
    (stored []).io.neverFails ∧ (List.replicate 7 true).length ≤ 7 ∧ (List.replicate 8192 true).length ≤ 8192 :=
  ⟨stored_never_fails [], by rw [List.length_replicate], by rw [List.length_replicate]⟩

theorem witness_FrameOfWriteAndRewind :
    (∃ t, exec (.bsWrite .s1) (issued (.bsWrite .s1) 8 0 5 (writing [true] [])) = .next t) ∧
    ∃ t, exec (.bsRewind .s0) (readingAt [1] 3) = .next t := ⟨⟨_, rfl⟩, _, rfl⟩

theorem witness_FrameOfRead : ∃ t, exec (.bsRead .s0) (readingAt [1] 3) = .next t := ⟨_, rfl⟩

theorem witness_FrameOfOpen :
    ∃ t, exec (.bsOpen .s1 .write) (issued (.bsOpen .s1 .write) 5 0 0 (stored [(5, [0xAA])])) = .next t := ⟨_, rfl⟩

/-- A flush that succeeds, of a slot whose file holds bytes below WPOS. -/
theorem witness_FrameOfFlushAndClear :
    let s := issued (.bsFlush .s1) 0 0 0 (writing [true] [1])
    (exec (.bsFlush .s1) s = .next (onward s) ∧ (onward s).status.err = .noError) ∧
    (0 < (s.slot .s1).wpos.toNat ∧ 0 < (s.files.contents (s.slot .s1).file).length) ∧
    ∃ t, exec (.bsClear .s1) s = .next t := ⟨⟨rfl, by decide +kernel⟩, by decide, _, rfl⟩

theorem witness_FrameOfSessions :
    isSession .encodeFile = true ∧
    ∃ t, exec .encodeFile (issued .encodeFile 1 2 0 (stored [(1, aaab)])) = .next t := ⟨rfl, _, rfl⟩

/-- The last bit of a packed byte, and a byte sequence just long enough. -/
theorem witness_PackAndUnpack :
    (7 < 8 ∧ (pack [true])[0]? = some 1) ∧ (16 + 7) / 8 ≤ [(1 : Byte), 2].length ∧ 15 < 16 := by decide

/-- A storage that answers and one that does not; a gap between the file's end and the write. -/
theorem witness_StorageWrite :
    (stored [(1, aaab)]).io.next.1 = .done ∧
    (((stored [(1, aaab)]).files.contents 1).length ≤ 5 ∧ 5 < 6) ∧
    ({ stored [(1, aaab)] with io := always .failed } : State).io.next.1 ≠ .done := ⟨rfl, by decide, by decide⟩

/-- The counts of "aaab". -/
def counts : Vector Word 256 := ((Vector.replicate 256 0).setIfInBounds 0x61 3).setIfInBounds 0x62 1

/-- Counts of the first and the last symbol. -/
def ends : Vector Word 256 := ((Vector.replicate 256 0).setIfInBounds 0 0xFFFFFFFF).setIfInBounds 255 1

/-- The count of one symbol. -/
def lone : Vector Word 256 := (Vector.replicate 256 0).setIfInBounds 0x78 3

theorem witness_TotalAndTreeCounts :
    (Tree.build counts).nodeCount ≠ 0 ∧ (Tree.build counts).nodeCount ≤ 3 := by decide +kernel

theorem witness_LeavesInSymbolOrder :
    freqOf ends 0 ≠ 0 ∧ freqOf ends 255 ≠ 0 ∧ freqOf counts 0x62 ≠ 0 := by decide +kernel

/-- Three leaves, two of which tie. -/
theorem witness_PopMinTakesTheLeast :
    ([0, 1, 2] : List NodeIx) ≠ [] ∧ ([0, 1, 2] : List NodeIx).Pairwise (· < ·) ∧ (1 : NodeIx) ∈ [0, 1, 2] ∧
    (1 : NodeIx) ≠ 0 ∧ 0 + 1 < (Tree.build counts).leafCount.toNat := by decide +kernel

/-- R225: the lighter leaf, of 0x62 at index 1, is taken first and becomes LEFT. -/
theorem test_first_popped_is_left :
    ((Tree.build counts).nodeAt 2).left = 1 ∧ ((Tree.build counts).nodeAt 2).right = 0 := by decide +kernel

theorem witness_CodesAreRootToLeafPaths :
    freqOf ({ stored [] with freq := counts } : State).freq 0x61 ≠ 0 ∧
    2 ≤ ({ stored [] with freq := counts } : State).buildTree.deriveCodes.tree.leafCount.toNat := by decide +kernel

theorem witness_CodesArePrefixFree :
    freqOf ({ stored [] with freq := ends } : State).freq 0 ≠ 0 ∧
    freqOf ({ stored [] with freq := ends } : State).freq 255 ≠ 0 ∧ (0 : Byte) ≠ 255 ∧
    freqOf ({ stored [] with freq := ends } : State).freq 1 = 0 := by decide +kernel

/-- Two leaves; one leaf; the bit just beyond a code. -/
theorem witness_CodeLengthBound :
    2 ≤ ({ stored [] with freq := ends } : State).buildTree.deriveCodes.tree.leafCount.toNat ∧
    (({ stored [] with freq := lone } : State).buildTree.deriveCodes.tree.leafCount = 1 ∧ freqOf lone 0x78 ≠ 0) ∧
    (entry ({ stored [] with freq := lone } : State).buildTree.deriveCodes.codeLen 0x78 0).toNat ≤ 1 := by
  decide +kernel

theorem witness_HeaderRoundTrip : (List.replicate 1024 (0xFF : Byte)).length = 1024 ∧ 255 < 256 :=
  ⟨List.length_replicate, by decide⟩

/-- An aliased session, the file it names changed under it. -/
theorem witness_AliasedSessionTouchesNoFile :
    let s := facing [.fileChange 1 [0xAA]] (issued .encodeFile 1 1 0 (stored [(1, aaab)]))
    isSession .encodeFile = true ∧ s.latch.arg0 = s.latch.arg1 ∧ decodeFields s.latchedFields = .ok .encodeFile ∧
    s.inputs = .fileChange 1 [0xAA] :: [] := ⟨rfl, rfl, rfl, rfl⟩

theorem witness_AbsentInputLeavesEmptyOutput :
    let s := issued .encodeFile 1 2 0 (stored [])
    isSession .encodeFile = true ∧ s.latch.arg0 ≠ s.latch.arg1 ∧ s.files.lookup s.latch.arg0 = none ∧
    s.io.next.1 = .done ∧ s.io.next.2.next.1 = .done := ⟨rfl, by decide, rfl, rfl, rfl⟩

/-- ENCODE of "aaab". -/
theorem witness_EncodeCompletes :
    let s := issued .encodeFile 1 2 0 (stored [(1, aaab)])
    s.io.neverFails ∧ s.latch.arg0 ≠ s.latch.arg1 ∧ s.files.lookup s.latch.arg0 = some aaab ∧
    ∀ v, aaab.count v < 2 ^ 32 :=
  ⟨always_done_never_fails, by decide, rfl, fun _ => Nat.lt_of_le_of_lt List.count_le_length (by decide)⟩

/-- What ENCODE of "aaab" leaves. -/
theorem encode_aaab_done : ∃ t,
    exec .encodeFile (issued .encodeFile 1 2 0 (stored [(1, aaab)])) = .next t ∧ t.status.err = .noError := by
  obtain ⟨n, ne, hF, hc⟩ := witness_EncodeCompletes
  rcases Laws.encode_run _ aaab ne hF with ⟨t, e, -⟩ | ⟨t, -, -, v, h⟩ | ⟨p, t, -, h⟩
  · exact ⟨_, congrArg Host.Outcome.next e, rfl⟩
  · exact absurd (hc v) (Nat.not_lt.2 h)
  · exact absurd n h

theorem witness_EncodeOutputClosedForm :
    (issued .encodeFile 1 2 0 (stored [(1, aaab)])).files.lookup
      (issued .encodeFile 1 2 0 (stored [(1, aaab)])).latch.arg0 = some aaab ∧
    ∃ t, exec .encodeFile (issued .encodeFile 1 2 0 (stored [(1, aaab)])) = .next t ∧ t.status.err = .noError :=
  ⟨rfl, encode_aaab_done⟩

/-- An input of 2^32 bytes 00 (vector T14). -/
theorem witness_EncodeCountOverflow (F : List Byte) (hF : F = List.replicate (2 ^ 32) 0) :
    let s := issued .encodeFile 1 2 0 (stored [(1, F)])
    s.io.neverFails ∧ s.latch.arg0 ≠ s.latch.arg1 ∧ s.files.lookup s.latch.arg0 = some F ∧ 2 ^ 32 ≤ F.count 0 :=
  ⟨always_done_never_fails, (by decide : (1 : Word) ≠ 2), rfl, by rw [hF, List.count_replicate_self]⟩

/-- Vector D11 and vector D12: 1024 zero bytes, then FF. -/
theorem witness_DecodeWritesTheWalk :
    let F : List Byte := List.replicate 1024 0 ++ [0xFF]
    let s := issued .decodeFile 1 2 0 (stored [(1, F)])
    s.io.neverFails ∧ s.latch.arg0 ≠ s.latch.arg1 ∧ s.files.lookup s.latch.arg0 = some F ∧ 1024 ≤ F.length ∧
    F.length < 2 ^ 60 ∧ decodedFile .symbolCount F = some [] ∧ decodedFile .eofOnly F = none :=
  ⟨always_done_never_fails, by decide, rfl, by decide +kernel, by decide +kernel, by decide +kernel,
    by decide +kernel⟩

theorem witness_ShortHeaderIsMalformed :
    let F : List Byte := List.replicate 1023 0
    let s := issued .decodeFile 1 2 0 (stored [(1, F)])
    s.io.neverFails ∧ s.latch.arg0 ≠ s.latch.arg1 ∧ s.files.lookup s.latch.arg0 = some F ∧ F.length < 1024 :=
  ⟨always_done_never_fails, by decide, rfl, by rw [List.length_replicate]; decide⟩

/-- What DECODE of vectors D11 and D12 leaves: it completes, or stops in DECODE_BODY. -/
theorem decode_d11_d12 (r : StopRule) (p : Phase)
    (h : decodedFile r (List.replicate 1024 0 ++ [0xFF]) = some [] ∧ p = .done ∨
      decodedFile r (List.replicate 1024 0 ++ [0xFF]) = none ∧ p = .decodeBody) :
    ∃ t, exec .decodeFile (issued .decodeFile 1 2 0
      { stored [(1, List.replicate 1024 0 ++ [0xFF])] with stop := r }) = .next t ∧ t.status.phase = p := by
  obtain ⟨n, -, -, l, l', -, -⟩ := witness_DecodeWritesTheWalk
  rcases Laws.decode_run (issued .decodeFile 1 2 0 { stored [(1, List.replicate 1024 0 ++ [0xFF])] with stop := r }) _
    (by decide : (1 : Word) ≠ 2) rfl with ⟨k, -⟩ | ⟨-, k⟩ | ⟨_, _, -, k⟩
  · exact absurd l (Nat.not_le.2 k)
  · obtain ⟨t, -, ⟨out, d, e, -⟩ | ⟨d, t', e, -⟩⟩ := k l'
    · rcases h with ⟨-, rfl⟩ | ⟨d', -⟩
      · exact ⟨_, congrArg Host.Outcome.next e, rfl⟩
      · exact nomatch d.symm.trans d'
    · rcases h with ⟨d', -⟩ | ⟨-, rfl⟩
      · exact nomatch d.symm.trans d'
      · exact ⟨_, congrArg Host.Outcome.next e, rfl⟩
  · exact absurd n k

/-- DECODE ends in DONE (D11), in DECODE_BODY (D12), and, where the sync of 1024 zero bytes fails, in FLUSH. -/
theorem witness_DecodeClearsCodeTable :
    let s (r : StopRule) := issued .decodeFile 1 2 0 { stored [(1, List.replicate 1024 0 ++ [0xFF])] with stop := r }
    let f := { issued .decodeFile 1 2 0 (stored [(1, List.replicate 1024 0)]) with
      io := { planned := List.replicate 4 .done, rest := some .failed, asked := 0 } }
    (∃ t, exec .decodeFile (s .symbolCount) = .next t ∧ t.status.phase = .done) ∧
    (∃ t, exec .decodeFile (s .eofOnly) = .next t ∧ t.status.phase = .decodeBody) ∧
    exec .decodeFile f = .next (onward f) ∧ (onward f).status.phase = .flush :=
  have d := witness_DecodeWritesTheWalk.2.2.2.2.2
  ⟨decode_d11_d12 _ _ (.inl ⟨d.1, rfl⟩), decode_d11_d12 _ _ (.inr ⟨d.2, rfl⟩), rfl, by decide +kernel⟩

theorem witness_DecodeInvertsEncode : ∃ s t u : State,
    s.files.lookup s.latch.arg0 = some aaab ∧ exec .encodeFile s = .next t ∧ t.status.err = .noError ∧
    u.files.lookup u.latch.arg0 = t.files.lookup s.latch.arg1 ∧ u.latch.arg0 ≠ u.latch.arg1 ∧
    u.stopL = .symbolCount ∧ u.io.neverFails := by
  obtain ⟨t, e, n⟩ := encode_aaab_done
  exact ⟨_, t, issued .decodeFile 2 3 0 (stored t.files), rfl, e, n, rfl,
    (by decide : (2 : Word) ≠ 3), rfl, always_done_never_fails⟩

theorem readingAt_inv : (readingAt [0xFD, 0x07] 11).Inv :=
  ⟨by decide, ⟨rfl, by decide, by decide, rfl, rfl, rfl⟩, rfl, fun _ => rfl, fun h => absurd rfl h,
    ⟨rfl, rfl, rfl, fun _ => rfl⟩, by decide, fun h => absurd h (by decide)⟩

theorem witness_StepKeepsInvariant :
    (readingAt [0xFD, 0x07] 11).Inv ∧ ∃ t, step (facing [.write .word 0x0004 0x005] (readingAt [0xFD, 0x07] 11)) = .next t :=
  ⟨readingAt_inv, _, rfl⟩

theorem witness_StepKeepsTreeAndResultRanges :
    let s := ({ stored [] with freq := counts, resultBits := 8192 } : State).buildTree
    s.tree.countsOk ∧ s.resultBits.toNat ≤ 8192 ∧ ∃ t, step s = .next t :=
  ⟨by unfold Tree.countsOk; decide +kernel, by decide +kernel, _, rfl⟩

theorem witness_StepStopsOnlyOutsideTheWindow :
    0x4000 ≤ 0x4000 ∧ (facing [.read .word 0x4000] State.reset).inputs = .read .word 0x4000 :: [] ∧
    step (facing [.write .byte 0x4000 0] State.reset) = .fault .outsideWindow := ⟨by decide, rfl, rfl⟩

/-- MODE changes at a BS_OPEN, at a session, and at a reset. -/
theorem witness_ModeChangesOnlyByOpenSessionReset :
    let o := issued (.bsOpen .s1 .write) 5 0 0 (stored [])
    let a := issued .encodeFile 1 1 0 (readingAt [1] 0)
    let r := facing [.reset 0] (readingAt [1] 0)
    (step o = .next (onward o) ∧ ((onward o).slot .s1).mode ≠ (o.slot .s1).mode) ∧
    (step a = .next (onward a) ∧ ((onward a).slot .s0).mode ≠ (a.slot .s0).mode) ∧
    step r = .next (onward r) ∧ ((onward r).slot .s0).mode ≠ (r.slot .s0).mode :=
  ⟨⟨rfl, by decide +kernel⟩, ⟨rfl, by decide +kernel⟩, rfl, by decide +kernel⟩

theorem witness_ResultsChangeOnlyByReadOrReset :
    let g := issued (.bsRead .s0) 8 0 0 (readingAt [1] 0)
    let r := facing [.reset 0] { State.reset with resultBits := 8 }
    (step g = .next (onward g) ∧ (onward g).resultBits ≠ g.resultBits) ∧
    step r = .next (onward r) ∧ (onward r).resultBits ≠ r.resultBits :=
  ⟨⟨rfl, by decide +kernel⟩, rfl, by decide +kernel⟩

theorem witness_HostAccessesKeepTablesAndFiles :
    (facing [.read .word 0x0008] State.reset).inputs = .read .word 0x0008 :: [] ∧
    (∃ t, step (facing [.read .word 0x0008] State.reset) = .next t) ∧
    (∃ t, step (facing [.write .word 0x0004 0x006] (stored [(1, aaab)])) = .next t) ∧
    ((stored [(1, aaab)]).files.lookup 1).isSome = true := ⟨rfl, ⟨_, rfl⟩, ⟨_, rfl⟩, rfl⟩

end Sys2Proof.Tests
end

section
/-! The statements of spec/00_scope.md: packing bit by bit (rule R12), and the core's turn (rules R4, R8, R145). -/

namespace Sys2Proof.Proofs

open Sys2Proof.Machine Sys2Proof.Laws

/-- R12: packing takes eight bits at a time, or what is left. -/
theorem pack_eq_cons {x : BitSeq} (hx : x ≠ []) : pack x = byteOfBits (x.take 8) :: pack (x.drop 8) := by
  cases x using pack.fun_cases_unfolding with
  | case1 => exact absurd rfl hx
  | case2 => rfl
  | case3 x _ not_eight =>
    have short : x.length < 8 := by
      by_contra long
      match x, not_eight with
      | _ :: _ :: _ :: _ :: _ :: _ :: _ :: _ :: _, not_eight => exact not_eight _ _ _ _ _ _ _ _ _ rfl
      | [], _ | [_], _ | [_, _], _ | [_, _, _], _ | [_, _, _, _], _ | [_, _, _, _, _], _ | [_, _, _, _, _, _], _
      | [_, _, _, _, _, _, _], _ => simp at long
    rw [List.take_of_length_le short.le, List.drop_of_length_le short.le, pack_nil]

/-- R12: byte j of a packed sequence is made of the bits from 8j on. -/
theorem eq_byteOfBits_of_pack_getElem? {x : BitSeq} {j : Nat} {b : Byte} (h : (pack x)[j]? = some b) :
    b = byteOfBits ((x.drop (8 * j)).take 8) := by
  induction j generalizing x with
  | zero =>
    have hx : x ≠ [] := by rintro rfl; simp at h
    rw [pack_eq_cons hx, List.getElem?_cons_zero] at h
    exact (Option.some.inj h).symm
  | succ j ih =>
    have hx : x ≠ [] := by rintro rfl; simp at h
    rw [pack_eq_cons hx, List.getElem?_cons_succ] at h
    rw [ih h, List.drop_drop, show 8 + 8 * j = 8 * (j + 1) by omega]

/-- R12: bit i of byte j of a packed sequence is its bit 8j + i, and 0 beyond its end. -/
theorem pack_getLsbD {x : BitSeq} {j i : Nat} {b : Byte} (hi : i < 8) (h : (pack x)[j]? = some b) :
    b.getLsbD i = (x[8 * j + i]?).getD false := by
  rw [eq_byteOfBits_of_pack_getElem? h, byteOfBits_get _ i hi, List.getElem?_take_of_lt hi, List.getElem?_drop]

/-- A sequence of bytes long enough for n bits has the byte of each of them. -/
theorem byte_of_bit {bytes : List Byte} {n k : Nat} (h : (n + 7) / 8 ≤ bytes.length) (hk : k < n) :
    ∃ b, bytes[k / 8]? = some b :=
  ⟨_, List.getElem?_eq_getElem (show k / 8 < bytes.length by omega)⟩

/-- R12: unpacking the packed sequence gives it back. -/
theorem unpack_pack (x : BitSeq) : unpack (pack x) x.length = x := by
  have enough : (x.length + 7) / 8 ≤ (pack x).length := (pack_length x).ge
  have same_length := unpack_len (pack x) x.length enough
  refine List.ext_getElem? fun k => ?_
  by_cases hk : k < x.length
  · obtain ⟨b, hb⟩ := byte_of_bit enough hk
    calc (unpack (pack x) x.length)[k]?
        = some (b.getLsbD (k % 8)) := by rw [unpack_get _ _ _ hk, hb, Option.map_some]
      _ = some ((x[8 * (k / 8) + k % 8]?).getD false) := by rw [pack_getLsbD (Nat.mod_lt k (by decide)) hb]
      _ = x[k]? := by rw [Nat.div_add_mod, List.getElem?_eq_getElem hk, Option.getD_some]
  · rw [List.getElem?_eq_none (by omega), List.getElem?_eq_none (by omega)]

/-- Settles O35: the bits by `pack_getLsbD` and `unpack_get`, the inverse by comparing bit by bit. -/
theorem packAndUnpack : Obligations.PackAndUnpack := by
  refine ⟨pack_length, fun _ _ _ _ hi h => pack_getLsbD hi h, fun bytes n enough => ⟨unpack_len bytes n enough, ?_⟩,
    unpack_pack⟩
  intro k hk
  obtain ⟨b, hb⟩ := byte_of_bit enough hk
  exact ⟨b, hb, by rw [unpack_get _ _ _ hk, hb, Option.map_some]⟩

/-- R145: a `wait` that finds BUSY = 1 lets the core take its turn and stays to come. -/
theorem step_wait_busy {s : State} {later : List Input} (h : s.inputs = .wait :: later) (hb : s.status.busy = true) :
    step s = runLatched s := by
  rw [step_cons h]
  exact if_pos hb

/-- Settles O5: each of the core's turns runs the latch, which no raced file disturbs. -/
theorem stepRunsLatchedInstruction : Obligations.StepRunsLatchedInstruction := by
  intro s i busy clean latched
  refine ⟨fun h => ?_, fun later h => ?_, fun later h => ?_⟩
  · rw [step_nil_busy h busy, runLatched_clean latched clean]
  · rw [step_core_busy h busy]
    exact runLatched_clean (s := { s with inputs := later }) latched clean
  · rw [step_wait_busy h busy, runLatched_clean latched clean]

end Sys2Proof.Proofs
end

section
/-! The statements of spec/10_state.md, part 1: what a stream command leaves of the state, said once (rules R31 to R35,
R57, R100, R330, R332). -/

namespace Sys2Proof.Proofs

open Sys2Proof.Machine Sys2Proof.Laws

/-! ## The storage between two states -/

/-- From m to m' no file is gone and the canonical form is kept (R100). -/
def Grows (m m' : Memory) : Prop := (∀ g, (m.lookup g).isSome → (m'.lookup g).isSome) ∧ (m.wf → m'.wf)

theorem Grows.refl (m : Memory) : Grows m m := ⟨fun _ => id, id⟩

theorem grows_of_touched {f : FileId} {m m' : Memory} (h : Touched f m m') : Grows m m' := ⟨h.2.1, h.2.2⟩

theorem grows_update (m : Memory) (f : FileId) (b : List Byte) : Grows m (m.update f b) :=
  grows_of_touched (touched_update f m b)

theorem grows_create (m : Memory) (f : FileId) : Grows m (m.create f) := by
  unfold Memory.create
  split
  · exact Grows.refl m
  · exact grows_update m f []

/-- A slot that stays in its mode and on its file stays bound where no file is gone. -/
theorem bound_of_grows {x y : Slot} {m m' : Memory} (h : x.bound m) (mode : y.mode = x.mode) (file : y.file = x.file)
    (g : Grows m m') : y.bound m' := fun open_ => by
  rw [file]
  exact g.1 _ (h (mode ▸ open_))

theorem reset_bound (m : Memory) : Slot.reset.bound m := fun open_ => absurd rfl open_

/-! ## What a read does to its slot, and how much it delivers -/

/-- SLOT[i] is a read slot that meets its invariant (R33). -/
def ReadSlotOk (i : SlotId) (s : State) : Prop := (s.slot i).mode = .read ∧ (s.slot i).wf

/-- A computation's states before and after: SLOT[i] stays a read slot that meets its invariant. -/
def KeepsReadSlot (i : SlotId) (s t : State) : Prop := ReadSlotOk i s → ReadSlotOk i t

theorem KeepsReadSlot.refl (i : SlotId) (s : State) : KeepsReadSlot i s s := id

theorem KeepsReadSlot.trans (i : SlotId) (s t u : State) (h : KeepsReadSlot i s t) (h' : KeepsReadSlot i t u) :
    KeepsReadSlot i s u := h' ∘ h

theorem getSlot_keepsReadSlot (i j : SlotId) : Relates (KeepsReadSlot i) (getSlot j) := KeepsReadSlot.refl i

theorem refill_keepsReadSlot (i : SlotId) : Relates (KeepsReadSlot i) (refill i) := by
  intro s ⟨mode, wf⟩
  unfold after ReadSlotOk
  rcases refill_cases i s with ⟨-, e⟩ | ⟨-, e⟩ <;> rw [e]
  · simp only [slot_setSlot_self]
    exact ⟨mode, refilled_wf wf mode (List.length_take_le _ _)⟩
  · cases i <;> exact ⟨mode, wf⟩

theorem take_keepsReadSlot (i : SlotId) (out : BitSeq) (size : Nat) : Relates (KeepsReadSlot i) (take i out size) := by
  intro s ⟨mode, wf⟩
  unfold after ReadSlotOk
  rw [take_apply]
  simp only [slot_setSlot_self]
  exact ⟨mode, takeBits_wf wf mode (Nat.min_le_right _ _)⟩

theorem readMore_keepsReadSlot (i : SlotId) (size : Nat) :
    ∀ (k : Nat) (out : BitSeq), Relates (KeepsReadSlot i) (readMore k i out size)
  | 0, out => relates_pure (KeepsReadSlot.refl i) out
  | k + 1, out => by
    unfold readMore
    refine relates_ite ?_ (relates_pure (KeepsReadSlot.refl i) out)
    refine relates_bind (KeepsReadSlot.trans i) (refill_keepsReadSlot i) fun _ => ?_
    refine relates_bind (KeepsReadSlot.trans i) (getSlot_keepsReadSlot i i) fun x => ?_
    refine relates_ite (relates_pure (KeepsReadSlot.refl i) out) ?_
    exact relates_bind (KeepsReadSlot.trans i) (take_keepsReadSlot i out size) fun out' =>
      readMore_keepsReadSlot i size k out'

theorem readChunks_keepsReadSlot (i : SlotId) (size : Nat) : Relates (KeepsReadSlot i) (readChunks i size) :=
  relates_bind (KeepsReadSlot.trans i) (take_keepsReadSlot i [] size) fun out => readMore_keepsReadSlot i size size out

/-- R172, R173: a read keeps its slot's invariant, whatever the file holds and whether a refill fails. -/
theorem readBits_keepsReadSlot (i : SlotId) (size : Nat) : Relates (KeepsReadSlot i) (readBits i size) := by
  unfold readBits
  refine relates_bind (KeepsReadSlot.trans i) (getSlot_keepsReadSlot i i) fun x => ?_
  refine relates_ite ?_ (readChunks_keepsReadSlot i size)
  refine relates_bind (KeepsReadSlot.trans i) (refill_keepsReadSlot i) fun _ => ?_
  refine relates_bind (KeepsReadSlot.trans i) (getSlot_keepsReadSlot i i) fun y => ?_
  exact relates_ite (relates_pure (KeepsReadSlot.refl i) []) (readChunks_keepsReadSlot i size)

/-- The computation answers at most n bits. -/
def DeliversAtMost (n : Nat) (m : Cmd BitSeq) : Prop := ∀ s out t, m s = .ok out t → out.length ≤ n

theorem deliversAtMost_pure {n : Nat} {out : BitSeq} (h : out.length ≤ n) : DeliversAtMost n (pure out) := by
  rintro s _ t ⟨⟩
  exact h

/-- Only what follows an answer that can come need be bounded. -/
theorem deliversAtMost_bind {α : Type} {n : Nat} {m : Cmd α} {f : α → Cmd BitSeq}
    (h : ∀ s a t, m s = .ok a t → DeliversAtMost n (f a)) : DeliversAtMost n (m >>= f) := by
  intro s out t e
  rw [bind_apply] at e
  cases hm : m s with
  | ok a u => exact h s a u hm u out t (by simpa only [hm] using e)
  | error x u => rw [hm] at e; cases e

theorem deliversAtMost_ite {n : Nat} {c : Prop} [Decidable c] {m m' : Cmd BitSeq} (h : c → DeliversAtMost n m)
    (h' : ¬ c → DeliversAtMost n m') : DeliversAtMost n (if c then m else m') := by
  split
  · exact h ‹_›
  · exact h' ‹_›

/-- R173: `Take` fills `out` up to the size asked for at most. -/
theorem take_length_le {i : SlotId} {out out' : BitSeq} {size : Nat} {s t : State} (h : out.length ≤ size)
    (e : take i out size s = .ok out' t) : out'.length ≤ size := by
  rw [take_apply] at e
  cases e
  have taken : ∀ (x : Slot) (k : Nat), (x.takeBits k).1.length ≤ k := fun x k => List.length_take_le _ _
  have := taken (s.slot i) (min (size - out.length) ((s.slot i).validBits - (s.slot i).cur.toNat))
  rw [List.length_append]
  omega

theorem readMore_deliversAtMost (i : SlotId) (size : Nat) :
    ∀ (k : Nat) (out : BitSeq), out.length ≤ size → DeliversAtMost size (readMore k i out size)
  | 0, _, h => deliversAtMost_pure h
  | k + 1, out, h => by
    unfold readMore
    refine deliversAtMost_ite (fun _ => ?_) fun _ => deliversAtMost_pure h
    refine deliversAtMost_bind fun _ _ _ _ => deliversAtMost_bind fun _ x _ _ => ?_
    refine deliversAtMost_ite (fun _ => deliversAtMost_pure h) fun _ => ?_
    exact deliversAtMost_bind fun _ out' _ e => readMore_deliversAtMost i size k out' (take_length_le h e)

theorem readChunks_deliversAtMost (i : SlotId) (size : Nat) : DeliversAtMost size (readChunks i size) :=
  deliversAtMost_bind fun _ out _ e => readMore_deliversAtMost i size size out (take_length_le (Nat.zero_le _) e)

/-- R173: a read delivers no more bits than it was asked for. -/
theorem readBits_deliversAtMost (i : SlotId) (size : Nat) : DeliversAtMost size (readBits i size) := by
  unfold readBits
  refine deliversAtMost_bind fun _ x _ _ => ?_
  refine deliversAtMost_ite (fun _ => ?_) fun _ => readChunks_deliversAtMost i size
  refine deliversAtMost_bind fun _ _ _ _ => deliversAtMost_bind fun _ y _ _ => ?_
  exact deliversAtMost_ite (fun _ => deliversAtMost_pure (Nat.zero_le _)) fun _ => readChunks_deliversAtMost i size

/-! ## What a stream command leaves -/

theorem eq_or_eq_other (j k : SlotId) : k = j ∨ k = j.other := by cases j <;> cases k <;> decide

/-- What the stream command i on SLOT[j] leaves of the state s: it completes; no file is gone; its slot keeps its
invariant, and its mode but for BS_OPEN; only BS_READ writes the results, in their range; the rest stays. -/
structure StreamLeaves (i : Instr) (j : SlotId) (s t : State) : Prop where
  files : Grows s.files t.files
  other : t.slot j.other = s.slot j.other
  slotWf : (s.slot j).wf → (t.slot j).wf
  slotBound : (s.slot j).bound s.files → (t.slot j).bound t.files
  mode : (t.slot j).mode = (s.slot j).mode ∨ ∃ d, i = .bsOpen j d
  results : sameResults s t ∨ i = .bsRead j ∧ t.resultBits.toNat ≤ 8192
  tree : t.tree = s.tree
  walk : sameWalk s t
  busy : t.status.busy = false
  stopL : t.stopL = .symbolCount

/-- A command that completes over changed storage and SLOT[j], a slot that stays in its mode and on its file. -/
theorem streamLeaves_of_slot {i : Instr} {j : SlotId} {s : State} {x : Slot} (e : ErrCode) (o : IoOracle) {m : Memory}
    (n : Nat) (grows : Grows s.files m) (wf : (s.slot j).wf → x.wf) (mode : x.mode = (s.slot j).mode)
    (file : x.file = (s.slot j).file) :
    StreamLeaves i j s (ended e .idle ({ s with io := o, files := m, taken := n }.setSlot j x)) := by
  cases j <;> exact ⟨grows, rfl, wf, fun b => bound_of_grows b mode file grows, .inl mode, .inl ⟨rfl, rfl⟩, rfl,
    ⟨rfl, rfl⟩, rfl, rfl⟩

/-- A command that completes and changes nothing. -/
theorem streamLeaves_ended (i : Instr) (j : SlotId) (s : State) (e : ErrCode) :
    StreamLeaves i j s (ended e .idle s) := by
  have := streamLeaves_of_slot (i := i) (j := j) (x := s.slot j) e s.io s.taken (Grows.refl s.files) id rfl rfl
  rwa [slot_setSlot s j] at this

theorem bsOpen_leaves {j : SlotId} {d : Dir} {s t : State} (h : exec (.bsOpen j d) s = .next t) :
    StreamLeaves (.bsOpen j d) j s t := by
  obtain ⟨e, x, o, m, h', ends⟩ := bsOpen_ends j d s
  rw [h'] at h
  cases h
  have made : Grows s.files m ∧ x.wf ∧ x.bound m := by
    rcases ends with ⟨-, rfl, reads, writes⟩ | ⟨-, rfl, rfl⟩
    · cases d with
      | read =>
        obtain ⟨exists_, rfl⟩ := reads rfl
        exact ⟨Grows.refl _, opened_wf _ _, fun _ => exists_⟩
      | write =>
        rw [writes rfl]
        exact ⟨grows_create _ _, opened_wf _ _, fun _ => by simp [lookup_create]⟩
    · exact ⟨Grows.refl _, reset_slot_wf, reset_bound _⟩
  obtain ⟨grows, wf, bound⟩ := made
  cases j <;> exact ⟨grows, rfl, fun _ => wf, fun _ => bound, .inr ⟨d, rfl⟩, .inl ⟨rfl, rfl⟩, rfl, ⟨rfl, rfl⟩, rfl, rfl⟩

theorem bsWrite_leaves {j : SlotId} {s t : State} (h : exec (.bsWrite j) s = .next t) :
    StreamLeaves (.bsWrite j) j s t := by
  obtain ⟨e, x, h', ends⟩ := bsWrite_ends j s
  rw [h'] at h
  cases h
  have kept := streamLeaves_of_slot (i := .bsWrite j) (j := j) (x := x) e s.io s.taken (Grows.refl s.files)
  rcases ends with ⟨-, rfl, write, -⟩ | ⟨-, rfl, -⟩
  · exact kept (fun w => append_wf w write _) rfl rfl
  · exact kept id rfl rfl

theorem bsRewind_leaves {j : SlotId} {s t : State} (h : exec (.bsRewind j) s = .next t) :
    StreamLeaves (.bsRewind j) j s t := by
  obtain ⟨e, x, h', ends⟩ := bsRewind_ends j s
  rw [h'] at h
  cases h
  have kept := streamLeaves_of_slot (i := .bsRewind j) (j := j) (x := x) e s.io s.taken (Grows.refl s.files)
  rcases ends with ⟨-, rfl, read⟩ | ⟨-, rfl, -⟩
  · exact kept (fun w => rewound_wf w read) rfl rfl
  · exact kept id rfl rfl

theorem bsFlush_leaves {j : SlotId} {s t : State} (h : exec (.bsFlush j) s = .next t) :
    StreamLeaves (.bsFlush j) j s t := by
  obtain ⟨e, x, o, m, n, h', touched, ends⟩ := bsFlush_ends j s
  rw [h'] at h
  cases h
  have kept := streamLeaves_of_slot (i := .bsFlush j) (j := j) (x := x) e o n (grows_of_touched touched)
  rcases ends with ⟨-, rfl, -, write⟩ | ⟨-, rfl, -⟩
  · exact kept (fun w => flushed_wf w write _) rfl rfl
  · exact kept id rfl rfl

/-- R170: a write slot's invariant does not speak of WPOS. -/
theorem wpos_zero_wf {x : Slot} (h : x.wf) (m : x.mode = .write) : Slot.wf { x with wpos := 0 } := by
  simp only [Slot.wf, m] at h ⊢
  exact h

theorem bsClear_leaves {j : SlotId} {s t : State} (h : exec (.bsClear j) s = .next t) :
    StreamLeaves (.bsClear j) j s t := by
  obtain ⟨e, x, o, m, n, h', touched, ends⟩ := bsClear_ends j s
  rw [h'] at h
  cases h
  have kept := streamLeaves_of_slot (i := .bsClear j) (j := j) (x := x) e o n (grows_of_touched touched)
  rcases ends with ⟨-, rfl, -, write⟩ | ⟨-, rfl, -⟩
  · exact kept (fun w => wpos_zero_wf w write) rfl rfl
  · exact kept id rfl rfl

/-- A read that is asked for at most 8192 bits of an open read slot, with its result written. -/
theorem read_leaves {j : SlotId} {s : State} {n : Nat} (read : (s.slot j).mode = .read) (range : n ≤ 8192) :
    StreamLeaves (.bsRead j) j s (runStream (readBits j n >>= writeReadResult) s) := by
  cases run : readBits j n s with
  | error e t =>
    obtain ⟨x, o, rfl, mode, file⟩ := (readBits_onlyReads j n).of_error run
    have slotOk := (readBits_keepsReadSlot j n).of_error run
    rw [runStream_error (t := { s with io := o }.setSlot j x) (by rw [bind_apply, run])]
    exact streamLeaves_of_slot e o s.taken (Grows.refl s.files)
      (fun w => by simpa using (slotOk ⟨read, w⟩).2) mode file
  | ok out t =>
    obtain ⟨x, o, rfl, mode, file⟩ := (readBits_onlyReads j n).of_ok run
    have slotOk := (readBits_keepsReadSlot j n).of_ok run
    have len : out.length ≤ 8192 := (readBits_deliversAtMost j n s out _ run).trans range
    rw [runStream_ok (by rw [bind_apply, run]; exact modify_apply _ _)]
    have l := streamLeaves_of_slot (i := .bsRead j) (j := j) (x := x) .noError o s.taken (Grows.refl s.files)
      (fun w => by simpa using (slotOk ⟨read, w⟩).2) mode file
    have bits : (store 32 out.length).toNat ≤ 8192 := by rwa [store_toNat (by omega)]
    cases j <;> exact ⟨l.files, l.other, l.slotWf, l.slotBound, l.mode, .inr ⟨rfl, bits⟩, rfl, l.walk, l.busy, l.stopL⟩

theorem bsRead_leaves {j : SlotId} {s t : State} (h : exec (.bsRead j) s = .next t) :
    StreamLeaves (.bsRead j) j s t := by
  rw [bsRead_run] at h
  cases h
  split
  · exact streamLeaves_ended _ j s _
  · split
    · next read =>
      split
      · exact streamLeaves_ended _ j s _
      · next range => exact read_leaves read (Nat.le_of_not_gt range)
    · exact streamLeaves_ended _ j s _

/-- What a command can do (R332): a session ends in a close and a completion over a state that keeps what a session
keeps; a stream command leaves what `StreamLeaves` says. -/
theorem exec_leaves {i : Instr} {s t : State} (h : exec i s = .next t) :
    (isSession i = true ∧ ∃ e p u, t = ended e p (closeSession u) ∧ SessionKeeps s.operandOutFile s u) ∨
    ∃ j, StreamLeaves i j s t := by
  by_cases session : isSession i = true
  · obtain ⟨e, p, u, h', keeps, -⟩ := session_outcome i s session
    exact .inl ⟨session, e, p, u, Host.Outcome.next.inj (h.symm.trans h'), keeps⟩
  · cases i with
    | bsOpen j d => exact .inr ⟨j, bsOpen_leaves h⟩
    | bsWrite j => exact .inr ⟨j, bsWrite_leaves h⟩
    | bsFlush j => exact .inr ⟨j, bsFlush_leaves h⟩
    | bsRead j => exact .inr ⟨j, bsRead_leaves h⟩
    | bsRewind j => exact .inr ⟨j, bsRewind_leaves h⟩
    | bsClear j => exact .inr ⟨j, bsClear_leaves h⟩
    | encodeFile => exact absurd rfl session
    | decodeFile => exact absurd rfl session

end Sys2Proof.Proofs
end

section
/-! The statements of spec/10_state.md, part 2: the machine's invariant (rules R31 to R35, R43, R54, R100), the ranges
of the tree and the results (R39, R40, R57), and what changes a slot's MODE (R32) and the results (R57, R68). -/

namespace Sys2Proof.Proofs

open Sys2Proof.Machine Sys2Proof.Laws

/-! ## The core's transition -/

/-- The end of a command has BUSY = 0 and STOP_L at its reset value (R330). -/
theorem exec_idle {i : Instr} {s t : State} (run : exec i s = .next t) :
    t.status.busy = false ∧ t.stopL = .symbolCount := by
  rcases exec_leaves run with ⟨-, e, p, u, rfl, -⟩ | ⟨j, l⟩
  · exact ⟨rfl, rfl⟩
  · exact ⟨l.busy, l.stopL⟩

/-- The core's transition runs the latched command over some storage and oracle, and only the storage, the oracle and
STATUS are set after it (as they are after a raced command); or it completes an undecodable latch. No file is gone. -/
theorem runLatched_leaves {s t : State} (h : runLatched s = .next t) :
    (∃ i m o n u m' o' st, decodeFields s.latchedFields = .ok i ∧
      exec i { s with files := m, io := o, taken := n } = .next u ∧ Grows s.files m ∧ Grows u.files m' ∧
      st.busy = false ∧ t = { u with files := m', io := o', status := st }) ∨
    t = complete .illegalCmd .idle s := by
  rcases runLatched_cases h with ⟨i, u, latched, run | ⟨m, o, n, run, dom, wf, m', o', st, rfl, idle, dom', wf'⟩⟩ | done
  · exact .inl ⟨i, s.files, s.io, s.taken, t, t.files, t.io, t.status, latched, run, Grows.refl _, Grows.refl _,
      (exec_idle run).1, rfl⟩
  · exact .inl ⟨i, m, o, n, u, m', o', st, latched, run, ⟨fun g hg => (dom g).trans hg, wf⟩,
      ⟨fun g hg => (dom' g).trans hg, wf'⟩, idle, rfl⟩
  · exact .inr done

/-! ## The invariant -/

theorem slots_iff {P : Slot → Prop} (s : State) : (∀ k, P (s.slot k)) ↔ P s.slot0 ∧ P s.slot1 :=
  ⟨fun h => ⟨h .s0, h .s1⟩, fun ⟨h0, h1⟩ k => by cases k <;> assumption⟩

/-- The invariant, slot by slot. -/
theorem inv_iff (s : State) : s.Inv ↔ s.files.wf ∧ (∀ k, (s.slot k).wf) ∧ (∀ k, (s.slot k).bound s.files) ∧
    s.transientClear ∧ s.statusOk := by
  rw [slots_iff (P := Slot.wf), slots_iff (P := fun x => x.bound s.files), State.Inv]
  tauto

/-- While BUSY = 0 nothing is asked of DONE and the latch. -/
theorem statusOk_of_idle {s : State} (idle : s.status.busy = false) : s.statusOk :=
  ⟨fun ⟨busy, _⟩ => absurd (idle.symm.trans busy) (by decide), fun busy => absurd (idle.symm.trans busy) (by decide)⟩

/-- The invariant does not look at the oracle, the count of free values and the race mark, and asks of the storage only
that no bound file is gone. -/
theorem inv_withFiles {s : State} (inv : s.Inv) {m : Memory} (g : Grows s.files m) (o : IoOracle) (n : Nat) (r : Bool) :
    State.Inv { s with files := m, io := o, taken := n, raced := r } := by
  obtain ⟨files, wf0, wf1, bound0, bound1, transient, status⟩ := inv
  exact ⟨g.2 files, wf0, wf1, bound_of_grows bound0 rfl rfl g, bound_of_grows bound1 rfl rfl g, transient, status⟩

/-- Nor does it look at STATUS where BUSY is 0 and STOP_L is at its reset value. -/
theorem inv_withStatus {s : State} (inv : s.Inv) {st : Status} (idle : st.busy = false)
    (stopL : s.stopL = .symbolCount) : State.Inv { s with status := st } := by
  obtain ⟨files, wf0, wf1, bound0, bound1, ⟨walk, emitted, work, -⟩, -⟩ := inv
  exact ⟨files, wf0, wf1, bound0, bound1, ⟨walk, emitted, work, fun _ => stopL⟩, statusOk_of_idle idle⟩

/-- R43: a tree that a session leaves, kept or built, has an empty work list if the tree before had. -/
theorem work_of_sessionKeeps {f : FileId} {s t : State} (keeps : SessionKeeps f s t) (work : s.tree.work = []) :
    t.tree.work = [] := by
  obtain ⟨-, -, -, -, -, -, tree | ⟨freq, tree⟩⟩ := keeps
  · rw [tree, work]
  · rw [tree]; rfl

/-- Every command keeps the invariant, on every path. -/
theorem exec_keeps_inv {i : Instr} {s t : State} (inv : s.Inv) (run : exec i s = .next t) : t.Inv := by
  rw [inv_iff] at inv ⊢
  obtain ⟨files, wf, bound, ⟨walk, emitted, work, -⟩, -⟩ := inv
  rcases exec_leaves run with ⟨-, e, p, u, rfl, keeps⟩ | ⟨j, l⟩
  · have work' := work_of_sessionKeeps keeps work
    obtain ⟨touched, -⟩ := keeps
    refine ⟨(grows_of_touched touched).2 files, fun k => ?_, fun k => ?_, ⟨rfl, rfl, work', fun _ => rfl⟩,
      statusOk_of_idle rfl⟩
    · cases k <;> exact reset_slot_wf
    · cases k <;> exact reset_bound _
  · refine ⟨l.files.2 files, fun k => ?_, fun k => ?_,
      ⟨l.walk.1.trans walk, l.walk.2.trans emitted, l.tree ▸ work, fun _ => l.stopL⟩, statusOk_of_idle l.busy⟩
    · rcases eq_or_eq_other j k with rfl | rfl
      · exact l.slotWf (wf _)
      · rw [l.other]; exact wf _
    · rcases eq_or_eq_other j k with rfl | rfl
      · exact l.slotBound (bound _)
      · rw [l.other]; exact bound_of_grows (bound _) rfl rfl l.files

/-- The core's transition keeps the invariant, a raced command's included (R370). -/
theorem runLatched_keeps_inv {s t : State} (inv : s.Inv) (h : runLatched s = .next t) : t.Inv := by
  rcases runLatched_leaves h with ⟨i, m, o, n, u, m', o', st, -, run, grows, grows', idle, rfl⟩ | rfl
  · have ran := exec_keeps_inv (inv_withFiles inv grows o n s.raced) run
    exact inv_withStatus (inv_withFiles ran grows' o' u.taken u.raced) idle (exec_idle run).2
  · obtain ⟨files, wf0, wf1, bound0, bound1, ⟨walk, emitted, work, -⟩, -⟩ := inv
    exact ⟨files, wf0, wf1, bound0, bound1, ⟨walk, emitted, work, fun _ => rfl⟩, statusOk_of_idle rfl⟩

/-- A CMD write keeps the invariant: a lost one sets OVR alone, an accepted one leaves a latch that decodes, an illegal
one completes (R328, R329, R321). -/
theorem submit_keeps_inv {s : State} (inv : s.Inv) (w : Word) : (submit w s).Inv := by
  obtain ⟨files, wf0, wf1, bound0, bound1, ⟨walk, emitted, work, stopL⟩, status⟩ := inv
  rcases submit_cases w s with ⟨-, e⟩ | ⟨-, ⟨i, legal⟩, e⟩ | ⟨-, -, e⟩ <;> rw [e]
  · exact ⟨files, wf0, wf1, bound0, bound1, ⟨walk, emitted, work, stopL⟩, status⟩
  · refine ⟨files, wf0, wf1, bound0, bound1, ⟨walk, emitted, work, fun idle => ?_⟩, fun ⟨_, done⟩ => ?_, fun _ => ?_⟩
    · cases idle
    · cases done
    · exact ⟨i, latchedFields_accept w s i legal⟩
  · exact ⟨files, wf0, wf1, bound0, bound1, ⟨walk, emitted, work, fun _ => rfl⟩, statusOk_of_idle rfl⟩

/-- R75: the reset state meets the invariant over any storage in canonical form. -/
theorem reset_inv {m : Memory} (wf : m.wf) (o : IoOracle) (n : Nat) (l : List Input) :
    State.Inv { State.reset with files := m, io := o, taken := n, inputs := l } :=
  ⟨wf, reset_slot_wf, reset_slot_wf, reset_bound m, reset_bound m, ⟨rfl, rfl, rfl, fun _ => rfl⟩, statusOk_of_idle rfl⟩

/-- Settles O54: each way a step can go keeps the invariant. -/
theorem stepKeepsInvariant : Obligations.StepKeepsInvariant := by
  intro s t inv h
  rcases step_next_cases h with ⟨k, l, -, m, o, n, rfl, files⟩ | ⟨-, l, run⟩ | ⟨w, off, l, v, -, -, -, rfl⟩ |
    ⟨l, r, a0, a1, st, d, n, rfl⟩ | ⟨f, b, l, -, rfl⟩
  case inl =>
    refine reset_inv ?_ o n l
    rcases files with ⟨-, rfl⟩ | ⟨-, u, run, rfl⟩
    · exact inv.1
    · exact (runLatched_keeps_inv (s := { s with inputs := l, io := s.io.cutAfter k }) inv run).1
  case inr.inl => exact runLatched_keeps_inv (s := { s with inputs := l }) inv run
  case inr.inr.inl => exact submit_keeps_inv (s := { s with inputs := l }) inv v
  case inr.inr.inr.inl => exact inv
  case inr.inr.inr.inr => 
    exact inv_withFiles (s := { s with inputs := l }) inv (grows_update s.files f b) s.io s.taken
      (s.raced || boundNow { s with inputs := l } f)

/-- Settles O55. -/
theorem resetMeetsInvariant : Obligations.ResetMeetsInvariant := reset_inv reset_files_wf _ _ _

/-! ## What only commands and resets change -/

/-- The slots, the tree and the results are the same. -/
structure SameCore (s t : State) : Prop where
  slot : ∀ j, t.slot j = s.slot j
  tree : t.tree = s.tree
  results : sameResults s t

/-- States whose slots, tree and results agree by computation. -/
theorem sameCore_of {s t : State} (slot0 : t.slot0 = s.slot0) (slot1 : t.slot1 = s.slot1) (tree : t.tree = s.tree)
    (bits : t.resultBits = s.resultBits) (data : t.dataOut = s.dataOut) : SameCore s t :=
  ⟨fun j => by cases j <;> assumption, tree, bits, data⟩

/-- What a step makes of the slots, the tree and the results: it resets them, or the latched command ran from a state
with the same ones, or it leaves them alone. -/
theorem step_core_cases {s t : State} (h : step s = .next t) :
    (∃ k later, s.inputs = .reset k :: later ∧ SameCore State.reset t) ∨
    (s.status.busy = true ∧ ∃ i v u, decodeFields s.latchedFields = .ok i ∧ SameCore s v ∧ exec i v = .next u ∧
      SameCore u t) ∨
    SameCore s t := by
  rcases step_next_cases h with ⟨k, l, reset, m, o, n, rfl, -⟩ | ⟨busy, l, run⟩ | ⟨w, off, l, v, -, -, -, rfl⟩ |
    ⟨l, r, a0, a1, st, d, n, rfl⟩ | ⟨f, b, l, -, rfl⟩
  case inl => exact .inl ⟨k, l, reset, sameCore_of rfl rfl rfl rfl rfl⟩
  case inr.inl =>
    rcases runLatched_leaves run with ⟨i, m, o, n, u, m', o', st, latched, ran, -, -, -, rfl⟩ | rfl
    · exact .inr (.inl ⟨busy, i, { s with inputs := l, files := m, io := o, taken := n }, u, latched,
        sameCore_of rfl rfl rfl rfl rfl, ran, sameCore_of rfl rfl rfl rfl rfl⟩)
    · exact .inr (.inr (sameCore_of rfl rfl rfl rfl rfl))
  case inr.inr.inl =>
    obtain ⟨latch, st, stopL, raced, e⟩ := submit_frame v { s with inputs := l }
    rw [e]
    exact .inr (.inr (sameCore_of rfl rfl rfl rfl rfl))
  case inr.inr.inr.inl => exact .inr (.inr (sameCore_of rfl rfl rfl rfl rfl))
  case inr.inr.inr.inr => exact .inr (.inr (sameCore_of rfl rfl rfl rfl rfl))

/-- R32: what a command makes of a slot's MODE, BS_OPEN of that slot and the sessions aside. -/
theorem exec_mode {i : Instr} {s t : State} (run : exec i s = .next t) (j : SlotId) :
    (t.slot j).mode = (s.slot j).mode ∨ (∃ d, i = .bsOpen j d) ∨ isSession i = true := by
  rcases exec_leaves run with ⟨session, -⟩ | ⟨k, l⟩
  · exact .inr (.inr session)
  · rcases eq_or_eq_other k j with rfl | rfl
    · exact l.mode.imp_right .inl
    · exact .inl (congrArg Slot.mode l.other)

/-- Settles O58: of what a step can do, only the latched command and the reset write a slot. -/
theorem modeChangesOnlyByOpenSessionReset : Obligations.ModeChangesOnlyByOpenSessionReset := by
  intro s t j h changed
  rcases step_core_cases h with ⟨k, later, reset, -⟩ | ⟨busy, i, v, u, latched, before, run, after_⟩ | same
  · exact .inl ⟨k, later, reset⟩
  · refine .inr ⟨busy, i, latched, (exec_mode run j).resolve_left fun kept => changed ?_⟩
    rw [after_.slot, kept, before.slot]
  · exact absurd (congrArg Slot.mode (same.slot j)) changed

/-- R57, R68: a command other than BS_READ leaves the results, and BS_READ leaves them in range. -/
theorem exec_results {i : Instr} {s t : State} (run : exec i s = .next t) :
    sameResults s t ∨ (∃ j, i = .bsRead j) ∧ t.resultBits.toNat ≤ 8192 := by
  rcases exec_leaves run with ⟨-, e, p, u, rfl, -, -, results, -⟩ | ⟨j, l⟩
  · exact .inl results
  · exact l.results.imp_right fun ⟨read, range⟩ => ⟨⟨j, read⟩, range⟩

/-- Settles O59: of what a step can do, only BS_READ and the reset write the results. -/
theorem resultsChangeOnlyByReadOrReset : Obligations.ResultsChangeOnlyByReadOrReset := by
  intro s t h changed
  have not_same : ¬ sameResults s t := fun ⟨bits, data⟩ => changed.elim (· bits) (· data)
  rcases step_core_cases h with ⟨k, later, reset, -⟩ | ⟨busy, i, v, u, latched, before, run, after_⟩ | same
  · exact .inl ⟨k, later, reset⟩
  · rcases exec_results run with ⟨bits, data⟩ | ⟨⟨j, rfl⟩, -⟩
    · exact absurd ⟨after_.results.1.trans (bits.trans before.results.1),
        after_.results.2.trans (data.trans before.results.2)⟩ not_same
    · exact .inr ⟨busy, j, latched⟩
  · exact absurd same.results not_same

/-! ## The ranges of the tree and of RESULT_BITS -/

/-- R40: the counts of a built tree. -/
theorem build_countsOk (freq : Vector Word 256) : (Tree.build freq).countsOk := by
  obtain ⟨leaves, nodes, le⟩ := build_counts freq
  exact ⟨leaves ▸ le, by rw [nodes, leaves]⟩

/-- R39: the unused entries of a built tree hold their reset value. -/
theorem build_unusedClear (freq : Vector Word 256) : (Tree.build freq).unusedClear := by
  intro i unused
  obtain ⟨t, n, grown, -, -, node, -, count, -⟩ := build_grown freq
  have same : (Tree.build freq).nodeAt i = nodeNat t i.toNat := by rw [nodeAt_eq]; simp only [nodeNat, node]
  rw [same]
  exact grown.unused _ (count ▸ unused)

theorem reset_countsOk : Tree.reset.countsOk := ⟨by decide, by decide⟩

theorem reset_unusedClear : Tree.reset.unusedClear := fun i _ => nodeNat_reset i.toNat

/-- R39, R40: a command leaves the tree as it was, or freshly built. -/
theorem exec_tree {i : Instr} {s t : State} (run : exec i s = .next t) :
    t.tree = s.tree ∨ ∃ freq, t.tree = Tree.build freq := by
  rcases exec_leaves run with ⟨-, e, p, u, rfl, -, -, -, -, -, -, tree⟩ | ⟨j, l⟩
  · exact tree
  · exact .inl l.tree

/-- The tree and RESULT_BITS are in their ranges (R39, R40, R57). -/
def InRange (s : State) : Prop := s.tree.countsOk ∧ s.tree.unusedClear ∧ s.resultBits.toNat ≤ 8192

theorem inRange_of_sameCore {s t : State} (same : SameCore s t) (h : InRange s) : InRange t := by
  unfold InRange
  rw [same.tree, same.results.1]
  exact h

theorem reset_inRange : InRange State.reset := ⟨reset_countsOk, reset_unusedClear, Nat.zero_le _⟩

theorem exec_keeps_inRange {i : Instr} {s t : State} (h : InRange s) (run : exec i s = .next t) :
    InRange t := by
  obtain ⟨counts, unused, bits⟩ := h
  have range : t.resultBits.toNat ≤ 8192 := by
    rcases exec_results run with ⟨same, -⟩ | ⟨-, range⟩
    · rwa [same]
    · exact range
  rcases exec_tree run with tree | ⟨freq, tree⟩
  · exact ⟨tree ▸ counts, tree ▸ unused, range⟩
  · exact ⟨tree ▸ build_countsOk freq, tree ▸ build_unusedClear freq, range⟩

/-- Settles O56: a step resets the tree and the results, runs a command on them, or leaves them alone. -/
theorem stepKeepsTreeAndResultRanges : Obligations.StepKeepsTreeAndResultRanges := by
  refine ⟨fun s t h next => ?_, reset_inRange⟩
  rcases step_core_cases next with ⟨-, -, -, same⟩ | ⟨-, i, v, u, -, before, run, after_⟩ | same
  · exact inRange_of_sameCore same reset_inRange
  · exact inRange_of_sameCore after_ (exec_keeps_inRange (inRange_of_sameCore before h) run)
  · exact inRange_of_sameCore same h

end Sys2Proof.Proofs
end

section
/-! The statements of spec/10_state.md, part 3: what the host reads of the block's state (rules R52 to R70) and the
reset values (R75). -/

namespace Sys2Proof.Proofs

open Sys2Proof.Machine Sys2Proof.Laws

/-! ## The fields of words -/

/-- R54: where the fields of a STATUS word stand. -/
theorem statusWord_fields (st : Status) :
    (st.word.getLsbD 0 = st.busy ∧ st.word.getLsbD 1 = st.done ∧ st.word.getLsbD 2 = st.ovr ∧
      st.word.getLsbD 3 = false) ∧
    st.word.extractLsb' 4 4 = st.err.code ∧ st.word.extractLsb' 8 4 = st.phase.code ∧
    st.word.extractLsb' 12 20 = 0 := by
  unfold Status.word
  refine ⟨?_, ?_, ?_, ?_⟩
  · simp only [BitVec.getLsbD_append, BitVec.getLsbD_ofBool]
    simp
  · iterate 4 rw [BitVec.extractLsb'_append_eq_of_le (by decide)]
    exact BitVec.extractLsb'_append_eq_right
  · iterate 5 rw [BitVec.extractLsb'_append_eq_of_le (by decide)]
    exact BitVec.extractLsb'_append_eq_right
  · iterate 6 rw [BitVec.extractLsb'_append_eq_of_le (by decide)]
    exact BitVec.extractLsb'_eq_self

/-- R59: where the two modes stand in STREAM_INFO. -/
theorem streamInfo_fields (a : BitVec 28) (m1 m0 : BitVec 2) :
    (a ++ m1 ++ m0).extractLsb' 0 2 = m0 ∧ (a ++ m1 ++ m0).extractLsb' 2 2 = m1 ∧
      (a ++ m1 ++ m0).extractLsb' 4 28 = a := by
  refine ⟨BitVec.extractLsb'_append_eq_right, ?_, ?_⟩
  · rw [BitVec.extractLsb'_append_eq_of_le (by decide)]
    exact BitVec.extractLsb'_append_eq_right
  · iterate 2 rw [BitVec.extractLsb'_append_eq_of_le (by decide)]
    exact BitVec.extractLsb'_eq_self

/-- R96: a window of zeros reads 0. -/
theorem windowWord_zeros (n i : Nat) : windowWord (Vector.replicate n 0) i = 0 := by
  unfold windowWord
  simp only [entry_replicate]
  rfl

/-- The DATA_OUT window (R68). -/
theorem regAt_dataOut {j : Nat} (hj : j < 256) : regAt (0x0C00 + 4 * j) = .dataOut (4 * j) := by
  unfold regAt
  rw [if_neg (by omega), if_neg (by omega), if_neg (by omega), if_pos (by omega), Nat.add_sub_cancel_left]

/-! ## Reads while BUSY = 0 -/

section Idle

variable {s : State} (idle : s.status.busy = false)
include idle

/-- A read of the register at a word of the window. -/
theorem reads_reg {off : Nat} {r : Reg} (at_ : regAt off = r) (lt : off < 0x4000) (aligned : off % 4 = 0) :
    s.hostReads off = some (s.regValue r) := at_ ▸ reads_idle s idle lt aligned

theorem reads_freq {v : Nat} (hv : v < 256) : s.hostReads (0x0400 + 4 * v) = some (entry s.freq v 0) :=
  reads_reg idle (regAt_freq hv) (by omega) (by omega)

theorem reads_dataOut {j : Nat} (hj : j < 256) : s.hostReads (0x0C00 + 4 * j) = some (windowWord s.dataOut (4 * j)) :=
  reads_reg idle (regAt_dataOut hj) (by omega) (by omega)

theorem reads_codeLen {j : Nat} (hj : j < 64) : s.hostReads (0x1000 + 4 * j) = some (windowWord s.codeLen (4 * j)) :=
  reads_reg idle (regAt_codeLen hj) (by omega) (by omega)

theorem reads_codeBits {v m : Nat} (hv : v < 256) (hm : m < 8) :
    s.hostReads (0x2000 + 32 * v + 4 * m) = some ((entry s.codeBits v 0).extractLsb' (32 * m) 32) :=
  reads_reg idle (regAt_codeBits hm) (by omega) (by omega)

theorem reads_codeBits_word {k : Nat} (hk : k < 2048) :
    s.hostReads (0x2000 + 4 * k) = some ((entry s.codeBits (k / 8) 0).extractLsb' (32 * (k % 8)) 32) :=
  reads_reg idle regAt_codeBits_word (by omega) (by omega)

/-- R62 to R65: the four registers of SLOT[j], from its first one on. -/
theorem reads_slot {j : SlotId} {base : Nat} (at_ : (j = .s0 ∧ base = 0x0030) ∨ (j = .s1 ∧ base = 0x0040)) :
    s.hostReads base = some (s.slot j).fileWord ∧ s.hostReads (base + 4) = some (s.slot j).cursorWord ∧
    s.hostReads (base + 8) = some (s.slot j).countWord ∧ s.hostReads (base + 12) = some (s.slot j).fposWord := by
  rcases at_ with ⟨rfl, rfl⟩ | ⟨rfl, rfl⟩ <;>
  exact ⟨reads_reg idle rfl (by decide) (by decide), reads_reg idle rfl (by decide) (by decide),
    reads_reg idle rfl (by decide) (by decide), reads_reg idle rfl (by decide) (by decide)⟩

end Idle

theorem reset_idle : State.reset.status.busy = false := rfl

/-- Settles O13: the fields of the word that `reads_idle` gives. -/
theorem statusWordLayout : Obligations.StatusWordLayout := by
  intro s idle
  obtain ⟨⟨b0, b1, b2, b3⟩, err, phase, high⟩ := statusWord_fields s.status
  refine ⟨s.status.word, reads_reg idle (r := .status) rfl (by decide) (by decide), b0.trans idle, b1, b2, b3,
    err.trans ?_, phase.trans ?_, high⟩
  · cases s.status.err <;> rfl
  · cases s.status.phase <;> rfl

/-! ## The slots' registers -/

theorem words_of_closed {x : Slot} (mode : x.mode = .closed) :
    x.fileWord = 0 ∧ x.cursorWord = 0 ∧ x.countWord = 0 ∧ x.fposWord = 0 := by
  simp only [Slot.fileWord, Slot.cursorWord, Slot.countWord, Slot.fposWord, mode, and_self]

theorem words_of_read {x : Slot} (mode : x.mode = .read) :
    x.fileWord = x.file ∧ x.cursorWord = BitVec.ofNat 32 x.cur.toNat ∧ x.countWord = BitVec.ofNat 32 x.valid.toNat ∧
      x.fposWord = x.fpos.extractLsb' 0 32 := by
  simp only [Slot.fileWord, Slot.cursorWord, Slot.countWord, Slot.fposWord, mode]
  exact ⟨trivial, (BitVec.ofNat_toNat _ _).symm, (BitVec.ofNat_toNat _ _).symm,
    BitVec.setWidth_eq_extractLsb' (by decide)⟩

theorem words_of_write {x : Slot} (mode : x.mode = .write) :
    x.fileWord = x.file ∧ x.cursorWord = x.wcur.extractLsb' 0 32 ∧
      x.countWord = BitVec.ofNat 32 ((x.wcur.toNat + 7) / 8) ∧ x.fposWord = x.wpos.extractLsb' 0 32 := by
  simp only [Slot.fileWord, Slot.cursorWord, Slot.countWord, Slot.fposWord, mode]
  exact ⟨trivial, BitVec.setWidth_eq_extractLsb' (by decide), rfl, BitVec.setWidth_eq_extractLsb' (by decide)⟩

/-- Settles O14: the registers of a slot, mode by mode; after reset both slots are closed. -/
theorem slotRegistersReadTheSlots : Obligations.SlotRegistersReadTheSlots := by
  refine ⟨fun s j base idle at_ => ?_, fun k hk => ?_⟩
  · obtain ⟨file, cursor, count, fpos⟩ := reads_slot idle at_
    rw [file, cursor, count, fpos]
    refine ⟨fun mode => ?_, fun mode => ?_, fun mode => ?_⟩
    · obtain ⟨e1, e2, e3, e4⟩ := words_of_closed mode
      exact ⟨congrArg some e1, congrArg some e2, congrArg some e3, congrArg some e4⟩
    · obtain ⟨e1, e2, e3, e4⟩ := words_of_read mode
      exact ⟨congrArg some e1, congrArg some e2, congrArg some e3, congrArg some e4⟩
    · obtain ⟨e1, e2, e3, e4⟩ := words_of_write mode
      exact ⟨congrArg some e1, congrArg some e2, congrArg some e3, congrArg some e4⟩
  · obtain ⟨r0, r1, r2, r3⟩ := reads_slot reset_idle (.inl ⟨rfl, rfl⟩)
    obtain ⟨r4, r5, r6, r7⟩ := reads_slot reset_idle (.inr ⟨rfl, rfl⟩)
    interval_cases k <;> assumption

/-! ## The tables' registers and windows -/

/-- R58: CONFIG.STOP in bit 0. -/
theorem reads_config {s : State} (idle : s.status.busy = false) :
    s.hostReads 0x0018 = some (if s.stop = .eofOnly then 1 else 0) := by
  rw [reads_reg idle (r := .config) rfl (by decide) (by decide), State.regValue]
  cases s.stop <;> rfl

/-- R59: the modes of the two slots, by their codes. -/
theorem reads_streamInfo {s : State} (idle : s.status.busy = false) : ∃ v, s.hostReads 0x001C = some v ∧
    v.extractLsb' 0 2 = s.slot0.mode.code ∧ v.extractLsb' 2 2 = s.slot1.mode.code ∧ v.extractLsb' 4 28 = 0 :=
  ⟨_, reads_reg idle (r := .streamInfo) rfl (by decide) (by decide), streamInfo_fields 0 _ _⟩

/-- R61: LEAF_COUNT and NODE_COUNT. -/
theorem reads_treeInfo {s : State} (idle : s.status.busy = false) : ∃ v, s.hostReads 0x0028 = some v ∧
    v.extractLsb' 0 9 = s.tree.leafCount ∧ v.extractLsb' 9 7 = 0 ∧ v.extractLsb' 16 9 = s.tree.nodeCount ∧
    v.extractLsb' 25 7 = 0 :=
  ⟨_, reads_reg idle (r := .treeInfo) rfl (by decide) (by decide), treeInfo_fields 0 _ 0 _⟩

/-- R75: ARG0 to TREE_INFO read 0 after reset. -/
theorem reset_reads_zero {off : Nat} (mem : off ∈ [0x000C, 0x0010, 0x0014, 0x0018, 0x001C, 0x0020, 0x0024, 0x0028]) :
    State.reset.hostReads off = some 0 := by
  simp only [List.mem_cons, List.not_mem_nil, or_false] at mem
  rcases mem with rfl | rfl | rfl | rfl | rfl | rfl | rfl | rfl <;>
  exact reads_reg reset_idle rfl (by decide) (by decide)

/-- R75: the CODE_BITS window reads 0 after reset. -/
theorem reset_reads_codeBits {k : Nat} (hk : k < 2048) : State.reset.hostReads (0x2000 + 4 * k) = some 0 := by
  rw [reads_codeBits_word reset_idle hk, show State.reset.codeBits = Vector.replicate 256 0 from rfl, entry_replicate]
  exact congrArg some BitVec.extractLsb'_zero

/-- Settles O15: register by register and window by window. -/
theorem tableWindowsReadTheTables : Obligations.TableWindowsReadTheTables := by
  refine ⟨fun s idle => ?_, reads_reg reset_idle (r := .id) rfl (by decide) (by decide), fun off => reset_reads_zero,
    fun v hv => (reads_freq reset_idle hv).trans (congrArg some (entry_replicate 256 0 v)),
    fun j hj => (reads_dataOut reset_idle hj).trans (congrArg some (windowWord_zeros 1024 _)),
    fun j hj => (reads_codeLen reset_idle hj).trans (congrArg some (windowWord_zeros 256 _)),
    fun k hk => reset_reads_codeBits hk⟩
  obtain ⟨modes, readsModes, mode0, mode1, high⟩ := reads_streamInfo idle
  exact ⟨reads_reg idle (r := .id) rfl (by decide) (by decide),
    reads_reg idle (r := .arg0) rfl (by decide) (by decide),
    reads_reg idle (r := .arg1) rfl (by decide) (by decide),
    reads_reg idle (r := .resultBits) rfl (by decide) (by decide),
    reads_config idle,
    ⟨modes, readsModes, mode0.trans (by cases s.slot0.mode <;> rfl), mode1.trans (by cases s.slot1.mode <;> rfl), high⟩,
    reads_reg idle (r := .totalLo) rfl (by decide) (by decide),
    reads_reg idle (r := .totalHi) rfl (by decide) (by decide),
    reads_treeInfo idle,
    fun v hv => ⟨_, entry_eq s.freq 0 hv, reads_freq idle hv⟩,
    fun j hj => ⟨_, reads_dataOut idle hj, fun k hk => windowWord_extract s.dataOut (4 * j) k hk (by omega)⟩,
    fun j hj => ⟨_, reads_codeLen idle hj, fun k hk => windowWord_extract s.codeLen (4 * j) k hk (by omega)⟩,
    fun v m hv hm => ⟨_, entry_eq s.codeBits 0 hv, reads_codeBits idle hv hm⟩⟩

/-! ## DATA_IN -/

/-- DATA_IN reads exactly, while BUSY = 1 too (R372). -/
theorem readWord_dataIn (s : State) (i : Nat) : readWord s (.dataIn i) = windowWord s.dataIn i := by
  unfold readWord
  split <;> rfl

/-- R67, R95: a write to word j of DATA_IN. -/
theorem step_write_dataIn {s : State} {j : Nat} {v : Word} {later : List Input} (hj : j < 256)
    (first : s.inputs = .write .word (0x0800 + 4 * j) v :: later) :
    step s = .next { s with
      inputs := later, response := .written, dataIn := setWindowWord s.dataIn (4 * j) v } := by
  rw [step_write first (by omega), legal_word (by omega), regAt_dataIn hj]
  rfl

/-- Settles O16: the byte lanes by `setWindowWord_get`, the core's part by `exec_operands`. -/
theorem dataInIsWrittenByTheHostOnly : Obligations.DataInIsWrittenByTheHostOnly := by
  refine ⟨fun s j v later hj first => ⟨_, step_write_dataIn hj first, rfl, ?_, ?_, ?_⟩, fun i s t run => ?_,
    fun i hi => ?_⟩
  · exact (setWindowWord_get s.dataIn (4 * j) v (by omega)).1
  · exact (setWindowWord_get s.dataIn (4 * j) v (by omega)).2
  · rw [hostReads_eq _ (by omega) (by omega), regAt_dataIn hj, readWord_dataIn,
      windowWord_setWindowWord _ _ _ (by omega)]
  · obtain ⟨⟨-, -, -, dataIn, -⟩, -⟩ := exec_operands i s t run
    exact dataIn
  · exact Vector.getElem?_replicate.trans (if_pos hi)

/-! ## Reset values -/

/-- Settles O19: each element is its reset value, and a table of one value has it everywhere. -/
theorem resetValues : Obligations.ResetValues := by
  have everywhere : ∀ {α : Type} {n i : Nat} (a : α), i < n → (Vector.replicate n a)[i]? = some a :=
    fun a hi => Vector.getElem?_replicate.trans (if_pos hi)
  exact ⟨fun j => by cases j <;> rfl, fun v hv => everywhere 0 hv, rfl, fun n hn => everywhere Node.reset hn,
    rfl, rfl, rfl, fun v hv => everywhere 0 hv, fun v hv => everywhere 0 hv, rfl, rfl, rfl, rfl,
    reads_reg reset_idle (r := .id) rfl (by decide) (by decide),
    reads_reg reset_idle (r := .status) rfl (by decide) (by decide), rfl, rfl, rfl, rfl,
    fun i hi => everywhere 0 hi, fun i hi => everywhere 0 hi⟩

end Sys2Proof.Proofs
end

section
/-! The statements of spec/10_state.md, part 4: TOTAL and the counts of a built tree (rules R38 to R40), and its shape
(R41). -/

namespace Sys2Proof.Proofs

open Sys2Proof.Machine Sys2Proof.Laws

/-! ## TOTAL and the counts -/

/-- R223: the sum over the symbols is the sum over the table's entries. -/
theorem freqSum_eq_sum_range (freq : Vector Word 256) :
    freqSum freq = ((List.range 256).map fun v => (entry freq v 0).toNat).sum := by
  unfold freqSum symbols freqOf
  rw [List.map_map]
  refine congrArg List.sum (List.map_congr_left fun v hv => ?_)
  have lt : v < 2 ^ 8 := List.mem_range.1 hv
  rw [Function.comp_apply, BitVec.toNat_ofNat, Nat.mod_eq_of_lt lt]

/-- R38: TOTAL holds the sum exactly. -/
theorem buildTree_total_toNat (s : State) : s.buildTree.total.toNat = freqSum s.freq := by
  rw [buildTree_total]
  exact store_toNat ((freqSum_lt s.freq).trans (by decide))

/-- R39: LEAF_COUNT counts the symbols that take part. -/
theorem build_leafCount (freq : Vector Word 256) :
    (Tree.build freq).leafCount.toNat = symbols.countP fun v => freqOf freq v ≠ 0 := by
  rw [(build_counts freq).1, List.countP_eq_length_filter]
  rfl

/-- R40: NODE_COUNT is 0 only where no symbol takes part. -/
theorem usedCount_ne_zero {freq : Vector Word 256} (h : (Tree.build freq).nodeCount ≠ 0) : usedCount freq ≠ 0 := by
  intro none
  have count := (build_counts freq).2.1
  rw [none] at count
  exact h (BitVec.eq_of_toNat_eq count)

/-- Settles O37: the counts are those of `build_counts`, and `freqSum_lt` bounds the total. -/
theorem totalAndTreeCounts : Obligations.TotalAndTreeCounts := by
  refine ⟨fun s => ⟨?_, ?_, buildTree_tree s⟩, fun freq => ⟨build_leafCount freq, (build_countsOk freq).2,
    fun some_ => ?_, build_unusedClear freq⟩⟩
  · rw [buildTree_total_toNat, freqSum_eq_sum_range]
  · rw [buildTree_total_toNat]
    exact freqSum_lt s.freq
  · rw [build_root freq (usedCount_ne_zero some_), (build_counts freq).2.1]
    omega

/-! ## The shape of the tree -/

/-- R224: the symbols that take part rise. -/
theorem used_pairwise (freq : Vector Word 256) : (used freq symbols).Pairwise (· < ·) :=
  symbols_pairwise.filter _

/-- A parent stands above its child. -/
theorem grown_child_lt {freq : Vector Word 256} {t : Tree} {n : Nat} (g : Grown freq t n) {p i : NodeIx}
    (h : Parent (used freq symbols).length n t p i) : i.toNat < p.toNat := by
  obtain ⟨inner, inUse, child⟩ := h
  obtain ⟨-, left, right, -, -⟩ := g.inner p.toNat inner inUse
  rcases child with rfl | rfl
  · exact left
  · exact right

/-- The last entry in use has no parent, so it is in the work list. -/
theorem grown_last_mem_work {freq : Vector Word 256} {t : Tree} {n : Nat} (g : Grown freq t n) {i : NodeIx}
    (last : i.toNat + 1 = n) : i ∈ t.work := by
  refine (g.open_ i (by omega)).2 ?_
  rintro ⟨p, hp⟩
  have above := grown_child_lt g hp
  obtain ⟨-, inUse, -⟩ := hp
  omega

/-- Once the merge loop has ended, every entry in use but the last has a parent (R226). -/
theorem grown_exists_parent {freq : Vector Word 256} {t : Tree} {n : Nat} (g : Grown freq t n)
    (ended : t.work.length ≤ 1) {i : NodeIx} (hi : i.toNat + 1 < n) (fits : n ≤ 511) :
    ∃ p, Parent (used freq symbols).length n t p i := by
  have last : (BitVec.ofNat 9 (n - 1)).toNat = n - 1 := by
    rw [BitVec.toNat_ofNat, Nat.mod_eq_of_lt (by omega)]
  have root : BitVec.ofNat 9 (n - 1) ∈ t.work := grown_last_mem_work g (by omega)
  by_contra none
  have open_ : i ∈ t.work := (g.open_ i (by omega)).2 none
  obtain ⟨x, only⟩ := List.length_eq_one_iff.1 (ended.antisymm (List.length_pos_of_mem root))
  rw [only, List.mem_singleton] at open_ root
  rw [open_, ← root] at hi
  omega

/-- Settles O39: what the merge loop's invariant `Grown` says of the finished arena. -/
theorem treeShape : Obligations.TreeShape := by
  intro freq
  obtain ⟨t, n, grown, ended, -, node, leafCount, nodeCount, -⟩ := build_grown freq
  have at_ : ∀ i, (Tree.build freq).nodeAt i = t.nodeAt i := fun i => by simp only [Tree.nodeAt, node]
  have inner : ∀ i : NodeIx, i < (Tree.build freq).nodeCount → (Tree.build freq).leafCount ≤ i → _ :=
    fun i inUse isInner => grown.inner i.toNat (leafCount ▸ isInner) (nodeCount ▸ inUse)
  have parent_iff : ∀ p i, Parent (used freq symbols).length n t p i ↔
      (p < (Tree.build freq).nodeCount ∧ (Tree.build freq).leafCount ≤ p) ∧
        (((Tree.build freq).nodeAt p).left = i ∨ ((Tree.build freq).nodeAt p).right = i) := by
    intro p i
    rw [at_, BitVec.lt_def, BitVec.le_def, leafCount, nodeCount, Parent]
    tauto
  constructor
  case leaves =>
    intro i inUse
    rw [build_leaf_iff freq i inUse, BitVec.lt_def, leafCount, usedCount]
  case symsRise =>
    intro i j lt isLeaf
    have hj : j.toNat < (used freq symbols).length := leafCount ▸ isLeaf
    have hi : i.toNat < (used freq symbols).length := Nat.lt_trans lt hj
    rw [build_leaf freq i hi, build_leaf freq j hj]
    exact List.pairwise_iff_getElem.1 (used_pairwise freq) _ _ hi hj lt
  case childrenBelow =>
    intro i inUse isInner
    obtain ⟨-, left, right, ne, -⟩ := inner i inUse isInner
    rw [at_]
    exact ⟨left, right, ne⟩
  case oneParent =>
    intro i hi
    have fits : n ≤ 511 := by
      have := (Tree.build freq).nodeCount.isLt
      omega
    obtain ⟨p, hp⟩ := grown_exists_parent grown ended (nodeCount ▸ hi) fits
    exact ⟨p, (parent_iff p i).1 hp, fun q hq => grown.one i q p ((parent_iff q i).2 hq) hp⟩
  case weights =>
    intro i inUse isInner
    obtain ⟨-, -, -, -, sum⟩ := inner i inUse isInner
    rw [at_, at_, at_]
    exact sum

end Sys2Proof.Proofs
end

section
/-! The statements of spec/10_state.md, part 5: a running command reads its operands from the latch alone (rules R44,
R121). -/

namespace Sys2Proof.Proofs

open Sys2Proof.Machine Sys2Proof.Laws

/-- The states differ in the host's registers, the inputs and the response only: their oracles are the same. -/
abbrev AlikeToCore : State → State → Prop := Alike fun o o' => o' = o

/-- The runs of a computation from two such states end in two such states, errors included. -/
abbrev FollowsToCore {α : Type} (m : Cmd α) : Prop := Follows (fun o o' => o' = o) True m

/-! ## The bodies of the stream commands -/

theorem follows_checkXfer (n : Nat) : FollowsToCore (checkXfer n) := follows_ite (follows_throw _) (follows_pure _)

/-- A computation that looks at the latch of the state it starts from. -/
theorem follows_get_latch {β : Type} {f : Latch → Cmd β} (h : ∀ l, FollowsToCore (f l)) :
    FollowsToCore (get >>= fun s : State => f s.latch) := by
  refine follows_get_bind fun s s' alike => ?_
  have same : s'.latch = s.latch := by
    obtain ⟨o, a, b, c, d, l, r, rfl, -⟩ := alike
    rfl
  rw [same]
  exact h s.latch s s' alike

theorem follows_bsOpenBody (i : SlotId) (d : Dir) : FollowsToCore (bsOpenBody i d) :=
  follows_get_latch (f := fun l => openSlot i d l.arg0) fun l => follows_openSlot agree_eq i d l.arg0

theorem follows_bsWriteBody (i : SlotId) : FollowsToCore (bsWriteBody i) := by
  refine follows_bind (follows_checkSlot i .write) fun _ => ?_
  exact follows_get_latch (f := fun l => do
      checkXfer l.arg0.toNat
      appendBits i (unpack l.datIn.toList l.arg0.toNat))
    fun l => follows_bind (follows_checkXfer _) fun _ => follows_appendBits i _

theorem follows_bsFlushBody (i : SlotId) : FollowsToCore (bsFlushBody i) :=
  follows_bind (follows_checkSlot i .write) fun _ => follows_flushSlot agree_eq i

theorem follows_writeReadResult (out : BitSeq) : FollowsToCore (writeReadResult out) := by
  refine follows_modify ?_
  rintro s _ ⟨o, a, b, c, d, l, r, rfl, same⟩
  exact ⟨o, a, b, c, d, l, r, rfl, same⟩

theorem follows_bsReadBody (i : SlotId) : FollowsToCore (bsReadBody i) := by
  refine follows_bind (follows_checkSlot i .read) fun _ => ?_
  exact follows_get_latch (f := fun l => do
      checkXfer l.arg0.toNat
      let out ← readBits i l.arg0.toNat
      writeReadResult out)
    fun l => follows_bind (follows_checkXfer _) fun _ =>
      follows_bind (follows_readBits agree_eq i _) fun out => follows_writeReadResult out

theorem follows_bsRewindBody (i : SlotId) : FollowsToCore (bsRewindBody i) :=
  follows_bind (follows_checkSlot i .read) fun _ => follows_rewindSlot i

theorem follows_bsClearBody (i : SlotId) : FollowsToCore (bsClearBody i) :=
  follows_bind (follows_checkSlot i .write) fun _ => follows_truncateSlot agree_eq i

/-! ## Whole commands -/

theorem alike_complete {s s' : State} (h : AlikeToCore s s') (e : ErrCode) (p : Phase) :
    AlikeToCore (complete e p s) (complete e p s') := by
  obtain ⟨o, a, b, c, d, l, r, rfl, same⟩ := h
  exact ⟨o, a, b, c, d, l, r, rfl, same⟩

theorem alike_closeSession {s s' : State} (h : AlikeToCore s s') : AlikeToCore (closeSession s) (closeSession s') := by
  obtain ⟨o, a, b, c, d, l, r, rfl, same⟩ := h
  exact ⟨o, a, b, c, d, l, r, rfl, same⟩

theorem runStream_alike {m : Cmd Unit} (h : FollowsToCore m) {s s' : State} (alike : AlikeToCore s s') :
    AlikeToCore (runStream m s) (runStream m s') := by
  have ends := h s s' alike
  cases run : m s with
  | ok x t =>
    rw [run] at ends
    obtain ⟨u, run', alike'⟩ := ends
    rw [runStream_ok run, runStream_ok run']
    exact alike_complete alike' _ _
  | error e t =>
    rw [run] at ends
    obtain ⟨u, run', alike'⟩ := ends trivial
    rw [runStream_error run, runStream_error run']
    exact alike_complete alike' _ _

theorem runSession_alike : ∀ {ps : List (Phase × Cmd Unit)}, (∀ p ∈ ps, FollowsToCore p.2) → ∀ {s s' : State},
    AlikeToCore s s' → AlikeToCore (runSession ps s) (runSession ps s')
  | [], _, _, _, alike => alike_complete (alike_closeSession alike) _ _
  | (p, m) :: ps, h, s, s', alike => by
    have ends := h (p, m) List.mem_cons_self s s' alike
    cases run : m s with
    | ok x t =>
      simp only [run] at ends
      obtain ⟨u, run', alike'⟩ := ends
      rw [runSession_ok run, runSession_ok run']
      exact runSession_alike (fun q hq => h q (List.mem_cons_of_mem _ hq)) alike'
    | error e t =>
      simp only [run] at ends
      obtain ⟨u, run', alike'⟩ := ends trivial
      rw [runSession_error run, runSession_error run']
      exact alike_complete (alike_closeSession alike') _ _

theorem follows_encodePhases : ∀ p ∈ encodePhases, FollowsToCore p.2 := by
  simp only [encodePhases, List.forall_mem_cons, List.not_mem_nil, false_imp_iff, implies_true, and_true]
  exact ⟨follows_encSetup agree_eq, follows_countFrequencies agree_eq, follows_buildAndDerive, follows_writeCounts _,
    follows_encodeBody agree_eq, follows_flushSlot agree_eq _⟩

theorem follows_decodePhases : ∀ p ∈ decodePhases, FollowsToCore p.2 := by
  simp only [decodePhases, List.forall_mem_cons, List.not_mem_nil, false_imp_iff, implies_true, and_true]
  exact ⟨follows_encSetup agree_eq, follows_readHeader agree_eq, follows_buildTree, follows_decodeBody agree_eq,
    follows_flushSlot agree_eq _⟩

/-- What a command leaves of two states that the core cannot tell apart. -/
theorem exec_alike (i : Instr) {s s' : State} (alike : AlikeToCore s s') :
    ∃ t t', exec i s = .next t ∧ exec i s' = .next t' ∧ AlikeToCore t t' := by
  refine ⟨_, _, exec_next i s, exec_next i s', ?_⟩
  cases i with
  | bsOpen j d => exact runStream_alike (follows_bsOpenBody j d) alike
  | bsWrite j => exact runStream_alike (follows_bsWriteBody j) alike
  | bsFlush j => exact runStream_alike (follows_bsFlushBody j) alike
  | bsRead j => exact runStream_alike (follows_bsReadBody j) alike
  | bsRewind j => exact runStream_alike (follows_bsRewindBody j) alike
  | bsClear j => exact runStream_alike (follows_bsClearBody j) alike
  | encodeFile => exact runSession_alike follows_encodePhases alike
  | decodeFile => exact runSession_alike follows_decodePhases alike

/-- Settles O18: the two runs end alike by `exec_alike`, and by `exec_operands` neither writes what they differ in. -/
theorem commandIgnoresLaterOperandWrites : Obligations.CommandIgnoresLaterOperandWrites := by
  intro i s t a b c d run
  obtain ⟨u, u', ran, run', o, a', b', c', d', l, r, rfl, rfl⟩ := exec_alike i
    (s' := { s with arg0 := a, arg1 := b, stop := c, dataIn := d })
    ⟨s.io, a, b, c, d, s.inputs, s.response, rfl, rfl⟩
  cases run.symm.trans ran
  obtain ⟨-, inputs, response⟩ := exec_operands i s t run
  obtain ⟨⟨arg0, arg1, stop, dataIn, -⟩, inputs', response'⟩ := exec_operands i _ _ run'
  rw [run', show a' = a from arg0, show b' = b from arg1, show c' = c from stop, show d' = d from dataIn,
    show l = t.inputs from inputs'.trans inputs.symm, show r = t.response from response'.trans response.symm]

end Sys2Proof.Proofs
end

section
/-! The statements of spec/20_memory.md, part 1: the host's accesses (rules R91 to R95) and where a step stops (R116). -/

namespace Sys2Proof.Proofs

open Sys2Proof.Machine Sys2Proof.Laws

/-! ## Accesses inside the window -/

/-- R91: the accesses the block takes. -/
theorem legalAccess_iff {wd : Width} {off : Nat} : legalAccess wd off = true ↔ wd = .word ∧ off % 4 = 0 := by
  simp [legalAccess]

/-- R91, R93: a legal read answers with the register's word, and may use up a free value. -/
theorem step_read_word {s : State} {off : Nat} {later : List Input} (first : s.inputs = .read .word off :: later)
    (lt : off < 0x4000) (aligned : off % 4 = 0) :
    ∃ n, step s = .next { s with inputs := later, response := .data (readWord s (regAt off)), taken := n } := by
  refine ⟨if s.status.busy then s.taken + 1 else s.taken, ?_⟩
  rw [step_read first lt, if_pos (legal_word aligned), hostRead_eq, seen_inputs]

/-- R91: a legal write acts as the rule of the register at its offset says. -/
theorem step_write_word {s : State} {off : Nat} {r : Reg} {v : Word} {later : List Input}
    (first : s.inputs = .write .word off v :: later) (at_ : regAt off = r) (lt : off < 0x4000) (aligned : off % 4 = 0) :
    step s = .next (hostWrite r v { s with inputs := later }) := by
  rw [step_write first lt, if_pos (legal_word aligned), at_]

/-- Settles O11: no such access is legal (`legalAccess_iff`), and one that is not gets the bus error. -/
theorem oddAccessGetsBusError : Obligations.OddAccessGetsBusError := by
  intro s wd off v later lt odd first
  have illegal : ¬ legalAccess wd off = true := by rwa [legalAccess_iff, not_and_or]
  rcases first with read | write
  · rw [step_read read lt, if_neg illegal]; rfl
  · rw [step_write write lt, if_neg illegal]; rfl

/-- Settles O12: reads by `step_read_word`, writes by what `writeReg` makes of the register at the offset. -/
theorem hostAccessesHaveNoSideEffects : Obligations.HostAccessesHaveNoSideEffects := by
  refine ⟨fun s off hole aligned => ?_, fun s off later lt aligned first => ?_,
    fun s off v later lt aligned readOnly first => ?_,
    fun s v later => ⟨fun first => ?_, fun first => ?_, fun first => ?_⟩⟩
  · rw [hostReads_eq s (by omega) aligned, seen_zero s _ (regAt_hole hole aligned)]
  · obtain ⟨n, next⟩ := step_read_word first lt aligned
    exact ⟨_, n, hostReads_eq s lt aligned, next⟩
  · rw [step_write_word first rfl lt aligned, hostWrite, writeReg_ro aligned readOnly]
  · exact step_write_word first (r := .arg0) rfl (by decide) (by decide)
  · exact step_write_word first (r := .arg1) rfl (by decide) (by decide)
  · exact step_write_word first (r := .config) rfl (by decide) (by decide)

/-! ## Accesses outside the window -/

/-- The next input is a host access at an offset outside the window. -/
def AccessesOutside (s : State) : Prop :=
  ∃ wd off later, 0x4000 ≤ off ∧ (s.inputs = .read wd off :: later ∨ ∃ v : Word, s.inputs = .write wd off v :: later)

theorem step_outside {s : State} (outside : AccessesOutside s) : step s = .fault .outsideWindow := by
  obtain ⟨wd, off, later, ge, first | ⟨v, first⟩⟩ := outside <;> rw [step_cons first] <;> exact if_pos ge

/-- R360, R362: a reset always ends in a next state, for the command it cuts short does. -/
theorem resetInput_next (k : Nat) (s : State) : ∃ t, resetInput k s = .next t := by
  obtain ⟨u, run, -⟩ := runLatched_next { s with io := s.io.cutAfter k }
  unfold resetInput cutShort
  rw [run]
  split <;> exact ⟨_, rfl⟩

/-- The core's turn, where it runs a command only while BUSY = 1, ends in a next state (R343). -/
theorem busy_next (s t : State) : ∃ u, (if s.status.busy then runLatched s else .next t) = .next u := by
  obtain ⟨u, run, -⟩ := runLatched_next s
  split
  · exact ⟨u, run⟩
  · exact ⟨t, rfl⟩

/-- Every other input ends in a next state, and so does the core's turn with nothing to come. -/
theorem step_next_of_inside {s : State} (inside : ¬ AccessesOutside s) : ∃ t, step s = .next t := by
  cases first : s.inputs with
  | nil => rw [step_nil first]; exact busy_next s s
  | cons x later =>
    cases x with
    | read wd off =>
      exact ⟨_, step_read first (Nat.not_le.1 fun ge => inside ⟨wd, off, later, ge, .inl first⟩)⟩
    | write wd off v =>
      exact ⟨_, step_write first (Nat.not_le.1 fun ge => inside ⟨wd, off, later, ge, .inr ⟨v, first⟩⟩)⟩
    | wait => rw [step_cons first]; exact busy_next s (hostRead .status { s with inputs := later })
    | core => rw [step_cons first]; exact busy_next { s with inputs := later } { s with inputs := later }
    | reset k => rw [step_cons first]; exact resetInput_next k { s with inputs := later }
    | fileChange f bytes => rw [step_cons first]; exact ⟨_, rfl⟩

/-- Settles O57: `step_outside` and `step_next_of_inside` say what a step does in the two cases. -/
theorem stepStopsOnlyOutsideTheWindow : Obligations.StepStopsOnlyOutsideTheWindow := by
  intro s
  by_cases outside : AccessesOutside s
  · have fault := step_outside outside
    exact ⟨fun r => by simp [fault], fun _ => outside, fun _ => ⟨_, fault⟩⟩
  · obtain ⟨t, next⟩ := step_next_of_inside outside
    exact ⟨fun r => by simp [next], fun ⟨r, fault⟩ => by simp [next] at fault, fun h => absurd h outside⟩

end Sys2Proof.Proofs
end

section
/-! The statements of spec/20_memory.md, part 2: what host accesses keep (rule R94), and the storage (R100, R104). -/

namespace Sys2Proof.Proofs

open Sys2Proof.Machine Sys2Proof.Laws

/-! ## What a host access keeps -/

/-- The tables, the results, the slots, the storage and its oracle are the same. -/
def KeepsTablesAndFiles (s t : State) : Prop :=
  sameTables s t ∧ sameResults s t ∧ t.slot0 = s.slot0 ∧ t.slot1 = s.slot1 ∧ t.files = s.files ∧ t.io = s.io

theorem KeepsTablesAndFiles.refl (s : State) : KeepsTablesAndFiles s s :=
  ⟨⟨rfl, rfl, rfl, rfl, rfl⟩, ⟨rfl, rfl⟩, rfl, rfl, rfl, rfl⟩

theorem hostRead_keeps (r : Reg) (s : State) : KeepsTablesAndFiles s (hostRead r s) := by
  rw [hostRead_eq]
  exact KeepsTablesAndFiles.refl s

/-- A write changes the registers the host writes, and what a CMD write changes (`submit_frame`). -/
theorem hostWrite_frame (r : Reg) (v : Word) (s : State) : ∃ latch st stopL raced a0 a1 stop data,
    hostWrite r v s = { s with
      latch := latch, status := st, stopL := stopL, raced := raced, arg0 := a0, arg1 := a1, stop := stop,
      dataIn := data, response := .written } := by
  cases r with
  | cmd =>
    obtain ⟨latch, st, stopL, raced, e⟩ := submit_frame v s
    exact ⟨latch, st, stopL, raced, s.arg0, s.arg1, s.stop, s.dataIn, by rw [hostWrite, writeReg, e]⟩
  | _ => exact ⟨_, _, _, _, _, _, _, _, rfl⟩

theorem hostWrite_keeps (r : Reg) (v : Word) (s : State) : KeepsTablesAndFiles s (hostWrite r v s) := by
  obtain ⟨latch, st, stopL, raced, a0, a1, stop, data, e⟩ := hostWrite_frame r v s
  rw [e]
  exact KeepsTablesAndFiles.refl s

/-- R94: a host access that a step takes keeps them, whether it is legal or not. -/
theorem access_keeps {s t : State} {wd : Width} {off : Nat} {v : Word} {later : List Input}
    (first : s.inputs = .read wd off :: later ∨ s.inputs = .write wd off v :: later) (h : step s = .next t) :
    KeepsTablesAndFiles s t := by
  have lt : off < 0x4000 := Nat.not_le.1 fun ge => by
    have fault := step_outside ⟨wd, off, later, ge, first.imp_right fun write => ⟨v, write⟩⟩
    rw [fault] at h
    cases h
  rcases first with read | write
  · rw [step_read read lt] at h
    cases h
    split
    · exact hostRead_keeps (regAt off) { s with inputs := later }
    · exact KeepsTablesAndFiles.refl s
  · rw [step_write write lt] at h
    cases h
    split
    · exact hostWrite_keeps (regAt off) v { s with inputs := later }
    · exact KeepsTablesAndFiles.refl s

/-! ## No file is removed -/

theorem Grows.trans {m m' m'' : Memory} (h : Grows m m') (h' : Grows m' m'') : Grows m m'' :=
  ⟨fun g => h'.1 g ∘ h.1 g, h'.2 ∘ h.2⟩

theorem exec_grows {i : Instr} {s t : State} (run : exec i s = .next t) : Grows s.files t.files := by
  rcases exec_leaves run with ⟨-, e, p, u, rfl, touched, -⟩ | ⟨j, l⟩
  · exact grows_of_touched touched
  · exact l.files

/-- A raced command's files are replaced before and after its run, but none is gone (R370). -/
theorem runLatched_grows {s t : State} (h : runLatched s = .next t) : Grows s.files t.files := by
  rcases runLatched_leaves h with ⟨i, m, o, n, u, m', o', st, -, run, before, after_, -, rfl⟩ | rfl
  · have ran : Grows m u.files := exec_grows run
    exact before.trans (ran.trans after_)
  · exact Grows.refl s.files

/-- R100: whatever a step does, a reset that cuts a command short included, no file is gone. -/
theorem step_grows {s t : State} (h : step s = .next t) : Grows s.files t.files := by
  rcases step_next_cases h with ⟨k, l, -, m, o, n, rfl, files⟩ | ⟨-, l, run⟩ | ⟨w, off, l, v, -, -, -, rfl⟩ |
    ⟨l, r, a0, a1, st, d, n, rfl⟩ | ⟨f, b, l, -, rfl⟩
  case inl =>
    rcases files with ⟨-, rfl⟩ | ⟨-, u, run, rfl⟩
    · exact Grows.refl s.files
    · exact runLatched_grows (s := { s with inputs := l, io := s.io.cutAfter k }) (t := u) run
  case inr.inl => exact runLatched_grows (s := { s with inputs := l }) run
  case inr.inr.inl =>
    obtain ⟨latch, st, stopL, raced, e⟩ := submit_frame v { s with inputs := l }
    rw [e]
    exact Grows.refl s.files
  case inr.inr.inr.inl => exact Grows.refl s.files
  case inr.inr.inr.inr => exact grows_update s.files f b

/-- Settles O60: host accesses by `access_keeps`, the files of every step by `step_grows`. -/
theorem hostAccessesKeepTablesAndFiles : Obligations.HostAccessesKeepTablesAndFiles :=
  ⟨fun _ _ _ _ _ _ first h => access_keeps first h, fun _ _ f h => (step_grows h).1 f⟩

/-! ## A storage write -/

/-- R104: the gap between the old end and the written bytes is filled with 0. -/
theorem splice_getElem?_gap (old : List Byte) {off : Nat} (bytes : List Byte) {k : Nat} (ge : old.length ≤ k)
    (lt : k < off) : (splice old off bytes)[k]? = some 0 := by
  have padded : k < ((old ++ List.replicate (off - old.length) (0 : Byte)).take off).length := by
    rw [List.length_take, List.length_append, List.length_replicate]
    omega
  unfold splice
  rw [List.append_assoc, List.getElem?_append_left padded, List.getElem?_take_of_lt lt, List.getElem?_append_right ge,
    List.getElem?_replicate_of_lt (by omega)]

/-- R104: a write that the storage performs. -/
theorem stWrite_done {f : FileId} {off : Nat} {bytes : List Byte} {s : State} (done : s.io.next.1 = .done) :
    stWrite f off bytes s = .ok () { s with
      io := s.io.next.2, files := s.files.update f (splice (s.files.contents f) off bytes) } := mutate_done done

/-- Settles O36: the bytes of a performed write are those of `splice`; a failed one leaves only f in doubt. -/
theorem storageWrite : Obligations.StorageWrite := by
  intro s f off bytes
  refine ⟨fun done => ⟨_, stWrite_done done, ?_⟩, fun fails => ?_⟩
  · simp only [Memory.readByte, contents_update_self]
    exact ⟨splice_length _ _ _, fun k => splice_getElem?_inside _ _ _, fun k => splice_getElem?_gap _ _,
      fun k => splice_getElem?_outside _ _ _, fun g other => lookup_update_ne _ _ other⟩
  · obtain ⟨m, n, error, others, -⟩ := mutate_error (f := f)
      (c := fun m => m.update f (splice (m.contents f) off bytes)) fails
    exact ⟨_, error, others⟩

end Sys2Proof.Proofs
end

section
/-! The statements of spec/30_encoding.md: the command words of rule R133, and the illegal ones of rule R134. -/

namespace Sys2Proof.Proofs

open Sys2Proof.Machine Sys2Proof.Laws

/-! ## Legal words -/

/-- R133, R135: a word decodes to a command exactly when it is the command's own. -/
theorem decode_eq_ok_iff {w : Word} {i : Instr} : decode w = .ok i ↔ w = encode i := by
  rw [decode, decodeFields_iff]
  constructor
  · intro fields
    rw [← wordOf_fieldsOf w, fields, encode]
  · rintro rfl
    exact fieldsOf_wordOf _

/-- Settles O3: both directions are `decode_eq_ok_iff`. -/
theorem decodeAndEncodeAgree : Obligations.DecodeAndEncodeAgree :=
  ⟨fun _ _ => decode_eq_ok_iff.2 rfl, fun _ _ legal => (decode_eq_ok_iff.1 legal).symm⟩

/-- Settles O1: each word is its command's own (`decode_eq_ok_iff`). -/
theorem decodeOfSpecWords : Obligations.DecodeOfSpecWords := by
  unfold Obligations.DecodeOfSpecWords
  simp only [decode_eq_ok_iff]
  decide

/-! ## The opcode map's masks -/

/-- Bit n of a word, put back in its place. -/
theorem setWidth_bit_shiftLeft (w : Word) (n : Nat) :
    (w.extractLsb' n 1).setWidth 32 <<< n = w &&& BitVec.twoPow 32 n := by
  ext k hk
  rcases lt_trichotomy k n with lt | rfl | gt
  · simp [lt, lt.ne]
  · simp [hk, BitVec.getLsbD_eq_getElem]
  · simp [gt.not_gt, gt.ne', Nat.sub_ne_zero_of_lt gt]

/-- R130: the bits S and D of a word, each in its place. -/
theorem slotDir_in_place (w : Word) :
    (w.extractLsb' 8 1).setWidth 32 <<< 8 ||| (w.extractLsb' 9 1).setWidth 32 <<< 9 = w &&& (0x300 : Word) := by
  rw [setWidth_bit_shiftLeft, setWidth_bit_shiftLeft, ← BitVec.and_or_distrib_left]
  rfl

/-- R133: a row's mask leaves out S and D at most. -/
theorem maskOf_or_slotDir (i : Instr) : maskOf i ||| (0x300 : Word) = BitVec.allOnes 32 := by
  cases i <;> rw [maskOf] <;> rfl

/-- A word is its part under a row's mask with its bits S and D put in. -/
theorem masked_or_slotDir (w : Word) (i : Instr) :
    w &&& maskOf i ||| (w.extractLsb' 8 1).setWidth 32 <<< 8 ||| (w.extractLsb' 9 1).setWidth 32 <<< 9 = w := by
  rw [BitVec.or_assoc, slotDir_in_place, ← BitVec.and_or_distrib_left, maskOf_or_slotDir, BitVec.and_allOnes]

/-- R130: the field S of a command's word. -/
theorem slotBit_encode (i : Instr) : (encode i).extractLsb' 8 1 = slotBitOf i :=
  congrArg CmdFields.s (fieldsOf_wordOf _)

/-- R130: the field D of a command's word. -/
theorem dirBit_encode (i : Instr) : (encode i).extractLsb' 9 1 = dirBitOf i :=
  congrArg CmdFields.d (fieldsOf_wordOf _)

/-- R133: each command's word matches its row. -/
theorem encode_and_maskOf (i : Instr) : encode i &&& maskOf i = matchOf i := by
  cases i with
  | bsOpen j d => cases j <;> cases d <;> rfl
  | bsWrite j | bsFlush j | bsRead j | bsRewind j | bsClear j => cases j <;> rfl
  | encodeFile | decodeFile => rfl

/-- R133, "The full command words": a command's word is its row's match with S and D put in. -/
theorem matchOf_or_slotDir (i : Instr) :
    matchOf i ||| (slotBitOf i).setWidth 32 <<< 8 ||| (dirBitOf i).setWidth 32 <<< 9 = encode i := by
  rw [← encode_and_maskOf, ← slotBit_encode, ← dirBit_encode, masked_or_slotDir]

/-- Settles O2: a word is its masked part with S and D put in, and a command's word its match with them put in. -/
theorem maskAndMatchSelectCommand : Obligations.MaskAndMatchSelectCommand := by
  refine ⟨fun w i => ?_, fun i => (matchOf_or_slotDir i).symm⟩
  rw [decode_eq_ok_iff]
  constructor
  · rintro rfl
    exact ⟨encode_and_maskOf i, slotBit_encode i, dirBit_encode i⟩
  · rintro ⟨masked, slot, dir⟩
    rw [← masked_or_slotDir w i, masked, slot, dir, matchOf_or_slotDir]

/-! ## Illegal words -/

/-- R134: the decoder refuses the fields exactly when one of the rule's four checks fails. -/
theorem decodeFields_error_iff {f : CmdFields} : (∃ r, decodeFields f = .error r) ↔ f.wellFormed = false := by
  obtain ⟨op, s, d, rsv⟩ := f
  by_cases clear : rsv = 0
  · subst clear
    rw [← wellFormed_decodeFields_all]
    cases decodeFields { op, s, d, rsv := 0 } <;> simp [Except.toOption]
  · have refused : decodeFields { op, s, d, rsv } = .error .reservedBits := if_pos clear
    have fails : CmdFields.reservedClear { op, s, d, rsv } = false := beq_false_of_ne clear
    simp [refused, CmdFields.wellFormed, fails]

/-- R134: the fields that fail a check are those the rule lists. -/
theorem wellFormed_eq_false_iff (f : CmdFields) : f.wellFormed = false ↔
    (f.op = 0x00 ∨ (0x07 ≤ f.op.toNat ∧ f.op.toNat ≤ 0x0F) ∨ 0x12 ≤ f.op.toNat) ∨
    f.rsv ≠ 0 ∨
    ((0x02 ≤ f.op.toNat ∧ f.op.toNat ≤ 0x06) ∧ f.d = 1) ∨
    ((f.op = 0x10 ∨ f.op = 0x11) ∧ (f.s = 1 ∨ f.d = 1)) := by
  -- Read as numbers, the four checks and the rule's clauses are linear facts about the fields.
  simp [CmdFields.wellFormed, CmdFields.reservedClear, CmdFields.opKnown, CmdFields.dirAllowed,
    CmdFields.slotAllowed, streamOps, sessionOps, BitVec.toNat_eq]
  omega

/-- R321: an illegal word written to CMD while BUSY = 0 completes at its acceptance. -/
theorem submit_illegal {w : Word} {r : Reject} {s : State} (idle : s.status.busy = false)
    (illegal : decode w = .error r) : submit w s = complete .illegalCmd .idle (accept w s) := by
  rcases submit_cases w s with ⟨busy, -⟩ | ⟨-, ⟨i, legal⟩, -⟩ | ⟨-, -, e⟩
  · exact absurd (idle.symm.trans busy) (by decide)
  · cases illegal.symm.trans legal
  · exact e

/-- Settles O4: the illegal words by the checks of R134, the completion by `submit_illegal`. -/
theorem illegalWordCompletesAtOnce : Obligations.IllegalWordCompletesAtOnce := by
  refine ⟨fun w => decodeFields_error_iff.trans (wellFormed_eq_false_iff (fieldsOf w)), ?_⟩
  intro s w r later idle illegal first
  refine ⟨(accept w s).latch, ?_⟩
  rw [step_write_word first (r := .cmd) rfl (by decide) (by decide), hostWrite, writeReg,
    submit_illegal (s := { s with inputs := later }) idle illegal]
  rfl

end Sys2Proof.Proofs
end

section
/-! The statements of spec/40_bitstream.md, part 1: what BS_OPEN, BS_WRITE, BS_FLUSH, BS_CLEAR and BS_REWIND do (rules
R162 to R170, R178). -/

namespace Sys2Proof.Proofs

open Sys2Proof.Machine Sys2Proof.Laws

/-! ## Opening -/

/-- BS_OPEN runs the open of its slot on the file ARG0 (R162). -/
theorem bsOpen_run (j : SlotId) (d : Dir) (s : State) :
    exec (.bsOpen j d) s = .next (runStream (openSlot j d s.latch.arg0) s) := rfl

/-- R162: a READ open of a file that exists, performed by the storage. -/
theorem openSlot_read_done {j : SlotId} {f : FileId} {s : State} (done : s.io.next.1 = .done)
    (exists_ : (s.files.lookup f).isSome) :
    openSlot j .read f s = .ok () { s.setSlot j (Slot.opened .read f) with io := s.io.next.2, files := s.files } := by
  rcases openSlot_cases j .read f s with ⟨m, -, reads, -, e⟩ | ⟨fails | ⟨-, absent⟩, -⟩
  · rw [e, (reads rfl).2]
  · exact absurd done fails
  · exact absurd exists_ (Bool.eq_false_iff.1 absent)

/-- R162: a WRITE open, performed by the storage. -/
theorem openSlot_write_done {j : SlotId} {f : FileId} {s : State} (done : s.io.next.1 = .done) :
    openSlot j .write f s = .ok () { s.setSlot j (Slot.opened .write f) with
      io := s.io.next.2, files := s.files.create f } := by
  rcases openSlot_cases j .write f s with ⟨m, -, -, writes, e⟩ | ⟨fails | ⟨read, -⟩, -⟩
  · rw [e, writes rfl]
  · exact absurd done fails
  · cases read

/-- R162: an open that the storage refuses, or that finds no file to read, leaves the slot closed. -/
theorem openSlot_fails {j : SlotId} {d : Dir} {f : FileId} {s : State}
    (fails : s.io.next.1 ≠ .done ∨ (d = .read ∧ s.files.lookup f = none)) :
    openSlot j d f s = .error .io { s.setSlot j Slot.reset with io := s.io.next.2 } := by
  rcases openSlot_cases j d f s with ⟨m, done, reads, -, -⟩ | ⟨-, e⟩
  · rcases fails with fails | ⟨read, absent⟩
    · exact absurd done fails
    · exact absurd (reads read).1 (by simp [absent])
  · exact e

/-- Settles O22: the ways an open can go, `openSlot_read_done`, `openSlot_write_done` and `openSlot_fails`. -/
theorem bsOpenBindsTheSlot : Obligations.BsOpenBindsTheSlot := by
  intro s j
  refine ⟨fun done names => ?_, fun done => ?_, fun d fails => ?_⟩
  · rw [bsOpen_run, runStream_ok (openSlot_read_done done names)]
    cases j <;> rfl
  · rw [bsOpen_run, runStream_ok (openSlot_write_done done)]
    cases j <;> rfl
  · rw [bsOpen_run, runStream_error (openSlot_fails fails)]

/-! ## Appending -/

/-- R34: the bit cursor of a write slot is the number of bits in its accumulator. -/
theorem wcur_of_wf {x : Slot} (wf : x.wf) (write : x.mode = .write) (fits : x.acc.length < 2 ^ 64) :
    x.wcur.toNat = x.acc.length := by
  simp only [Slot.wf, write] at wf
  obtain ⟨-, -, -, -, cursor⟩ := wf
  exact cursor fits

/-- R131: DATA_IN gives as many bits as asked for, up to 8192. -/
theorem operandData_length (s : State) {n : Nat} (range : n ≤ 8192) : (s.operandData n).length = n :=
  unpack_len _ n (by rw [Vector.length_toList]; omega)

/-- R131: bit k of DATA_IN is bit k mod 8 of its byte k div 8. -/
theorem operandData_getElem? (s : State) {n k : Nat} (range : n ≤ 8192) (hk : k < n) :
    ∃ b, s.latch.datIn[k / 8]? = some b ∧ (s.operandData n)[k]? = some (b.getLsbD (k % 8)) := by
  obtain ⟨b, hb⟩ := byte_of_bit (bytes := s.latch.datIn.toList) (by rw [Vector.length_toList]; omega) hk
  refine ⟨b, by rwa [Vector.getElem?_toList] at hb, ?_⟩
  rw [State.operandData, unpack_get _ _ _ hk, hb, Option.map_some]

/-- Settles O23: `bsWrite_run` gives the errors in their order, and the slot as the append of R165. -/
theorem bsWriteAppendsBits : Obligations.BsWriteAppendsBits := by
  intro s j
  refine ⟨fun closed => ?_, fun read => ?_, fun write long => ?_, fun write range wf fits => ?_⟩
  · rw [bsWrite_run, if_pos closed]
  · simp [bsWrite_run, read]
  · simp [bsWrite_run, write, long]
  · have len : (s.operandData s.operandBits).length = s.latch.arg0.toNat := operandData_length s range
    have run : exec (.bsWrite j) s = .next (ended .noError .idle
        (s.setSlot j ((s.slot j).append (s.operandData s.operandBits)))) := by
      simp [bsWrite_run, write, range.not_gt]
    refine ⟨_, run, ?_, fun p hp => ?_, fun k hk => ?_, ?_, write, rfl, rfl⟩
    · rw [append_acc, List.length_append, len]
    · rw [append_acc, List.getElem?_append_left hp]
    · obtain ⟨b, byte, bit⟩ := operandData_getElem? s range hk
      refine ⟨b, byte, ?_⟩
      rw [append_acc, List.getElem?_append_right (Nat.le_add_right _ _), Nat.add_sub_cancel_left]
      exact bit
    · refine wcur_of_wf (append_wf wf write _) write ?_
      rw [append_acc, List.length_append, len]
      exact fits

/-! ## Flushing and clearing -/

/-- R167: what a flush that stores nothing makes of its slot. -/
theorem flushed_zero {x : Slot} (empty : x.acc = []) : x.flushed 0 = { x with wcur := 0 } := by
  have wpos : store 64 (x.wpos.toNat + 0) = x.wpos := BitVec.eq_of_toNat_eq (store_toNat x.wpos.isLt)
  unfold Slot.flushed
  rw [wpos, ← acc_nil.1 empty]

/-- R167: the flush of an empty accumulator only syncs. -/
theorem flushSlot_empty {j : SlotId} {s : State} (empty : (s.slot j).acc = []) (done : s.io.next.1 = .done) :
    flushSlot j s = .ok () ({ s with io := s.io.next.2 }.setSlot j { s.slot j with wcur := 0 }) := by
  rcases flushSlot_cases j s with ⟨o, e, rfl, -⟩ | ⟨m, o, n, -, fails, -⟩
  · simpa [flushedFiles, empty, flushed_zero empty] using e
  · simp [empty, done] at fails

/-- R167: the flush of a filled accumulator stores it at WPOS and syncs. -/
theorem flushSlot_filled {j : SlotId} {s : State} (filled : (s.slot j).acc ≠ []) (write : s.io.next.1 = .done)
    (sync : s.io.next.2.next.1 = .done) :
    flushSlot j s = .ok () ({ s with
        io := s.io.next.2.next.2
        files := s.files.update (s.slot j).file
          (splice (s.files.contents (s.slot j).file) (s.slot j).wpos.toNat (pack (s.slot j).acc)) }.setSlot j
      ((s.slot j).flushed (pack (s.slot j).acc).length)) := by
  have stores : (pack (s.slot j).acc).length > 0 := pack_pos.2 filled
  rcases flushSlot_cases j s with ⟨o, e, rfl, -⟩ | ⟨m, o, n, -, fails, -⟩
  · rwa [flushedFiles, if_pos stores, if_pos stores] at e
  · simp [write, sync] at fails

/-- R167: a flush whose write or sync fails leaves only the slot's file in doubt. -/
theorem flushSlot_fails {j : SlotId} {s : State}
    (fails : s.io.next.1 ≠ .done ∨ ((s.slot j).acc ≠ [] ∧ s.io.next.2.next.1 ≠ .done)) :
    ∃ m o n, flushSlot j s = .error .io { s with io := o, files := m, taken := n } ∧
      Touched (s.slot j).file s.files m := by
  rcases flushSlot_cases j s with ⟨o, -, -, first, second⟩ | ⟨m, o, n, e, -, touched⟩
  · rcases fails with fails | ⟨filled, fails⟩
    · exact absurd first fails
    · exact absurd (second (pack_pos.2 filled)) fails
  · exact ⟨m, o, n, e, touched⟩

/-- Settles O24: the three ways a flush can go, `flushSlot_empty`, `flushSlot_filled` and `flushSlot_fails`. -/
theorem bsFlushWritesTheAccumulator : Obligations.BsFlushWritesTheAccumulator := by
  intro s j
  have run (write : (s.slot j).mode = .write) : exec (.bsFlush j) s = .next (runStream (flushSlot j) s) := by
    simp [bsFlush_run, write]
  refine ⟨fun closed => ?_, fun read => ?_, fun write empty done => ?_, fun write filled first second fits => ?_,
    fun write fails => ?_⟩
  · rw [bsFlush_run, if_pos closed]
  · simp [bsFlush_run, read]
  · rw [run write, runStream_ok (flushSlot_empty empty done)]
  · rw [run write, runStream_ok (flushSlot_filled filled first second), Slot.flushed, store_of_lt fits]
  · obtain ⟨m, o, n, e, others, -⟩ := flushSlot_fails fails
    exact ⟨_, (run write).trans (congrArg _ (runStream_error e)), rfl, rfl, rfl, rfl, others⟩

/-- R170: a truncation that fails leaves only the slot's file in doubt. -/
theorem truncateSlot_fails {j : SlotId} {s : State} (fails : s.io.next.1 ≠ .done) :
    ∃ m o n, truncateSlot j s = .error .io { s with io := o, files := m, taken := n } ∧
      Touched (s.slot j).file s.files m := by
  rcases truncateSlot_cases j s with ⟨done, -⟩ | ⟨-, e⟩ | ⟨-, e⟩
  · exact absurd done fails
  · exact ⟨_, _, _, e, touched_update _ _ _⟩
  · exact ⟨_, _, _, e, Touched.refl _ _⟩

/-- R170: a truncation that the storage performs. -/
theorem truncateSlot_done {j : SlotId} {s : State} (done : s.io.next.1 = .done) :
    truncateSlot j s = .ok () ({ s with io := s.io.next.2, files := s.files.update (s.slot j).file [] }.setSlot j
      { s.slot j with wpos := 0 }) := by
  rcases truncateSlot_cases j s with ⟨-, e⟩ | ⟨fails, -⟩ | ⟨fails, -⟩
  · exact e
  · cases done.symm.trans fails
  · cases done.symm.trans fails

/-- Settles O25: the two ways a truncation can go, `truncateSlot_done` and `truncateSlot_fails`. -/
theorem bsClearTruncatesTheFile : Obligations.BsClearTruncatesTheFile := by
  intro s j
  have run (write : (s.slot j).mode = .write) : exec (.bsClear j) s = .next (runStream (truncateSlot j) s) := by
    simp [bsClear_run, write]
  refine ⟨fun closed => ?_, fun read => ?_, fun write done => ?_, fun write fails => ?_⟩
  · rw [bsClear_run, if_pos closed]
  · simp [bsClear_run, read]
  · rw [run write, runStream_ok (truncateSlot_done done)]
  · obtain ⟨m, o, n, e, others, -⟩ := truncateSlot_fails (j := j) fails
    exact ⟨_, (run write).trans (congrArg _ (runStream_error e)), rfl, rfl, rfl, rfl, others⟩

/-- Settles O26: mode by mode, by `bsRewind_run`. -/
theorem bsRewindReturnsToStart : Obligations.BsRewindReturnsToStart := by
  intro s j
  refine ⟨fun closed => ?_, fun write => ?_, fun read => ?_⟩
  · rw [bsRewind_run, if_pos closed]
  · simp [bsRewind_run, write]
  · simp [bsRewind_run, read, Slot.rewound]

end Sys2Proof.Proofs
end

section
/-! The statements of spec/40_bitstream.md, part 2: what BS_READ delivers (rules R172 to R176), and that it gives back
what was written (R180). -/

namespace Sys2Proof.Proofs

open Sys2Proof.Machine Sys2Proof.Laws

/-! ## The errors of a read -/

/-- R172, R173: a read of an exhausted slot fails where its first refill does, and changes nothing. -/
theorem readBits_fails {j : SlotId} {n : Nat} {s : State} (exhausted : (s.slot j).cur.toNat = (s.slot j).validBits)
    (fails : s.io.next.1 ≠ .done) : readBits j n s = .error .io { s with io := s.io.next.2 } := by
  rcases refill_cases j s with ⟨done, -⟩ | ⟨-, e⟩
  · exact absurd done fails
  · simp only [readBits, bind_apply, getSlot_apply, Laws.ite_apply, if_pos exhausted, e]

/-- R174: BS_READ of an open read slot, with its length in range. -/
theorem bsRead_run_in_range {j : SlotId} {s : State} (read : (s.slot j).mode = .read)
    (range : s.latch.arg0.toNat ≤ 8192) :
    exec (.bsRead j) s = .next (runStream (readBits j s.latch.arg0.toNat >>= writeReadResult) s) := by
  simp [bsRead_run, read, range.not_gt]

/-- R174: BS_READ fails as its read does. -/
theorem bsRead_error {j : SlotId} {s t : State} {e : ErrCode} (read : (s.slot j).mode = .read)
    (range : s.latch.arg0.toNat ≤ 8192) (run : readBits j s.latch.arg0.toNat s = .error e t) :
    exec (.bsRead j) s = .next (ended e .idle t) := by
  rw [bsRead_run_in_range read range, runStream_error (by rw [bind_apply, run])]

/-- R174, R176: BS_READ reports what its read delivers. -/
theorem bsRead_ok {j : SlotId} {s t : State} {out : BitSeq} (read : (s.slot j).mode = .read)
    (range : s.latch.arg0.toNat ≤ 8192) (run : readBits j s.latch.arg0.toNat s = .ok out t) :
    exec (.bsRead j) s = .next (ended .noError .idle
      { t with resultBits := store 32 out.length, dataOut := packedOut out }) := by
  rw [bsRead_run_in_range read range, runStream_ok (by rw [bind_apply, run]; exact modify_apply _ _)]

/-- Settles O27: the errors by `bsRead_run` and `readBits_fails`, the results by `bsRead_ends`. -/
theorem bsReadErrorsKeepResults : Obligations.BsReadErrorsKeepResults := by
  intro s j
  refine ⟨fun closed => ?_, fun write => ?_, fun read long => ?_, fun read range exhausted fails => ?_,
    fun t run raised => ?_⟩
  · rw [bsRead_run, if_pos closed]
  · simp [bsRead_run, write]
  · simp [bsRead_run, read, long]
  · exact bsRead_error read range (readBits_fails exhausted fails)
  · obtain ⟨e, x, o, r, d, run', -, -, -, kept⟩ := bsRead_ends j s
    cases run.symm.trans run'
    obtain ⟨rfl, rfl⟩ := kept raised
    cases j <;> exact ⟨rfl, rfl⟩

/-! ## What a read delivers -/

/-- R176: bit k of DATA_OUT after a read is bit k of what it delivered, and 0 beyond. -/
theorem packedOut_bit (out : BitSeq) {k : Nat} (hk : k < 8192) :
    ∃ a, (packedOut out)[k / 8]? = some a ∧ a.getLsbD (k % 8) = (out[k]?).getD false := by
  refine ⟨byteAt (pack out) (k / 8), by simp [packedOut, show k / 8 < 1024 by omega], ?_⟩
  rw [byteAt, List.getD_eq_getElem?_getD]
  cases byte : (pack out)[k / 8]? with
  | some b =>
    rw [Option.getD_some, pack_getLsbD (Nat.mod_lt k (by decide)) byte, Nat.div_add_mod]
  | none =>
    rw [List.getElem?_eq_none_iff, pack_length] at byte
    rw [List.getElem?_eq_none (show out.length ≤ k by omega)]
    exact BitVec.getLsbD_zero

/-- The bits of a file from a position on: as many as asked for and left. -/
theorem length_take_drop_fileBits (F : List Byte) (p n : Nat) :
    (((fileBits F).drop p).take n).length = min n (8 * F.length - p) := by
  rw [List.length_take, List.length_drop, length_fileBits]

/-- R110: bit k from a position on is the file's bit there. -/
theorem take_drop_fileBits_getElem? {F : List Byte} {p n k : Nat} (hk : k < min n (8 * F.length - p)) :
    ∃ b, F[(p + k) / 8]? = some b ∧ (((fileBits F).drop p).take n)[k]? = some (b.getLsbD ((p + k) % 8)) := by
  have byte := List.getElem?_eq_getElem (show (p + k) / 8 < F.length by omega)
  refine ⟨_, byte, ?_⟩
  rw [List.getElem?_take_of_lt (by omega), List.getElem?_drop, fileBits_get, byte, Option.map_some]

/-- Settles O28: the read by `readBits_delivers`, its bits as they stand in DATA_OUT by `packedOut_bit`. -/
theorem bsReadDeliversTheNextBits : Obligations.BsReadDeliversTheNextBits := by
  rintro s j n coherent range fits rfl
  have read := coherent_mode coherent
  rcases readBits_delivers s.latch.arg0.toNat coherent rfl (.inl fits) with ⟨u, run, delivered⟩ | ⟨u, run, fails⟩
  · have exec_eq := bsRead_ok read range run
    refine ⟨fun _ => ⟨_, exec_eq, rfl⟩, fun t ran _ => ?_⟩
    cases ran.symm.trans exec_eq
    have len := length_take_drop_fileBits (s.files.contents (s.slot j).file) (s.slot j).position s.latch.arg0.toNat
    have bits {k : Nat} := packedOut_bit (k := k) (((fileBits (s.files.contents (s.slot j).file)).drop
      (s.slot j).position).take s.latch.arg0.toNat)
    obtain ⟨coherent', position, file⟩ := delivered.slot
    refine ⟨?_, fun k hk => ?_, fun k ge lt => ?_, ?_, ?_⟩
    · exact (store_toNat (by omega)).trans len
    · obtain ⟨a, out, bit⟩ := bits (k := k) (by omega)
      obtain ⟨b, byte, bit'⟩ := take_drop_fileBits_getElem? hk
      exact ⟨a, b, out, byte, by rw [bit, bit', Option.getD_some]⟩
    · obtain ⟨a, out, bit⟩ := bits lt
      exact ⟨a, out, by rw [bit, List.getElem?_eq_none (by omega), Option.getD_none]⟩
    · cases j <;> exact position
    · rw [← file, ← delivered.files] at coherent'
      cases j <;> exact coherent'
  · have exec_eq := bsRead_error read range run
    refine ⟨fun never => absurd never fails, fun t ran ok => ?_⟩
    cases ran.symm.trans exec_eq
    cases ok

/-! ## Reading back what was written -/

/-- A computation goes on from where its first part ends. -/
theorem bind_ok {α β : Type} {m : Cmd α} {f : α → Cmd β} {s t : State} {a : α} (h : m s = .ok a t) :
    (m >>= f) s = f a t := by rw [bind_apply, h]

/-- R167: the flush of a write slot at offset 0 of its empty file makes the file the packed accumulator. -/
theorem flushSlot_over_empty {i : SlotId} {s : State} (never : s.io.neverFails) (start : (s.slot i).wpos = 0)
    (empty : s.files.lookup (s.slot i).file = some []) :
    ∃ t, flushSlot i s = .ok () t ∧ t.io.neverFails ∧
      t.files.lookup (s.slot i).file = some (pack (s.slot i).acc) := by
  obtain ⟨first, never'⟩ := neverFails_next never
  obtain ⟨second, never''⟩ := neverFails_next never'
  by_cases filled : (s.slot i).acc = []
  · exact ⟨_, flushSlot_empty filled first, by simpa using never', by simpa [filled] using empty⟩
  · refine ⟨_, flushSlot_filled filled first second, by simpa using never'', ?_⟩
    rw [setSlot_files, lookup_update_self, start, Memory.contents, empty]
    simp [splice]

/-- R162: a WRITE open on a storage that does not fail. -/
theorem openSlot_write_never {i : SlotId} {f : FileId} {s : State} (never : s.io.neverFails) :
    ∃ t, openSlot i .write f s = .ok () t ∧ t.io.neverFails ∧ t.slot i = Slot.opened .write f := by
  obtain ⟨done, never⟩ := neverFails_next never
  refine ⟨_, openSlot_write_done done, never, ?_⟩
  cases i <;> rfl

/-- R162: a READ open of a file that exists, on a storage that does not fail. -/
theorem openSlot_read_never {i : SlotId} {f : FileId} {s : State} (never : s.io.neverFails)
    (exists_ : (s.files.lookup f).isSome) :
    ∃ t, openSlot i .read f s = .ok () t ∧ t.io.neverFails ∧ t.slot i = Slot.opened .read f ∧ t.files = s.files := by
  obtain ⟨done, never⟩ := neverFails_next never
  refine ⟨_, openSlot_read_done done exists_, never, ?_, rfl⟩
  cases i <;> rfl

/-- R170: a truncation on a storage that does not fail. -/
theorem truncateSlot_never {i : SlotId} {s : State} (never : s.io.neverFails) :
    ∃ t, truncateSlot i s = .ok () t ∧ t.io.neverFails ∧ t.slot i = { s.slot i with wpos := 0 } ∧
      t.files.lookup (s.slot i).file = some [] := by
  obtain ⟨done, never⟩ := neverFails_next never
  exact ⟨_, truncateSlot_done done, by simpa using never, slot_setSlot_self _ _ _, by simp⟩

/-- R175: a read of a coherent slot on a storage that does not fail. -/
theorem readBits_never {i : SlotId} {F : List Byte} {s : State} (never : s.io.neverFails) (size : Nat)
    (coherent : (s.slot i).coherent F) (file : s.files.contents (s.slot i).file = F) (fits : F.length < 2 ^ 64) :
    ∃ t, readBits i size s = .ok (((fileBits F).drop (s.slot i).position).take size) t ∧
      Delivered i F s t (min size (8 * F.length - (s.slot i).position)) :=
  (readBits_delivers size coherent file (.inl fits)).resolve_right fun ⟨_, _, fails⟩ => fails never

/-- R12: a packed sequence's bytes begin with its bits. -/
theorem fileBits_pack (x : BitSeq) : ∃ pad, fileBits (pack x) = x ++ pad := by
  refine ⟨(fileBits (pack x)).drop x.length, ?_⟩
  nth_rw 2 [← unpack_pack x]
  exact (List.take_append_drop _ _).symm

/-- R165: an append makes no storage request. -/
theorem appendBits_ok (i : SlotId) (bits : BitSeq) (s : State) : ∃ t, appendBits i bits s = .ok () t ∧
    t.slot i = (s.slot i).append bits ∧ t.files = s.files ∧ t.io = s.io :=
  ⟨_, appendBits_apply i bits s, slot_setSlot_self _ _ _, setSlot_files _ _ _, setSlot_io _ _ _⟩

/-- R175: two reads of a fresh read slot on a file packed from p and w. -/
theorem readBits_twice {j : SlotId} {f : FileId} {p w : BitSeq} {s : State} (never : s.io.neverFails)
    (fresh : s.slot j = Slot.opened .read f) (holds : s.files.contents f = pack (p ++ w))
    (short : p.length + w.length < 2 ^ 64) :
    ∃ t u, readBits j p.length s = .ok p t ∧ readBits j w.length t = .ok w u := by
  have length : (pack (p ++ w)).length = (p.length + w.length + 7) / 8 := by rw [pack_length, List.length_append]
  obtain ⟨coherent, start⟩ := opened_coherent f (pack (p ++ w))
  rw [← fresh] at coherent start
  obtain ⟨t, first, delivered⟩ := readBits_never never p.length coherent (by rw [fresh]; exact holds) (by omega)
  obtain ⟨coherent', position, file⟩ := delivered.slot
  obtain ⟨u, second, -⟩ := readBits_never (delivered.neverFails never) w.length coherent'
    (by rw [file, fresh, delivered.files]; exact holds) (by omega)
  have position' : (t.slot j).position = p.length := by omega
  obtain ⟨pad, bits⟩ := fileBits_pack (p ++ w)
  rw [bits, List.append_assoc] at first second
  rw [start, List.drop_zero, List.take_left] at first
  rw [position', List.drop_left, List.take_left] at second
  exact ⟨t, u, first, second⟩

/-- Settles O29: each operation runs by its rule; the flush packs p ++ w, and `readBits_twice` reads p and w back. -/
theorem readBackGivesWhatWasWritten : Obligations.ReadBackGivesWhatWasWritten := by
  intro s i j f p w never hp hw
  obtain ⟨s1, opens, never1, slot1⟩ := openSlot_write_never (i := i) (f := f) never
  obtain ⟨s2, clears, never2, slot2, empty⟩ := truncateSlot_never (i := i) never1
  obtain ⟨s3, first, slot3, files3, io3⟩ := appendBits_ok i p s2
  obtain ⟨s4, second, slot4, files4, io4⟩ := appendBits_ok i w s3
  rw [slot1] at slot2 empty
  rw [slot3, slot2] at slot4
  have acc : (s4.slot i).acc = p ++ w := by rw [slot4, append_acc, append_acc]; rfl
  have file : (s4.slot i).file = f := by rw [slot4]; rfl
  obtain ⟨s5, flushes, never5, written⟩ := flushSlot_over_empty (i := i) (s := s4) (by rwa [io4, io3])
    (by rw [slot4]; rfl) (by rw [file, files4, files3]; exact empty)
  rw [file, acc] at written
  obtain ⟨s6, reopens, never6, slot6, files6⟩ := openSlot_read_never (i := j) (f := f) never5 (by rw [written]; rfl)
  have holds : s6.files.contents f = pack (p ++ w) := by rw [files6, Memory.contents, written, Option.getD_some]
  obtain ⟨s7, s8, readsP, readsW⟩ := readBits_twice never6 slot6 holds (by omega)
  refine ⟨s8, ?_⟩
  rw [bind_ok opens, bind_ok clears, bind_ok first, bind_ok second, bind_ok flushes, bind_ok reopens, bind_ok readsP,
    bind_ok readsW, pure_apply]

end Sys2Proof.Proofs
end

section
/-! The statements of spec/40_bitstream.md, part 3: what a stream command leaves unchanged (rules R72, R103, R104, R162
to R178). -/

namespace Sys2Proof.Proofs

open Sys2Proof.Machine Sys2Proof.Laws

/-! ## The frame all stream commands share -/

/-- Beside the storage, its oracle, the count of free values, the results, and what every completion writes, only SLOT[j]
differs. -/
structure SlotFrame (j : SlotId) (s t : State) : Prop where
  tables : sameTables s t
  operands : sameOperands s t
  walk : sameWalk s t
  inputs : sameInputs s t
  ovr : t.status.ovr = s.status.ovr
  other : t.slot j.other = s.slot j.other

/-- What a command leaves that completes over another SLOT[j], storage, oracle, count and results. -/
theorem slotFrame_of_run {i : Instr} {j : SlotId} {s t : State} {e : ErrCode} {o : IoOracle} {m : Memory} {n : Nat}
    {r : Word} {d : Vector Byte 1024} {x : Slot} (run : exec i s = .next t)
    (ends : exec i s = .next (ended e .idle
      ({ s with io := o, files := m, taken := n, resultBits := r, dataOut := d }.setSlot j x))) :
    SlotFrame j s t ∧ (t.resultBits = r ∧ t.dataOut = d) ∧ t.slot j = x ∧ t.files = m ∧ t.io = o ∧ t.taken = n ∧
      t.status.err = e := by
  cases run.symm.trans ends
  cases j <;> exact ⟨⟨⟨rfl, rfl, rfl, rfl, rfl⟩, ⟨rfl, rfl, rfl, rfl, rfl⟩, ⟨rfl, rfl⟩, ⟨rfl, rfl⟩, rfl, rfl⟩,
    ⟨rfl, rfl⟩, rfl, rfl, rfl, rfl, rfl⟩

theorem sameFiles_of_eq {s t : State} (h : t.files = s.files) : sameFiles s t :=
  ⟨fun _ _ => by rw [h], fun _ => by rw [h]⟩

/-- A file that is looked up alike has the same bytes and exists alike. -/
theorem sameFilesBut_of_touched {f : FileId} {s t : State} (h : Touched f s.files t.files) : sameFilesBut f s t := by
  obtain ⟨others, -⟩ := h
  intro g ne
  simp only [Memory.readByte, Memory.contents, others g ne, implies_true, and_self]

/-! ## BS_WRITE and BS_REWIND -/

/-- Settles O30: `bsWrite_ends` and `bsRewind_ends` leave the slot as it was, appended to, or rewound. -/
theorem frameOfWriteAndRewind : Obligations.FrameOfWriteAndRewind := by
  rintro i j s t (rfl | rfl) run
  · obtain ⟨e, x, ends, slot_cases⟩ := bsWrite_ends j s
    obtain ⟨frame, results, slot, files, io, taken, -⟩ := slotFrame_of_run run ends
    refine ⟨frame.tables, frame.operands, results, frame.walk, frame.inputs, sameFiles_of_eq files, io, taken,
      frame.ovr, frame.other, ?_⟩
    rw [slot]
    rcases slot_cases with ⟨-, rfl, -⟩ | ⟨-, rfl, -⟩ <;>
    exact ⟨rfl, rfl, rfl, fun _ => ⟨rfl, rfl, rfl, rfl⟩, nofun⟩
  · obtain ⟨e, x, ends, slot_cases⟩ := bsRewind_ends j s
    obtain ⟨frame, results, slot, files, io, taken, -⟩ := slotFrame_of_run run ends
    refine ⟨frame.tables, frame.operands, results, frame.walk, frame.inputs, sameFiles_of_eq files, io, taken,
      frame.ovr, frame.other, ?_⟩
    rw [slot]
    rcases slot_cases with ⟨-, rfl, -⟩ | ⟨-, rfl, -⟩ <;>
    exact ⟨rfl, rfl, rfl, nofun, fun _ => ⟨rfl, rfl⟩⟩

/-! ## BS_READ -/

section ReadRule

variable {R : State → State → Prop} {i : SlotId} (refl : ∀ s, R s s) (trans : ∀ s t u, R s t → R t u → R s u)
  (refills : Relates R (refill i)) (takes : ∀ out size, Relates R (take i out size))
include refl trans refills takes

/-- R173: what every refill and every `Take` keeps, the loop keeps. -/
theorem readMore_relates (size : Nat) : ∀ (k : Nat) (out : BitSeq), Relates R (readMore k i out size)
  | 0, out => relates_pure refl out
  | k + 1, out => by
    refine relates_ite (relates_bind trans refills fun _ => relates_bind trans (fun s => refl s) fun x => ?_)
      (relates_pure refl out)
    exact relates_ite (relates_pure refl out) (relates_bind trans (takes out size) (readMore_relates size k))

/-- R173: what every refill and every `Take` keeps, a read keeps. -/
theorem readBits_relates (size : Nat) : Relates R (readBits i size) := by
  have chunks : Relates R (readChunks i size) :=
    relates_bind trans (takes [] size) (readMore_relates refl trans refills takes size size)
  refine relates_bind trans (fun s => refl s) fun x => relates_ite ?_ chunks
  refine relates_bind trans refills fun _ => relates_bind trans (fun s => refl s) fun y => ?_
  exact relates_ite (relates_pure refl []) chunks

end ReadRule

/-- ACC, WCUR and WPOS of SLOT[j], which mean something in mode WRITE only (R31), are the same. -/
def SameWriteFields (j : SlotId) (s t : State) : Prop :=
  (t.slot j).acc = (s.slot j).acc ∧ (t.slot j).wcur = (s.slot j).wcur ∧ (t.slot j).wpos = (s.slot j).wpos

theorem SameWriteFields.refl (j : SlotId) (s : State) : SameWriteFields j s s := ⟨rfl, rfl, rfl⟩

theorem SameWriteFields.trans (j : SlotId) (s t u : State) (h : SameWriteFields j s t) (h' : SameWriteFields j t u) :
    SameWriteFields j s u :=
  ⟨h'.1.trans h.1, h'.2.1.trans h.2.1, h'.2.2.trans h.2.2⟩

theorem refill_sameWriteFields (j : SlotId) : Relates (SameWriteFields j) (refill j) := by
  intro s
  unfold after
  rcases refill_cases j s with ⟨-, e⟩ | ⟨-, e⟩ <;> rw [e] <;> cases j <;> exact ⟨rfl, rfl, rfl⟩

theorem take_sameWriteFields (j : SlotId) (out : BitSeq) (size : Nat) :
    Relates (SameWriteFields j) (take j out size) := by
  intro s
  unfold after
  rw [take_apply]
  cases j <;> exact ⟨rfl, rfl, rfl⟩

/-- R172, R173: a read does not write the fields of a write slot. -/
theorem readBits_sameWriteFields (j : SlotId) (size : Nat) : Relates (SameWriteFields j) (readBits j size) :=
  readBits_relates (SameWriteFields.refl j) (SameWriteFields.trans j) (refill_sameWriteFields j)
    (take_sameWriteFields j) size

/-- R160: the check of a slot changes nothing. -/
theorem checkSlot_relates {R : State → State → Prop} (refl : ∀ s, R s s) (j : SlotId) (m : Mode) :
    Relates R (checkSlot j m) := by
  intro s
  unfold after
  rcases checkSlot_cases j m s with ⟨-, e⟩ | ⟨-, -, e⟩ | ⟨-, -, e⟩ <;> rw [e] <;> exact refl s

/-- R174: BS_READ does not write them either. -/
theorem bsRead_sameWriteFields (j : SlotId) (s : State) : SameWriteFields j s (runStream (bsReadBody j) s) := by
  have refl := SameWriteFields.refl j
  have trans := SameWriteFields.trans j
  refine runStream_relates trans (fun e p s => ?_) (relates_bind trans (checkSlot_relates refl j .read) fun _ =>
    relates_bind trans (relates_get refl) fun s => relates_bind trans
      (relates_ite (relates_throw refl _) (relates_pure refl _)) fun _ =>
        relates_bind trans (readBits_sameWriteFields j _) fun out => relates_modify fun s => ?_) s
  · cases j <;> exact refl s
  · cases j <;> exact refl s

/-- Settles O31: `bsRead_ends`, and `bsRead_sameWriteFields` for what it leaves open of the slot. -/
theorem frameOfRead : Obligations.FrameOfRead := by
  intro j s t run
  have write := bsRead_sameWriteFields j s
  rw [show runStream (bsReadBody j) s = t from Host.Outcome.next.inj run] at write
  obtain ⟨acc, wcur, wpos⟩ := write
  obtain ⟨e, x, o, r, d, ends, mode, file, -⟩ := bsRead_ends j s
  obtain ⟨frame, -, slot, files, -, taken, -⟩ := slotFrame_of_run run ends
  exact ⟨frame.tables, frame.operands, frame.walk, frame.inputs, sameFiles_of_eq files, taken, frame.ovr, frame.other,
    slot ▸ mode, slot ▸ file, acc, wcur, wpos⟩

/-! ## BS_OPEN -/

/-- R102: a created file is empty if it was absent, so no byte of any file changes. -/
theorem contents_create (m : Memory) (f g : FileId) : (m.create f).contents g = m.contents g := by
  unfold Memory.contents
  rw [lookup_create]
  split
  · next e => rw [e]; rfl
  · rfl

/-- Settles O32: `bsOpen_ends` leaves the storage as it was, or ARG0 created. -/
theorem frameOfOpen : Obligations.FrameOfOpen := by
  intro j d s t run
  obtain ⟨e, x, o, m, ends, made⟩ := bsOpen_ends j d s
  obtain ⟨frame, results, -, files, -, taken, -⟩ := slotFrame_of_run run ends
  have storage : t.files = s.files ∨ d = .write ∧ t.files = s.files.create s.latch.arg0 := by
    rw [files]
    rcases made with ⟨-, -, reads, writes⟩ | ⟨-, -, kept⟩
    · cases d with
      | read => exact .inl (reads rfl).2
      | write => exact .inr ⟨rfl, writes rfl⟩
    · exact .inl kept
  refine ⟨frame.tables, frame.operands, results, frame.walk, frame.inputs, fun f a => ?_, fun f not_made => ?_, taken,
    frame.ovr, frame.other⟩
  · rcases storage with same | ⟨-, created⟩
    · rw [same]
    · rw [created, Memory.readByte, contents_create, Memory.readByte]
  · rcases storage with same | ⟨rfl, created⟩
    · rw [same]
    · rw [created, lookup_create, if_neg (not_made.resolve_right nofun)]

/-! ## BS_FLUSH and BS_CLEAR -/

/-- R104: a flush changes no byte of its file outside those it stores. -/
theorem flushedFiles_readByte_outside (x : Slot) (m : Memory) {a : Nat} (inside : a < (m.contents x.file).length)
    (out : a < x.wpos.toNat ∨ x.wpos.toNat + (pack x.acc).length ≤ a) :
    (flushedFiles x m).readByte x.file a = m.readByte x.file a := by
  unfold flushedFiles
  split
  · rw [Memory.readByte, contents_update_self, splice_getElem?_outside _ _ _ inside out, Memory.readByte]
  · rfl

/-- Settles O33: `bsFlush_ends` and `bsClear_ends`, and the splice of R104 for the bytes a flush keeps. -/
theorem frameOfFlushAndClear : Obligations.FrameOfFlushAndClear := by
  rintro i j s t (rfl | rfl) run
  · obtain ⟨e, x, o, m, n, ends, touched, slot_cases⟩ := bsFlush_ends j s
    obtain ⟨frame, results, slot, files, -, -, err⟩ := slotFrame_of_run run ends
    refine ⟨frame.tables, frame.operands, results, frame.walk, frame.inputs,
      sameFilesBut_of_touched (files ▸ touched), frame.ovr, frame.other, ?_⟩
    rw [slot, files, err]
    rcases slot_cases with ⟨-, rfl, rfl, -⟩ | ⟨raised, rfl, -⟩
    · exact ⟨rfl, rfl, rfl, rfl, rfl, rfl, nofun, fun _ _ a out inside =>
        flushedFiles_readByte_outside _ _ inside out⟩
    · exact ⟨rfl, rfl, rfl, rfl, rfl, rfl, nofun, fun _ none => absurd none raised⟩
  · obtain ⟨e, x, o, m, n, ends, touched, slot_cases⟩ := bsClear_ends j s
    obtain ⟨frame, results, slot, files, -⟩ := slotFrame_of_run run ends
    refine ⟨frame.tables, frame.operands, results, frame.walk, frame.inputs,
      sameFilesBut_of_touched (files ▸ touched), frame.ovr, frame.other, ?_⟩
    rw [slot]
    rcases slot_cases with ⟨-, rfl, -⟩ | ⟨-, rfl, -⟩ <;>
    exact ⟨rfl, rfl, rfl, rfl, rfl, rfl, fun _ => ⟨rfl, rfl⟩, nofun⟩

end Sys2Proof.Proofs
end

section
/-! The statements of spec/41_huffman_tree.md: the leaves and the merge rounds of a build (rules R224, R225), the code
table (R228 to R231, R235), and the header (R233). -/

namespace Sys2Proof.Proofs

open Sys2Proof.Machine Sys2Proof.Laws

/-! ## The leaves -/

/-- An element that a filter keeps stands in its result at the number of kept elements before it. -/
theorem filter_getElem?_countP_take {α : Type} {p : α → Bool} {l : List α} {k : Nat} (hk : k < l.length)
    (kept : p l[k]) : (l.filter p)[(l.take k).countP p]? = some l[k] := by
  have split_at : l.filter p = (l.take k).filter p ++ l[k] :: (l.drop (k + 1)).filter p := by
    rw [← List.filter_cons_of_pos kept, List.cons_getElem_drop_succ, ← List.filter_append, List.take_append_drop]
  rw [split_at, List.countP_eq_length_filter, List.getElem?_append_right le_rfl, Nat.sub_self,
    List.getElem?_cons_zero]

/-- The place of a symbol's leaf (R224): how many symbols before it have a count. -/
def rank (freq : Vector Word 256) (v : Byte) : Nat :=
  (symbols.take v.toNat).countP fun u => freqOf freq u ≠ 0

/-- R224: the symbols that take part stand at their ranks. -/
theorem used_getElem?_rank {freq : Vector Word 256} {v : Byte} (h : freqOf freq v ≠ 0) :
    (used freq symbols)[rank freq v]? = some v := by
  have inside : v.toNat < symbols.length := by
    rw [symbols_length]
    exact v.isLt
  have itself : symbols[v.toNat] = v := (symbols_getElem _ inside).trans (BitVec.ofNat_toNat 8 v)
  have kept : decide (freqOf freq symbols[v.toNat] ≠ 0) := by simpa [itself] using h
  exact (filter_getElem?_countP_take inside kept).trans (congrArg some itself)

/-- Settles O38: the leaves stand in the order of the symbols that take part, `used_getElem?_rank`. -/
theorem leavesInSymbolOrder : Obligations.LeavesInSymbolOrder := by
  intro freq v h
  obtain ⟨inside, sym⟩ := List.getElem?_eq_some_iff.1 (used_getElem?_rank h)
  have place : (BitVec.ofNat 9 (rank freq v)).toNat = rank freq v := by
    have few := used_symbols_length freq
    rw [BitVec.toNat_ofNat, Nat.mod_eq_of_lt (by omega)]
  refine ⟨BitVec.ofNat 9 (rank freq v), place, ?_⟩
  rw [build_leaf freq _ (place.symm ▸ inside)]
  simp only [place, sym]
  rfl

/-! ## The merge rounds -/

/-- Settles O40: `popMin_least` for one PopMin, `build_rounds` for the rounds of a build. -/
theorem popMinTakesTheLeast : Obligations.PopMinTakesTheLeast := by
  refine ⟨fun t w some_ rising => popMin_least some_ rising, ?_⟩
  rintro freq t rfl
  obtain ⟨W, start, rounds⟩ := build_rounds freq
  rw [(build_counts freq).1, usedCount]
  refine ⟨W, start, fun r hr => ?_⟩
  obtain ⟨a, b, n, place, ⟨ha, leastA⟩, ⟨hb, leastB⟩, merged⟩ := rounds r hr
  exact ⟨a, b, n, place, ha, hb, leastA, leastB, merged⟩

/-! ## The code table -/

/-- The code generator keeps the tree of the build, so LEAF_COUNT is the number of symbols with a count. -/
theorem deriveCodes_leafCount (s : State) :
    s.buildTree.deriveCodes.tree.leafCount.toNat = usedCount s.freq := by
  rw [(codes_of s).2.2, (build_counts s.freq).1]

/-- R228: with two leaves or more, the code of a symbol with a count is a path from the root to its leaf. -/
theorem codeOf_path {s : State} {v : Byte} (h : freqOf s.freq v ≠ 0) (two : 2 ≤ usedCount s.freq) :
    ∃ j, Path (Tree.build s.freq) (Tree.build s.freq).root (s.buildTree.deriveCodes.codeOf v) j ∧
      ((Tree.build s.freq).nodeAt j).leaf = true ∧ ((Tree.build s.freq).nodeAt j).sym = v := by
  obtain ⟨q, rfl, -, -, -, -, -, long⟩ := code_spec s v h
  obtain ⟨-, j, path, -, leaf, sym⟩ := long two
  exact ⟨j, path, leaf, sym⟩

/-- R228: CODE_LEN is the length of a symbol's code, and at least 1 where the symbol has a count. -/
theorem codeLen_toNat {s : State} {v : Byte} (h : freqOf s.freq v ≠ 0) :
    (entry s.buildTree.deriveCodes.codeLen v.toNat 0).toNat = (s.buildTree.deriveCodes.codeOf v).length ∧
    1 ≤ (s.buildTree.deriveCodes.codeOf v).length := by
  obtain ⟨q, rfl, len, -, pos, short, -, -⟩ := code_spec s v h
  rw [len]
  exact ⟨store_toNat (by omega), pos⟩

/-- A symbol with a count takes part. -/
theorem usedCount_pos {freq : Vector Word 256} {v : Byte} (h : freqOf freq v ≠ 0) : 0 < usedCount freq := by
  obtain ⟨i, hi, -⟩ := used_index freq h
  exact Nat.zero_lt_of_lt hi

/-- Settles O41: the code is a `Path` by `codeOf_path`. -/
theorem codesAreRootToLeafPaths : Obligations.CodesAreRootToLeafPaths := by
  rintro s t v rfl h two
  rw [deriveCodes_leafCount] at two
  obtain ⟨j, path, leaf, sym⟩ := codeOf_path h two
  rw [(codes_of s).2.2, path.foldl]
  exact ⟨leaf, sym, path.inner⟩

/-- R235: where one code begins another, both end at the same leaf, as a path meets no leaf on its way. -/
theorem eq_of_codeOf_isPrefixOf {s : State} {u v : Byte} (hu : freqOf s.freq u ≠ 0) (hv : freqOf s.freq v ≠ 0)
    (isPrefix : isPrefixOf (s.buildTree.deriveCodes.codeOf u) (s.buildTree.deriveCodes.codeOf v)) : u = v := by
  have pos := usedCount_pos hu
  by_cases one : usedCount s.freq = 1
  · exact used_single s.freq one hu hv
  obtain ⟨i, pathU, leafU, symU⟩ := codeOf_path hu (by omega)
  obtain ⟨j, pathV, -, symV⟩ := codeOf_path hv (by omega)
  obtain ⟨c, extended⟩ := isPrefix
  rw [extended] at pathV
  have ends : c = [] := by
    by_contra goes_on
    have inner := pathU.prefix_inner pathV goes_on
    rw [leafU] at inner
    contradiction
  rw [ends, List.append_nil] at pathV
  rw [← symU, ← symV, pathU.det pathV]

/-- Settles O42: no code begins another by `eq_of_codeOf_isPrefixOf`, the lengths by `codeLen_toNat` and `code_zero`. -/
theorem codesArePrefixFree : Obligations.CodesArePrefixFree := by
  rintro s t rfl
  refine ⟨fun u v hu hv ne isPrefix => ne (eq_of_codeOf_isPrefixOf hu hv isPrefix), fun v hv => ?_,
    fun v none => (code_zero s v none).1⟩
  obtain ⟨len, pos⟩ := codeLen_toNat hv
  exact ⟨len ▸ pos, len.symm⟩

/-- R231: with two leaves or more, a code is shorter than the number of leaves. -/
theorem codeLen_lt_usedCount (s : State) (v : Byte) (two : 2 ≤ usedCount s.freq) :
    (entry s.buildTree.deriveCodes.codeLen v.toNat 0).toNat + 1 ≤ usedCount s.freq := by
  by_cases h : freqOf s.freq v = 0
  · rw [(code_zero s v h).1]
    exact Nat.le_of_succ_le two
  · obtain ⟨q, code, -, -, -, -, -, long⟩ := code_spec s v h
    rw [(codeLen_toNat h).1, code]
    exact (long two).1

/-- R42: the bits of CODE_BITS beyond CODE_LEN are 0. -/
theorem codeBits_getLsbD_beyond (s : State) (v : Byte) {k : Nat}
    (hk : (entry s.buildTree.deriveCodes.codeLen v.toNat 0).toNat ≤ k) :
    (entry s.buildTree.deriveCodes.codeBits v.toNat 0).getLsbD k = false := by
  by_cases h : freqOf s.freq v = 0
  · rw [(code_zero s v h).2]
    exact BitVec.getLsbD_zero
  · obtain ⟨q, code, -, bits, -, short, -, -⟩ := code_spec s v h
    rw [(codeLen_toNat h).1, code] at hk
    rw [bits]
    exact getLsbD_store_beyond (by omega) hk

/-- Settles O43: the bound by `codeLen_lt_usedCount`, the clear bits by `codeBits_getLsbD_beyond`. -/
theorem codeLengthBound : Obligations.CodeLengthBound := by
  rintro s t rfl
  refine ⟨fun v two => ?_, fun v one h => ?_, fun v k hk => codeBits_getLsbD_beyond s v hk⟩
  · rw [deriveCodes_leafCount] at two ⊢
    exact codeLen_lt_usedCount s v two
  · have single : usedCount s.freq = 1 := by rw [← deriveCodes_leafCount, one]; rfl
    obtain ⟨q, code, -, -, -, -, zero, -⟩ := code_spec s v h
    rw [code, zero single]

/-! ## The header -/

/-- R13: word v of a byte sequence is made of its bytes 4v to 4v + 3. -/
theorem wordsOf_getElem? {h : List Byte} {v : Nat} (inside : 4 * v + 3 < h.length) :
    (wordsOf h)[v]? = some (fromLe32 h[4 * v] h[4 * v + 1] h[4 * v + 2] h[4 * v + 3]) := by
  induction h using wordsOf.induct generalizing v with
  | case1 b0 b1 b2 b3 rest ih =>
    cases v with
    | zero => rfl
    | succ v =>
      have inside' : 4 * v + 3 < rest.length := by
        simp only [List.length_cons] at inside
        omega
      exact ih inside'
  | case2 h short =>
    match h, short with
    | _ :: _ :: _ :: _ :: _, short => exact absurd rfl (short _ _ _ _ _)
    | [], _ | [_], _ | [_, _], _ | [_, _, _], _ => simp at inside

/-- R233: entry v of a parsed header is word v of it. -/
theorem parseHeader_entry (h : List Byte) {v : Nat} (hv : v < 256) :
    entry (parseHeader h) v 0 = (wordsOf h).getD v 0 := by
  simp [entry, parseHeader, hv]

/-- R13: `fromLE32` undoes `LE32`, word by word. -/
theorem wordsOf_flatMap_le32 {α : Type} (f : α → Word) (l : List α) :
    wordsOf (l.flatMap fun a => le32 (f a)) = l.map f := by
  induction l with
  | nil => rfl
  | cons a l ih => exact congrArg₂ List.cons (fromLe32_extracts (f a)) ih

/-- R233: parsing the header of a frequency table gives the table back. -/
theorem parseHeader_headerBytes (freq : Vector Word 256) : parseHeader (headerBytes freq) = freq := by
  have words : wordsOf (headerBytes freq) = symbols.map (freqOf freq) := wordsOf_flatMap_le32 _ _
  ext1 v hv
  simp [parseHeader, words, symbols, Config.symbols, freqOf, entry]

/-- Settles O44: each entry by `wordsOf_getElem?`, the round trip by `parseHeader_headerBytes`. -/
theorem headerRoundTrip : Obligations.HeaderRoundTrip := by
  refine ⟨fun h v length hv => ?_, fun freq => ⟨headerBytes_length freq, parseHeader_headerBytes freq⟩⟩
  refine ⟨h[4 * v], h[4 * v + 1], h[4 * v + 2], h[4 * v + 3], List.getElem?_eq_getElem _, List.getElem?_eq_getElem _,
    List.getElem?_eq_getElem _, List.getElem?_eq_getElem _, ?_⟩
  rw [parseHeader_entry h hv, List.getD_eq_getElem?_getD, wordsOf_getElem? (by omega), Option.getD_some,
    fromLe32_toNat]

end Sys2Proof.Proofs
end

section
/-! The statements of spec/42_encoder.md: what a session leaves unchanged (rules R269 (i), R302 (i)), how its setup fails
(R261, R269 (f)), and how ENCODE ends (R262 to R268). -/

namespace Sys2Proof.Proofs

open Sys2Proof.Machine Sys2Proof.Laws

/-! ## The frame -/

/-- Settles O34: `session_outcome` says what a session's run keeps, and its close and completion keep it too. -/
theorem frameOfSessions : Obligations.FrameOfSessions := by
  intro i s t session run
  obtain ⟨e, p, u, ends, ⟨touched, operands, results, inputs, status, -⟩, -⟩ := session_outcome i s session
  cases run.symm.trans ends
  exact ⟨operands, results, inputs, sameFilesBut_of_touched touched, (congrArg Status.ovr status :)⟩

/-! ## SETUP that fails -/

/-- R331: a session whose setup raises an error completes with it in SETUP. -/
theorem exec_of_encSetup_error {i : Instr} {s t : State} {e : ErrCode} (session : isSession i = true)
    (raised : encSetup s = .error e t) : exec i s = .next (complete e .setup (closeSession t)) := by
  cases i with
  | encodeFile => exact congrArg Host.Outcome.next (runSession_error raised)
  | decodeFile => exact congrArg Host.Outcome.next (runSession_error raised)
  | bsOpen _ _ | bsWrite _ | bsFlush _ | bsRead _ | bsRewind _ | bsClear _ => cases session

/-- R261: a setup whose operands differ closes both slots, opens and truncates the output, and opens the input. -/
theorem encSetup_of_ne {s : State} (ne : s.operandFile ≠ s.operandOutFile) :
    encSetup s = (do
      openSlot .s1 .write s.operandOutFile
      truncateSlot .s1
      openSlot .s0 .read s.operandFile : Cmd Unit) ((s.closeSlot .s0).closeSlot .s1) :=
  congrFun (if_neg ne) _

/-- R261: a setup whose operands agree closes both slots and raises ALIAS. -/
theorem encSetup_aliased {s : State} (aliased : s.operandFile = s.operandOutFile) :
    encSetup s = .error .aliased ((s.closeSlot .s0).closeSlot .s1) :=
  congrFun (if_pos aliased) _

/-- R261, R269 (f): a setup that finds no input has created and truncated the output. -/
theorem encSetup_absent {s : State} (ne : s.operandFile ≠ s.operandOutFile)
    (absent : s.files.lookup s.operandFile = none) (creates : s.io.next.1 = .done)
    (truncates : s.io.next.2.next.1 = .done) :
    ∃ t, encSetup s = .error .io t ∧ t.files = setupFiles s ∧ sameTables s t := by
  have absent' : (setupFiles s).lookup s.operandFile = none := by
    obtain ⟨others, -⟩ := setupFiles_touched s
    rw [others _ ne, absent]
  have created := openSlot_write_done (j := .s1) (f := s.operandOutFile) (s := (s.closeSlot .s0).closeSlot .s1) creates
  rw [encSetup_of_ne ne, bind_ok created, bind_ok (truncateSlot_done truncates)]
  exact ⟨_, openSlot_fails (.inr ⟨rfl, absent'⟩), rfl, rfl, rfl, rfl, rfl, rfl⟩

/-- Settles O46: `encSetup_absent` leaves the storage with an empty output and every other file as it was. -/
theorem absentInputLeavesEmptyOutput : Obligations.AbsentInputLeavesEmptyOutput := by
  intro i s session ne absent creates truncates
  obtain ⟨t, raised, files, tables⟩ := encSetup_absent ne absent creates truncates
  obtain ⟨others, -⟩ := setupFiles_touched s
  refine ⟨_, exec_of_encSetup_error session raised, rfl, rfl, ?_, fun f hf => ?_, tables⟩
  · rw [complete_files, closeSession_files, files]
    exact setupFiles_out s
  · rw [complete_files, closeSession_files, files]
    exact others f hf

/-! ## How ENCODE ends -/

/-- R263: a table that counts the bytes of a list bounds each count below 2^32. -/
theorem count_lt_of_counts {freq : Vector Word 256} {l : List Byte} (h : Counts freq l) (v : Byte) :
    l.count v < 2 ^ 32 := by
  rw [← h v]
  exact (freqOf freq v).isLt

/-- Settles O47: of the ends in `encode_run`, an overflow needs a count of 2^32 and IO a failing storage. -/
theorem encodeCompletes : Obligations.EncodeCompletes := by
  intro s bytes never ne input few
  rcases encode_run s bytes ne input with ⟨t, run, -⟩ | ⟨t, -, -, v, many⟩ | ⟨p, t, -, fails⟩
  · exact ⟨_, congrArg Host.Outcome.next run, rfl, rfl⟩
  · exact absurd (few v) (Nat.not_lt.2 many)
  · exact absurd never fails

/-- Settles O49: of the ends in `encode_run`, success counts each byte in 32 bits and IO needs a failing storage. -/
theorem encodeCountOverflow : Obligations.EncodeCountOverflow := by
  intro s bytes v never ne input many
  rcases encode_run s bytes ne input with ⟨t, -, ⟨counts, -⟩, -⟩ | ⟨t, run, empty, -⟩ | ⟨p, t, -, fails⟩
  · exact absurd (count_lt_of_counts counts v) (Nat.not_lt.2 many)
  · exact ⟨_, congrArg Host.Outcome.next run, rfl, rfl, empty⟩
  · exact absurd never fails

/-! ## The output in closed form -/

/-- A sum over the bytes of a list, taken symbol by symbol. -/
theorem sum_map_eq_sum_symbols (f : Byte → Nat) (l : List Byte) :
    (l.map f).sum = (symbols.map fun v => l.count v * f v).sum := by
  have distinct : symbols.Nodup := symbols_pairwise.imp BitVec.ne_of_lt
  rw [Finset.sum_list_map_count, ← List.sum_toFinset _ distinct]
  refine Finset.sum_subset (fun v _ => List.mem_toFinset.2 (mem_symbols v)) fun v _ out => ?_
  rw [List.count_eq_zero_of_not_mem fun mem => out (List.mem_toFinset.2 mem), zero_smul]

/-- R266: a code has as many bits as CODE_LEN says. -/
theorem codeOf_length (s : State) (v : Byte) : (s.codeOf v).length = (entry s.codeLen v.toNat 0).toNat := by
  rw [State.codeOf, List.length_take, bitsOf_length]
  exact Nat.min_eq_left (entry s.codeLen v.toNat 0).isLt.le

/-- R268: the codes of the counted bytes have `sum of FREQ * CODE_LEN` bits. -/
theorem flatMap_codeOf_length {s : State} {F : List Byte} (counts : Counts s.freq F) :
    (F.flatMap s.codeOf).length =
      (symbols.map fun v => (freqOf s.freq v).toNat * (entry s.codeLen v.toNat 0).toNat).sum := by
  rw [List.length_flatMap, sum_map_eq_sum_symbols]
  simp only [codeOf_length, counts _]

/-- R268: an ENCODE that completes without error leaves the tables and the output of its input; it was not aliased. -/
theorem encode_ok {s t : State} {F : List Byte} (input : s.files.lookup s.latch.arg0 = some F)
    (run : exec .encodeFile s = .next t) (ok : t.status.err = .noError) :
    Coded t F ∧ t.files.lookup s.latch.arg1 = some (headerBytes t.freq ++ pack (F.flatMap t.codeOf)) := by
  by_cases ne : s.latch.arg0 = s.latch.arg1
  · cases run.symm.trans (exec_of_encSetup_error rfl (encSetup_aliased ne))
    cases ok
  · have run : runSession encodePhases s = t := Host.Outcome.next.inj run
    rcases encode_run s F ne input with ⟨u, ends, coded, output⟩ | ⟨u, ends, -⟩ | ⟨p, u, ends, -⟩
    · cases run.symm.trans ends
      exact ⟨coded, output⟩
    · cases run.symm.trans ends
      cases ok
    · cases run.symm.trans ends
      cases ok

/-- Settles O48: the tables and the output by `encode_ok`, the output's length by `flatMap_codeOf_length`. -/
theorem encodeOutputClosedForm : Obligations.EncodeOutputClosedForm := by
  intro s t bytes input run ok
  obtain ⟨⟨counts, tree, total, codeLen, codeBits⟩, output⟩ := encode_ok input run ok
  obtain ⟨derivedLen, derivedBits, -⟩ := codes_of { s with freq := t.freq }
  refine ⟨counts, tree, total, codeLen.trans derivedLen.symm, codeBits.trans derivedBits.symm, output, ?_⟩
  rw [Memory.contents, output, Option.getD_some, List.length_append, headerBytes_length, pack_length,
    flatMap_codeOf_length counts]

end Sys2Proof.Proofs
end

section
/-! The statements of spec/43_decoder.md: how DECODE ends (rules R292 to R300, R302), the tables it leaves (R293, R223),
and that it gives back what ENCODE was given (R301). -/

namespace Sys2Proof.Proofs

open Sys2Proof.Machine Sys2Proof.Laws

/-! ## How DECODE ends -/

/-- Settles O51: of the ends in `decode_run`, the other two need 1024 bytes or a failing storage. -/
theorem shortHeaderIsMalformed : Obligations.ShortHeaderIsMalformed := by
  intro s bytes never ne input short
  rcases decode_run s bytes ne input with ⟨-, t, run, empty, tables⟩ | ⟨long, -⟩ | ⟨p, t, -, fails⟩
  · exact ⟨_, congrArg Host.Outcome.next run, rfl, rfl, empty, tables⟩
  · exact absurd short (Nat.not_lt.2 long)
  · exact absurd never fails

/-- Settles O50: past the header `decode_run` ends as the pure walk of the body says, or with a failing storage. -/
theorem decodeWritesTheWalk : Obligations.DecodeWritesTheWalk := by
  intro s bytes never ne input long fits
  rcases decode_run s bytes ne input with ⟨short, -⟩ | ⟨-, ends⟩ | ⟨p, t, -, fails⟩
  · exact absurd short (Nat.not_lt.2 long)
  · obtain ⟨t, ⟨freq, tree⟩, ⟨out, emits, run, output⟩ | ⟨absent, t', run, empty⟩⟩ := ends fits
    · refine ⟨fun out' emits' => ?_, fun absent => absurd (emits.symm.trans absent) nofun⟩
      cases emits.symm.trans emits'
      exact ⟨_, congrArg Host.Outcome.next run, rfl, rfl, output, freq, tree⟩
    · exact ⟨fun out emits => absurd (absent.symm.trans emits) nofun,
        fun _ => ⟨_, congrArg Host.Outcome.next run, rfl, rfl, empty⟩⟩
  · exact absurd never fails

/-! ## The tables DECODE leaves -/

theorem sameTables_refl (s : State) : sameTables s s := ⟨rfl, rfl, rfl, rfl, rfl⟩

theorem sameTables_trans (s t u : State) (h : sameTables s t) (h' : sameTables t u) : sameTables s u := by
  obtain ⟨freq, total, tree, codeLen, codeBits⟩ := h
  obtain ⟨freq', total', tree', codeLen', codeBits'⟩ := h'
  exact ⟨freq'.trans freq, total'.trans total, tree'.trans tree, codeLen'.trans codeLen, codeBits'.trans codeBits⟩

theorem readBits_sameTables (i : SlotId) (size : Nat) : Relates sameTables (readBits i size) := by
  intro s
  obtain ⟨x, o, e, -, -⟩ := readBits_onlyReads i size s
  rw [e]
  cases i <;> exact sameTables_refl s

theorem walkBit_sameTables (b : Bool) : Relates sameTables (walkBit b) := by
  intro s
  unfold after
  rcases walkBit_cases b s with e | ⟨y, w, n, e, -⟩ <;> rw [e] <;> exact sameTables_refl s

theorem walkLoop_sameTables : ∀ k, Relates sameTables (walkLoop k)
  | 0 => relates_pure sameTables_refl ()
  | k + 1 => by
    refine relates_bind sameTables_trans (relates_get sameTables_refl) fun s =>
      relates_ite (relates_pure sameTables_refl ()) ?_
    refine relates_bind sameTables_trans (readBits_sameTables .s0 1) fun x => ?_
    cases x with
    | nil => exact relates_pure sameTables_refl ()
    | cons b bs => exact relates_bind sameTables_trans (walkBit_sameTables b) fun _ => walkLoop_sameTables k

/-- R294: the walk of the body reads the tables only. -/
theorem decodeBody_sameTables : Relates sameTables decodeBody :=
  relates_bind sameTables_trans (relates_modify sameTables_refl) fun _ =>
    relates_bind sameTables_trans (relates_get sameTables_refl) fun _ => walkLoop_sameTables _

theorem flushSlot_sameTables (i : SlotId) : Relates sameTables (flushSlot i) := by
  intro s
  unfold after
  rcases flushSlot_cases i s with ⟨o, e, -⟩ | ⟨m, o, n, e, -, -⟩ <;> rw [e] <;> cases i <;> exact sameTables_refl s

/-- R293: a DECODE ends in SETUP or READ_HEADER, or with the tables that a build left. -/
theorem decode_tables (s : State) :
    (runSession decodePhases s).status.phase = .setup ∨ (runSession decodePhases s).status.phase = .readHeader ∨
    ∃ u : State, sameTables u.buildTree (runSession decodePhases s) := by
  unfold decodePhases
  cases setup : encSetup s with
  | error e t =>
    rw [runSession_error setup]
    exact .inl rfl
  | ok _ t =>
    rw [runSession_ok setup]
    cases header : readHeader t with
    | error e u =>
      rw [runSession_error header]
      exact .inr (.inl rfl)
    | ok _ u =>
      have built : buildTree u = .ok () u.buildTree := rfl
      rw [runSession_ok header, runSession_ok built]
      refine .inr (.inr ⟨u, runSession_relates sameTables_trans (fun _ _ => sameTables_refl) sameTables_refl _ ?_ _⟩)
      simp only [List.forall_mem_cons, List.not_mem_nil, false_imp_iff, implies_true, and_true]
      exact ⟨decodeBody_sameTables, flushSlot_sameTables .s1⟩

/-- Settles O52: by `decode_tables` the phase leaves only the tables of a build, which clears the code table. -/
theorem decodeClearsCodeTable : Obligations.DecodeClearsCodeTable := by
  intro s t run past
  cases (Host.Outcome.next.inj run : runSession decodePhases s = t)
  rcases decode_tables s with setup | header | ⟨u, freq, total, tree, codeLen, codeBits⟩
  · simp [setup] at past
  · simp [header] at past
  · rw [freq, total, tree, codeLen, codeBits, buildTree_codeLen, buildTree_codeBits, buildTree_freq]
    exact ⟨fun v => ⟨entry_replicate _ _ _, entry_replicate _ _ _⟩, buildTree_tree u, buildTree_total_toNat u⟩

/-! ## The round trip -/

/-- A byte of the counted list has a count. -/
theorem freqOf_ne_zero_of_mem {freq : Vector Word 256} {F : List Byte} (counts : Counts freq F) {v : Byte}
    (mem : v ∈ F) : freqOf freq v ≠ 0 := by
  intro zero
  have absent := counts v
  rw [zero] at absent
  exact (List.count_pos_iff.2 mem).ne absent

/-- R224: in a tree of one leaf, entry 0 is the leaf of the one symbol with a count. -/
theorem sym_of_single {freq : Vector Word 256} {v : Byte} (single : usedCount freq = 1) (h : freqOf freq v ≠ 0) :
    ((Tree.build freq).nodeAt 0).sym = v := by
  have first : (0 : NodeIx).toNat < usedCount freq := by rw [single]; decide
  have inside : (0 : NodeIx).toNat < (Tree.build freq).nodeCount.toNat := by
    rw [(build_counts freq).2.1, single]
    decide
  exact used_single freq single (build_leaf_used freq inside ((build_leaf_iff freq 0 inside).2 first)) h

/-- R301: the walk over the codes of the counted bytes, whatever follows them, emits these bytes and stops. -/
theorem walk_codes_of_counts {s : State} {F : List Byte} (counts : Counts s.freq F) (pad : BitSeq) :
    walkBits (Tree.build s.freq) (some F.length) (Tree.build s.freq).root 0
      (F.flatMap s.buildTree.deriveCodes.codeOf ++ pad) = some F := by
  cases F with
  | nil => cases pad <;> rfl
  | cons v F =>
    have counted := fun w => freqOf_ne_zero_of_mem (v := w) counts
    have some_counted := usedCount_pos (counted v List.mem_cons_self)
    obtain ⟨leaves, nodes, -⟩ := build_counts s.freq
    have root : (Tree.build s.freq).nodeCount ≠ 0 := by
      intro empty
      have zero : (0 : NodeIx).toNat = 2 * usedCount s.freq - 1 := empty ▸ nodes
      rw [show (0 : NodeIx).toNat = 0 from rfl] at zero
      omega
    by_cases single : usedCount s.freq = 1
    · have one : (Tree.build s.freq).leafCount = 1 := BitVec.eq_of_toNat_eq (leaves.trans single)
      have code : s.buildTree.deriveCodes.codeOf v = [false] := by
        obtain ⟨q, code, -, -, -, -, zero, -⟩ := code_spec s v (counted v List.mem_cons_self)
        rw [code, zero single]
      have same : v :: F = List.replicate (v :: F).length v :=
        List.eq_replicate_of_mem fun w hw => used_single s.freq single (counted w hw) (counted v List.mem_cons_self)
      rw [same, List.flatMap_replicate, code, List.flatten_replicate_singleton, List.length_replicate]
      exact walk_single root one (sym_of_single single (counted v List.mem_cons_self)) _ _ pad _ 0
        (by rw [Nat.zero_add])
    · exact walk_codes _ root (by omega) pad (v :: F) 0 counted (by rw [Nat.zero_add])

/-- R264: the codes an ENCODE leaves are those that BuildTree and DeriveCodes give for its counts. -/
theorem codeOf_of_coded {t : State} {F : List Byte} (coded : Coded t F) :
    t.codeOf = t.buildTree.deriveCodes.codeOf := by
  obtain ⟨-, -, -, codeLen, codeBits⟩ := coded
  obtain ⟨derivedLen, derivedBits, -⟩ := codes_of t
  funext v
  rw [State.codeOf, State.codeOf, codeLen, codeBits, derivedLen, derivedBits]

/-- R268: what ENCODE writes of F. -/
def encodedFile (t : State) (F : List Byte) : List Byte := headerBytes t.freq ++ pack (F.flatMap t.codeOf)

theorem encodedFile_length (t : State) (F : List Byte) :
    (encodedFile t F).length = 1024 + ((F.flatMap t.codeOf).length + 7) / 8 := by
  rw [encodedFile, List.length_append, headerBytes_length, pack_length]

/-- R42: a code has at most 255 bits. -/
theorem flatMap_codeOf_length_le (t : State) (F : List Byte) : (F.flatMap t.codeOf).length ≤ F.length * 255 := by
  rw [List.length_flatMap, ← List.length_map (f := fun v => (t.codeOf v).length)]
  refine sum_le_mul _ 255 fun n hn => ?_
  obtain ⟨v, -, rfl⟩ := List.mem_map.1 hn
  rw [codeOf_length]
  exact Nat.le_of_lt_succ (entry t.codeLen v.toNat 0).isLt

/-- R301: what ENCODE wrote of F decodes to F. -/
theorem decodedFile_encodedFile {t : State} {F : List Byte} (coded : Coded t F) :
    decodedFile .symbolCount (encodedFile t F) = some F := by
  have counts : Counts t.freq F := coded.1
  have header : (encodedFile t F).take 1024 = headerBytes t.freq := List.take_left' (headerBytes_length _)
  have body : (encodedFile t F).drop 1024 = pack (F.flatMap t.codeOf) := List.drop_left' (headerBytes_length _)
  obtain ⟨pad, bits⟩ := fileBits_pack (F.flatMap t.codeOf)
  simp only [decodedFile, stopLimit, header, body, bits, parseHeader_headerBytes, counts_sum counts]
  rw [codeOf_of_coded coded]
  exact walk_codes_of_counts counts pad

/-- Settles O53: `encode_ok` gives the file that ENCODE wrote, `decodedFile_encodedFile` what O50 makes of it. -/
theorem decodeInvertsEncode : Obligations.DecodeInvertsEncode := by
  intro s t u bytes input run ok placed ne stop never
  obtain ⟨coded, output⟩ := encode_ok input run ok
  have few : bytes.length < 2 ^ 40 := Counts.length_lt coded.1
  have size := encodedFile_length t bytes
  have bits := flatMap_codeOf_length_le t bytes
  obtain ⟨writes, -⟩ := decodeWritesTheWalk u (encodedFile t bytes) never ne (placed.trans output)
    (by omega) (by omega)
  obtain ⟨v, run', err, phase, written, -, -⟩ := writes bytes (by rw [stop, decodedFile_encodedFile coded])
  exact ⟨v, run', err, phase, written⟩

end Sys2Proof.Proofs
end

section
/-! The statements of spec/60_exceptions.md: how every command completes (rules R320, R330, R370), what acceptance and a
lost CMD write do (R328, R329), and what becomes of the slots (R327, R332). -/

namespace Sys2Proof.Proofs

open Sys2Proof.Machine Sys2Proof.Laws

/-! ## How a command ends -/

/-- A command that leaves its slot as it was on an error, and on its file in its mode otherwise, does so either way, with
an error listed for it. -/
theorem binding_of_ends {i : Instr} {e : ErrCode} {x y z : Slot} {P : Prop}
    (ends : e = .noError ∧ x = z ∧ P ∨ e ≠ .noError ∧ x = y ∧ (e, Phase.idle) ∈ completions i)
    (listed : (.noError, .idle) ∈ completions i) (mode : z.mode = y.mode) (file : z.file = y.file) :
    x.mode = y.mode ∧ x.file = y.file ∧ (e, Phase.idle) ∈ completions i := by
  rcases ends with ⟨rfl, rfl, -⟩ | ⟨-, rfl, raised⟩
  · exact ⟨mode, file, listed⟩
  · exact ⟨rfl, rfl, raised⟩

/-- R330, R332: a stream command other than BS_OPEN completes in PHASE IDLE with a listed error, over the storage, its
oracle, the results and its slot, which stays in its mode and on its file. -/
theorem checked_ends {i : Instr} {j : SlotId} {m : Mode} (checked : checkedSlot i = some (j, m)) (s : State) :
    ∃ e x o f n r d, exec i s = .next (ended e .idle
      ({ s with io := o, files := f, taken := n, resultBits := r, dataOut := d }.setSlot j x)) ∧
      x.mode = (s.slot j).mode ∧ x.file = (s.slot j).file ∧ (e, Phase.idle) ∈ completions i := by
  cases i with
  | bsWrite j =>
    cases checked
    obtain ⟨e, x, run, ends⟩ := bsWrite_ends j s
    exact ⟨e, x, _, _, _, _, _, run, binding_of_ends ends List.mem_cons_self rfl rfl⟩
  | bsRewind j =>
    cases checked
    obtain ⟨e, x, run, ends⟩ := bsRewind_ends j s
    exact ⟨e, x, _, _, _, _, _, run, binding_of_ends ends List.mem_cons_self rfl rfl⟩
  | bsFlush j =>
    cases checked
    obtain ⟨e, x, o, f, n, run, -, ends⟩ := bsFlush_ends j s
    exact ⟨e, x, o, f, n, _, _, run, binding_of_ends ends List.mem_cons_self rfl rfl⟩
  | bsClear j =>
    cases checked
    obtain ⟨e, x, o, f, n, run, -, ends⟩ := bsClear_ends j s
    exact ⟨e, x, o, f, n, _, _, run, binding_of_ends ends List.mem_cons_self rfl rfl⟩
  | bsRead j =>
    cases checked
    obtain ⟨e, x, o, r, d, run, mode, file, listed, -⟩ := bsRead_ends j s
    exact ⟨e, x, o, _, _, r, d, run, mode, file, listed⟩
  | bsOpen _ _ | encodeFile | decodeFile => cases checked

/-- From s to t the command i completed (R330), with an error and a phase listed for it (R320, R140). -/
structure Completes (i : Instr) (s t : State) : Prop where
  busy : t.status.busy = false
  done : t.status.done = true
  ovr : t.status.ovr = s.status.ovr
  stopL : t.stopL = .symbolCount
  raced : t.raced = false
  listed : (t.status.err, t.status.phase) ∈ completions i

/-- The end of a command over a state that no phase of it changed STATUS in. -/
theorem completes_ended {i : Instr} {e : ErrCode} {p : Phase} {s u : State} (status : u.status = s.status)
    (listed : (e, p) ∈ completions i) : Completes i s (ended e p u) :=
  ⟨rfl, rfl, (congrArg Status.ovr status :), rfl, rfl, listed⟩

theorem bsOpen_completes {j : SlotId} {d : Dir} {s t : State} (run : exec (.bsOpen j d) s = .next t) :
    Completes (.bsOpen j d) s t := by
  obtain ⟨e, x, o, m, run', ends⟩ := bsOpen_ends j d s
  cases run.symm.trans run'
  refine completes_ended (setSlot_status _ j x) ?_
  rcases ends with ⟨rfl, -⟩ | ⟨rfl, -⟩ <;> simp [completions]

theorem session_completes {i : Instr} {s t : State} (session : isSession i = true) (run : exec i s = .next t) :
    Completes i s t := by
  obtain ⟨e, p, u, run', ⟨-, -, -, -, status, -⟩, listed⟩ := session_outcome i s session
  cases run.symm.trans run'
  exact completes_ended status listed

theorem checked_completes {i : Instr} {j : SlotId} {m : Mode} {s t : State} (checked : checkedSlot i = some (j, m))
    (run : exec i s = .next t) : Completes i s t := by
  obtain ⟨e, x, o, f, n, r, d, run', -, -, listed⟩ := checked_ends checked s
  cases run.symm.trans run'
  exact completes_ended (setSlot_status _ j x) listed

/-- R330: however a command goes, it completes. -/
theorem exec_completes {i : Instr} {s t : State} (run : exec i s = .next t) : Completes i s t := by
  cases i with
  | bsOpen j d => exact bsOpen_completes run
  | bsWrite j | bsFlush j | bsRead j | bsRewind j | bsClear j => exact checked_completes rfl run
  | encodeFile | decodeFile => exact session_completes rfl run

/-! ## Raced commands -/

/-- R370: the open choice among a command's completions is one of them. -/
theorem pickCompletion_mem (i : Instr) (n : Nat) : pickCompletion i n ∈ completions i := by
  have some_listed : 0 < (completions i).length := by cases i <;> exact Nat.succ_pos _
  rw [pickCompletion, List.getD_eq_getElem _ _ (Nat.mod_lt n some_listed)]
  exact List.getElem_mem _

/-- R370: a raced command runs over other contents and is given one of its completions. -/
theorem racedOutcome_completes (i : Instr) (s : State) : ∃ t, racedOutcome i s = .next t ∧ Completes i s t := by
  have ran (v : State) : Completes i v (outcome i v) := exec_completes (exec_next i v)
  simp only [racedOutcome, exec_next]
  exact ⟨_, rfl, rfl, rfl, rfl, (ran _).stopL, (ran _).raced, pickCompletion_mem i _⟩

/-- The core's transition completes the latched command, raced or not. -/
theorem runLatched_completes {i : Instr} {s : State} (latched : decodeFields s.latchedFields = .ok i) :
    ∃ t, runLatched s = .next t ∧ Completes i s t := by
  simp only [runLatched, latched]
  split
  · exact racedOutcome_completes i s
  · exact ⟨_, exec_next i s, exec_completes (exec_next i s)⟩

/-- Settles O9: the core's turn is `runLatched`, and the listed pairs are the model's `completions`. -/
theorem everyCommandCompletes : Obligations.EveryCommandCompletes := by
  intro i pairs
  have listed : completions i = pairs := by cases i <;> rfl
  rw [← listed]
  refine ⟨fun s => ?_, fun s busy _ latched turn => ?_⟩
  · obtain ⟨idle, done, ovr, stopL, -, pair⟩ := exec_completes (exec_next i s)
    exact ⟨_, exec_next i s, idle, done, ovr, stopL, pair⟩
  · have ends : ∃ t, step s = .next t ∧ Completes i s t := by
      rcases turn with none_left | ⟨later, core⟩
      · rw [step_nil_busy none_left busy]
        exact runLatched_completes latched
      · rw [step_core_busy core busy]
        obtain ⟨t, run, c⟩ := runLatched_completes (s := { s with inputs := later }) latched
        exact ⟨t, run, c.busy, c.done, c.ovr, c.stopL, c.raced, c.listed⟩
    obtain ⟨t, next, idle, done, ovr, stopL, raced, pair⟩ := ends
    exact ⟨t, next, idle, done, ovr, stopL, raced, pair⟩

/-! ## OVR -/

/-- R329: a word written to CMD while BUSY = 1 only sets OVR. -/
theorem submit_busy {s : State} (w : Word) (busy : s.status.busy = true) :
    submit w s = { s with status := s.status.overrun } := if_pos busy

/-- R329, R330: the core's transition keeps OVR. -/
theorem runLatched_ovr {s t : State} (run : runLatched s = .next t) : t.status.ovr = s.status.ovr := by
  cases latched : decodeFields s.latchedFields with
  | ok i =>
    obtain ⟨u, run', completes⟩ := runLatched_completes latched
    cases run.symm.trans run'
    exact completes.ovr
  | error r =>
    simp only [runLatched, latched] at run
    cases run
    rfl

/-- R50: the only access that reaches CMD. -/
theorem access_of_cmd {wd : Width} {off : Nat} (legal : legalAccess wd off = true) (cmd : regAt off = .cmd) :
    wd = .word ∧ off = 4 := by
  obtain ⟨word, aligned⟩ := legalAccess_iff.1 legal
  exact ⟨word, regAt_cmd aligned cmd⟩

/-- Settles O8: the lost write by `submit_busy`; of what a step can do, only a reset and an accepted write clear OVR. -/
theorem cmdWriteWhileBusyIsLost : Obligations.CmdWriteWhileBusyIsLost := by
  refine ⟨fun s w later busy first => ?_, fun s t ovr h => ?_⟩
  · rw [step_write_word first (r := .cmd) rfl (by decide) (by decide), hostWrite, writeReg,
      submit_busy (s := { s with inputs := later }) w busy]
    rfl
  · rcases step_next_cases h with ⟨k, later, reset, -⟩ | ⟨-, later, run⟩ | ⟨wd, off, later, w, write, legal, cmd, rfl⟩ |
      ⟨l, r, a0, a1, st, d, n, rfl⟩ | ⟨f, b, l, -, rfl⟩
    case inl => exact .inr (.inl ⟨k, later, reset⟩)
    case inr.inl => exact .inl ((runLatched_ovr run).trans ovr)
    case inr.inr.inl =>
      cases busy : s.status.busy with
      | true => exact .inl (by rw [submit_busy (s := { s with inputs := later }) w busy]; rfl)
      | false =>
        obtain ⟨rfl, rfl⟩ := access_of_cmd legal cmd
        exact .inr (.inr ⟨rfl, w, later, write⟩)
    case inr.inr.inr.inl => exact .inl ovr
    case inr.inr.inr.inr => exact .inl ovr

/-! ## What becomes of the slots -/

/-- Settles O10: sessions by `session_outcome`, which ends in the close; checked commands by `checked_ends`. -/
theorem sessionsCloseSlotsStreamsDoNot : Obligations.SessionsCloseSlotsStreamsDoNot := by
  refine ⟨fun i s t session run => ?_, fun i j m s t checked run k => ?_⟩
  · obtain ⟨e, p, u, ends, -⟩ := session_outcome i s session
    cases run.symm.trans ends
    exact ⟨rfl, rfl, rfl, rfl⟩
  · obtain ⟨e, x, o, f, n, r, d, ends, mode, file, -⟩ := checked_ends checked s
    obtain ⟨frame, -, slot, -⟩ := slotFrame_of_run run ends
    rcases eq_or_eq_other j k with rfl | rfl
    · rw [slot]
      exact ⟨mode, file⟩
    · rw [frame.other]
      exact ⟨rfl, rfl⟩

/-- Settles O45: SETUP raises ALIAS before it opens a slot (`encSetup_aliased`), and no file is bound
(`changeFile_aliased`). -/
theorem aliasedSessionTouchesNoFile : Obligations.AliasedSessionTouchesNoFile := by
  intro i s session aliased
  refine ⟨(exec_of_encSetup_error session (encSetup_aliased aliased) :), fun f bytes later latched first => ?_⟩
  rw [step_cons first]
  exact congrArg Host.Outcome.next
    (changeFile_aliased (s := { s with inputs := later }) session aliased latched f bytes)

/-! ## Acceptance -/

/-- R328: a legal word written to CMD while BUSY = 0 is accepted. -/
theorem submit_legal {w : Word} {i : Instr} {s : State} (idle : s.status.busy = false) (legal : decode w = .ok i) :
    submit w s = accept w s := by
  simp [submit, idle, legal]

/-- R4: the latched command runs on the core's turn, which comes with nothing to come or at a `core` of the list. -/
theorem step_core_turn {s : State} {i : Instr} {later : List Input} (inputs : s.inputs = later)
    (busy : s.status.busy = true) (clean : s.raced = false) (latched : decodeFields s.latchedFields = .ok i)
    (turn : later = [] ∨ ∃ rest, later = .core :: rest) : step s = exec i { s with inputs := later.tail } := by
  obtain ⟨run_last, run_core, -⟩ := stepRunsLatchedInstruction s i busy clean latched
  rcases turn with rfl | ⟨rest, rfl⟩
  · rw [run_last inputs, List.tail_nil, ← inputs]
  · exact run_core rest inputs

/-- The core's turn comes first in `coreFirst`, and what was to come stays to come. -/
theorem coreFirst_turn (l : List Input) :
    (coreFirst l = [] ∨ ∃ rest, coreFirst l = .core :: rest) ∧ (coreFirst l).tail = l := by
  cases l with
  | nil => exact ⟨.inl rfl, rfl⟩
  | cons x later => exact ⟨.inr ⟨_, rfl⟩, rfl⟩

theorem decode_of_decodeTableWord {nbits n : Nat} {i : Instr} (h : decodeTableWord nbits n = some i) :
    decode (BitVec.ofNat 32 (n % 2 ^ nbits)) = .ok i := by
  unfold decodeTableWord at h
  split at h
  · next legal => rw [legal, Option.some.inj h]
  · cases h

/-- R328: a legal word is placed as the accepted one, with the core's turn to come first, which runs its command. -/
theorem step_submitted {w : Word} {i : Instr} (legal : decode w = .ok i) (s : State) :
    step (submitted w s) = exec i (accept w s) := by
  obtain ⟨turn, tail⟩ := coreFirst_turn s.inputs
  have run := step_core_turn (s := { accept w s with inputs := coreFirst s.inputs }) rfl rfl rfl
    (latchedFields_accept w s i legal) turn
  rw [tail] at run
  rwa [submitted, legal]

/-- Settles O6: the table's word is the legal one that `step_submitted` speaks of. -/
theorem placedWordRunsNext : Obligations.PlacedWordRunsNext := fun s _ _ placed =>
  step_submitted (decode_of_decodeTableWord placed) s

/-- Settles O7: acceptance by `submit_legal` and `submit_illegal`, the run that follows by `step_core_turn`. -/
theorem cmdWriteIsAccepted : Obligations.CmdWriteIsAccepted := by
  intro s w later idle first
  have write := step_write_word first (r := .cmd) rfl (by decide) (by decide)
  rw [hostWrite, writeReg] at write
  refine ⟨fun i legal => ?_, fun r illegal => ?_⟩
  · rw [submit_legal (s := { s with inputs := later }) idle legal] at write
    have latched := latchedFields_accept w s i legal
    exact ⟨_, write, rfl, latched, step_core_turn rfl rfl rfl latched⟩
  · rw [submit_illegal (s := { s with inputs := later }) idle illegal] at write
    exact write

end Sys2Proof.Proofs
end

section
/-! The statements of spec/70_reset_and_hazards.md: what the reset input does, at any time and during a command (rules
R360 to R362), and what reads exactly while BUSY = 1 (R372). -/

namespace Sys2Proof.Proofs

open Sys2Proof.Machine Sys2Proof.Laws

/-! ## Reads while BUSY = 1 -/

/-- R372: a read, while BUSY = 1, of the register at a word of the window. -/
theorem reads_busy_reg {s : State} {off : Nat} {r : Reg} (busy : s.status.busy = true) (at_ : regAt off = r)
    (lt : off < 0x4000) (aligned : off % 4 = 0) :
    s.hostReads off = some (s.busyRegValue (Config.busyWord s.taken) r) := at_ ▸ reads_busy s busy lt aligned

/-- R372: the bits of STATUS that read exactly while BUSY = 1. -/
theorem busyWord_fields (st : Status) (any : Word) :
    ((st.busyWord any).getLsbD 0 = st.busy ∧ (st.busyWord any).getLsbD 2 = st.ovr ∧
      (st.busyWord any).getLsbD 3 = false) ∧ (st.busyWord any).extractLsb' 12 20 = 0 := by
  unfold Status.busyWord
  constructor
  · simp only [BitVec.getLsbD_append, BitVec.getLsbD_ofBool]
    simp
  · iterate 6 rw [BitVec.extractLsb'_append_eq_of_le (by decide)]
    exact BitVec.extractLsb'_eq_self

/-- Settles O17: register by register; CMD and the reserved words read 0 whatever BUSY is. -/
theorem busyReadsThatAreExact : Obligations.BusyReadsThatAreExact := by
  intro s busy
  obtain ⟨⟨busy_bit, ovr_bit, bit3⟩, high⟩ := busyWord_fields s.status (Config.busyWord s.taken)
  refine ⟨reads_busy_reg busy (r := .id) rfl (by decide) (by decide),
    ⟨_, reads_busy_reg busy (r := .status) rfl (by decide) (by decide), busy_bit.trans busy, ovr_bit, bit3, high⟩,
    reads_busy_reg busy (r := .arg0) rfl (by decide) (by decide),
    reads_busy_reg busy (r := .arg1) rfl (by decide) (by decide), ?config, fun j hj => ?dataIn,
    fun off hole aligned => ?hole⟩
  case config =>
    rw [reads_busy_reg busy (r := .config) rfl (by decide) (by decide), State.busyRegValue]
    cases s.stop <;> rfl
  case dataIn =>
    exact ⟨_, reads_busy_reg busy (regAt_dataIn hj) (by omega) (by omega),
      fun k hk => windowWord_extract s.dataIn (4 * j) k hk (by omega)⟩
  case hole => rw [hostReads_eq s (by omega) aligned, seen_zero s _ (regAt_hole hole aligned)]

/-! ## The reset input -/

/-- R360, R361: a reset while BUSY = 0. -/
theorem step_reset_idle {s : State} {k : Nat} {later : List Input} (first : s.inputs = .reset k :: later)
    (idle : s.status.busy = false) :
    step s = .next { State.reset with files := s.files, io := s.io, taken := s.taken, inputs := later } := by
  rw [step_cons first]
  simp [handle, resetInput, blockReset, idle]

/-- The state whose run leaves the storage that a reset finds (R362): the inputs after the reset are to come, and the
oracle is cut after k requests. -/
def cutState (k : Nat) (later : List Input) (s : State) : State :=
  { s with inputs := later, io := s.io.cutAfter k }

/-- R362: a reset while BUSY = 1 keeps the storage that the core's transition leaves under the cut oracle. -/
theorem step_reset_busy {s u : State} {k : Nat} {later : List Input} (first : s.inputs = .reset k :: later)
    (busy : s.status.busy = true) (run : runLatched (cutState k later s) = .next u) :
    step s = .next { State.reset with
      files := u.files, io := s.io.skip k, taken := u.taken, inputs := later } := by
  unfold cutState at run
  rw [step_cons first]
  simp [handle, resetInput, cutShort, blockReset, busy, run]

/-- Settles O20: idle or not, what a reset leaves of the block is `State.reset`. -/
theorem resetInputResetsTheBlock : Obligations.ResetInputResetsTheBlock := by
  refine ⟨fun s k later first => ?_, fun s k later idle first => step_reset_idle first idle⟩
  cases busy : s.status.busy with
  | false => exact ⟨_, step_reset_idle first busy, rfl⟩
  | true =>
    obtain ⟨u, run, -⟩ := runLatched_next (cutState k later s)
    exact ⟨_, step_reset_busy first busy run, rfl⟩

/-! ## A reset during a command -/

/-- The one file a command may change in storage, on any path. -/
def changedFile (i : Instr) (s : State) : Option FileId :=
  match i with
  | .bsOpen _ .write => some s.latch.arg0
  | .bsFlush j | .bsClear j => some (s.slot j).file
  | .encodeFile | .decodeFile => some s.latch.arg1
  | .bsOpen _ .read | .bsWrite _ | .bsRead _ | .bsRewind _ => none

/-- R102, R162: an open changes no file, but that one for writing creates ARG0. -/
theorem bsOpen_lookup_ne {j : SlotId} {d : Dir} {s t : State} {f : FileId}
    (other : some f ≠ changedFile (.bsOpen j d) s) (run : exec (.bsOpen j d) s = .next t) :
    t.files.lookup f = s.files.lookup f := by
  obtain ⟨e, x, o, m, ends, made⟩ := bsOpen_ends j d s
  obtain ⟨-, -, -, files, -⟩ := slotFrame_of_run run ends
  rw [files]
  rcases made with ⟨-, -, reads, writes⟩ | ⟨-, -, kept⟩
  · cases d with
    | read => rw [(reads rfl).2]
    | write =>
      rw [writes rfl, lookup_create]
      exact if_neg fun same => other (congrArg some same)
  · rw [kept]

/-- R269 (i), R302 (i): a session changes no file but ARG1. -/
theorem session_lookup_ne {i : Instr} {s t : State} {f : FileId} (session : isSession i = true)
    (other : some f ≠ some s.latch.arg1) (run : exec i s = .next t) : t.files.lookup f = s.files.lookup f := by
  obtain ⟨e, p, u, ends, ⟨touched, -⟩, -⟩ := session_outcome i s session
  cases run.symm.trans ends
  exact touched.1 f fun same => other (congrArg some same)

/-- However a command goes, it changes no file but the one it writes. -/
theorem exec_lookup_ne {i : Instr} {s t : State} {f : FileId} (other : some f ≠ changedFile i s)
    (run : exec i s = .next t) : t.files.lookup f = s.files.lookup f := by
  cases i with
  | bsOpen j d => exact bsOpen_lookup_ne other run
  | bsWrite j =>
    obtain ⟨e, x, ends, -⟩ := bsWrite_ends j s
    obtain ⟨-, -, -, files, -⟩ := slotFrame_of_run run ends
    rw [files]
  | bsRewind j =>
    obtain ⟨e, x, ends, -⟩ := bsRewind_ends j s
    obtain ⟨-, -, -, files, -⟩ := slotFrame_of_run run ends
    rw [files]
  | bsRead j =>
    obtain ⟨e, x, o, r, d, ends, -⟩ := bsRead_ends j s
    obtain ⟨-, -, -, files, -⟩ := slotFrame_of_run run ends
    rw [files]
  | bsFlush j =>
    obtain ⟨e, x, o, m, n, ends, touched, -⟩ := bsFlush_ends j s
    obtain ⟨-, -, -, files, -⟩ := slotFrame_of_run run ends
    exact files ▸ touched.1 f fun same => other (congrArg some same)
  | bsClear j =>
    obtain ⟨e, x, o, m, n, ends, touched, -⟩ := bsClear_ends j s
    obtain ⟨-, -, -, files, -⟩ := slotFrame_of_run run ends
    exact files ▸ touched.1 f fun same => other (congrArg some same)
  | encodeFile | decodeFile => exact session_lookup_ne rfl other run

/-- R362: with no request before the cut, none spoils a file, whatever the oracle. -/
theorem noSpoil_cut_zero (o : IoOracle) : NoSpoil (o.cutAfter 0) := fun j => by
  rw [IoOracle.cutAfter, IoOracle.answers, notReached_skip]
  decide

/-- What a stream command makes of storage depends on neither the oracle nor the inputs to come. -/
theorem streamFiles_cutState (i : Instr) (k : Nat) (later : List Input) (s : State) :
    streamFiles i (cutState k later s) = streamFiles i s := by
  cases i with
  | bsOpen j d => cases d <;> rfl
  | bsFlush j | bsClear j => cases j <;> rfl
  | bsWrite _ | bsRead _ | bsRewind _ | encodeFile | decodeFile => rfl

/-- R362: cut after at least one request, a stream command leaves the storage as it does uncut. -/
theorem stream_cut {i : Instr} {s t u : State} {k : Nat} {later : List Input} (never : s.io.neverFails)
    (stream : isSession i = false) (pos : k ≠ 0) (cut : exec i (cutState k later s) = .next t)
    (whole : exec i s = .next u) : t.files = u.files := by
  have done : s.io.next.1 = .done := (neverFails_next never).1
  have cut_done : (cutState k later s).io.next.1 = .done := (cutAfter_succ s.io pos).trans done
  calc t.files
      = streamFiles i (cutState k later s) := by
        rw [stream_files stream (noSpoil_cut k s.io never) cut, if_pos cut_done]
    _ = streamFiles i s := streamFiles_cutState i k later s
    _ = u.files := by rw [stream_files stream (NoSpoil.of_neverFails never) whole, if_pos done]

/-- Settles O21: the reset keeps the storage of the latched command run over the cut oracle. -/
theorem resetDuringSessionLeavesPrefix : Obligations.ResetDuringSessionLeavesPrefix := by
  intro i s u k later busy clean latched first whole
  have cut := exec_next i (cutState k later s)
  have run := (runLatched_clean (s := cutState k later s) latched clean).trans cut
  refine ⟨_, step_reset_busy first busy run, rfl, ?none_before, fun f other => ?others,
    fun never stream pos => (stream_cut never stream pos cut whole :), fun never session => ?output⟩
  case none_before =>
    rintro rfl
    exact (notReached_files (s := cutState 0 later s) (noSpoil_cut_zero s.io) (cutAfter_zero s.io) cut :)
  case others =>
    have other : some f ≠ changedFile i (cutState k later s) := by
      cases i with
      | bsOpen _ d => cases d <;> exact other
      | _ => exact other
    exact (exec_lookup_ne other cut :)
  case output =>
    have alike : Alike (fun _ o => o.neverFails) (cutState k later s) s :=
      ⟨s.io, _, _, _, _, s.inputs, _, rfl, never⟩
    exact (session_prefix (s := cutState k later s) session alike (noSpoil_cut k s.io never) cut whole :)

end Sys2Proof.Proofs
end
